-- ==== Sys2Proof/Word.lean ====
section
/-! DEFINITION. The bit vectors of SWC-I2CM (00_scope.md R10, R13: bit 0 is the least significant bit, every value
is unsigned). Counts, chip offsets and buffer indices are natural numbers: the spec adds and compares them
"without wrap" (R17). -/

namespace Sys2Proof

/-- An 8-bit value: a byte on the wire, a register of an expander chip, a buffer byte. -/
abbrev Byte := BitVec 8

/-- A 7-bit bus address (R10). -/
abbrev Addr7 := BitVec 7

/-- A host command word (30_encoding.md R80). -/
abbrev CmdWord := BitVec 32

/-- A 5-bit LED or button mask (44_panel.md R214, R222). -/
abbrev Mask5 := BitVec 5

end Sys2Proof
end

