-- ==== Sys2Proof/Config.lean ====
section
/-! DEFINITION. What an implementation fixes (00_scope.md R9) and the free values. Every OPEN parameter is an opaque
constant: nothing in Lean can prove what it is, only that it lies in the range R9 gives (log entry 1). The meanings take
the parameters as an argument, since they are "parameters of the step relation" (10_state.md R33); `exec` gives them
`Config.params`. -/

namespace Sys2Proof.Machine

/-- What the devices other than this block (and than the chips of `State.chips`) contribute to the two lines: `true`
is "let go", `false` is "held low" (40_line_control.md R114). -/
structure Levels where
  scl : Bool
  sda : Bool
  deriving DecidableEq, Repr

/-- One thing the bus environment does (00_scope.md R11), at any moment between two micro-operations or two commands. -/
inductive EnvAct where
  /-- The other devices change what they contribute to the lines (R11, U17). -/
  | otherDevices (l : Levels)
  /-- The chips at an address lose or regain power (20_memory.md R62, R63). -/
  | chipPower (addr : Addr7) (on : Bool)
  /-- The external pins of the chips at an address change (R61). -/
  | chipPins (addr : Addr7) (ext : Byte)
  deriving DecidableEq, Repr

end Sys2Proof.Machine

namespace Sys2Proof

/-- The parameter list of R9, less the two buffer sizes, which R9 fixes at 256. -/
structure Params where
  /-- `QUARTER_BIT_CYCLES`: length of one `Q()` in core cycles. -/
  quarterBitCycles : Nat
  /-- `EXP_BASE`: base bus address of the expander family. -/
  expBase : Nat
  /-- `ALIVE_TEST_MASK`: the invert channel of chip 2 the liveness probe toggles. -/
  aliveTestMask : Byte
  /-- `PWM_PERIOD`: modulus of `PWM_CNT`. -/
  pwmPeriod : Nat
  /-- `PWM_BASE_THRESH`: threshold of the always-on level. -/
  pwmBaseThresh : Nat
  /-- `PWM_PRESSED_THRESH`: threshold of the active level. -/
  pwmPressedThresh : Nat
  deriving DecidableEq, Repr

/-- The ranges of R9. -/
def Params.valid (P : Params) : Bool :=
  decide (1 ≤ P.quarterBitCycles) && decide (P.expBase ≤ 0x7D) &&
  (P.aliveTestMask == 0x10 || P.aliveTestMask == 0x20) && decide (1 ≤ P.pwmPeriod) &&
  decide (P.pwmBaseThresh ≤ P.pwmPeriod) && decide (P.pwmPressedThresh ≤ P.pwmPeriod)

/-- `TXBUF_SIZE` and `RXBUF_SIZE` (R9: "256 each, fixed"). -/
def bufferSize : Nat := 256

/-- `QUARTER_BIT_CYCLES` less 1: "any integer ≥ 1". -/
opaque Config.quarterBitCyclesLess1 : Nat
/-- `EXP_BASE`: "OPEN, 0x00..0x7D". -/
opaque Config.expBase : Fin 0x7E
/-- `ALIVE_TEST_MASK`: "OPEN among {0x10, 0x20}"; is it 0x20? -/
opaque Config.aliveTestMaskIsBit5 : Bool
/-- `PWM_PERIOD` less 1: "OPEN ≥ 1". -/
opaque Config.pwmPeriodLess1 : Nat
/-- `PWM_BASE_THRESH`: "OPEN, 0..`PWM_PERIOD`". -/
opaque Config.pwmBaseThresh : Fin (Config.pwmPeriodLess1 + 2)
/-- `PWM_PRESSED_THRESH`: "OPEN, 0..`PWM_PERIOD`". -/
opaque Config.pwmPressedThresh : Fin (Config.pwmPeriodLess1 + 2)

/-- The parameters of this instance. -/
def Config.params : Params :=
  { quarterBitCycles := Config.quarterBitCyclesLess1 + 1
    expBase := Config.expBase.val
    aliveTestMask := if Config.aliveTestMaskIsBit5 then 0x20 else 0x10
    pwmPeriod := Config.pwmPeriodLess1 + 1
    pwmBaseThresh := Config.pwmBaseThresh.val
    pwmPressedThresh := Config.pwmPressedThresh.val }

/-! ### Free values -/

/-- Does the bus environment let the clock line go at its n-th observation? "a draw from the environment"
(40_line_control.md R113, R114; U1, U2). -/
opaque Config.freeScl : Nat → Bool
/-- Does the bus environment let the data line go at its n-th observation? (R113, R114; U1, U3). -/
opaque Config.freeSda : Nat → Bool
/-- What the bus environment does before the n-th micro-operation: "It may change what it drives between any two
micro-operations" (00_scope.md R11, D6), any number of times. -/
opaque Config.freeActs : Nat → List Machine.EnvAct
/-- A DESTROY with a drive latch at 0, at the n-th micro-operation: do the chips see the edge of the clock before that of the
data, or both at once? "The spacing of the two resulting edges, and therefore whether a slave sees a stop condition, is
unspecified: `any value`" (U4; log entry 16). -/
opaque Config.edgesApart : Nat → Bool
/-- The byte sent for a `TXBUF` index the host never wrote: "`any value` for the byte sent" (U9). The first argument
is the count of observations so far, so that two commands need not find the same byte. -/
opaque Config.unwrittenTx : Nat → Nat → Byte
/-- The byte the host reads at an `RXBUF` index no command wrote: "read as `any value` to the host" (U9). -/
opaque Config.unwrittenRx : Nat → Nat → Byte

end Sys2Proof
end

