-- ==== Sys2Proof/Syntax.lean ====
section
/-! DEFINITION. The instructions: one constructor per row of spec/opcode_table.json. The first 25 are the host commands of
30_encoding.md R83 with the operands of R82; the last six are the wire encodings of R84 and R85, single bytes the
sequencer puts on the lines, "not a host command" (R92). -/

namespace Sys2Proof

/-- One row of spec/opcode_table.json each. Operands are as R82 assembles them: `addr7` 7 bits; `reg`, `value`, `mask` and
`byte` 8 bits; `bit` and `ack` one bit; the LED operands 5 bits; counts and chip offsets natural numbers, which
`Instr.wf` bounds by their 8-bit fields. -/
inductive Instr where
  -- layer L0: line control (40_line_control.md)
  | qdelay
  | construct
  | destroy
  -- layer L1: primitives (41_i2c_primitives.md)
  | start
  | stop
  | wbit (bit : Bool)
  | rbit
  | wbyte (byte : Byte)
  | rbyte (ack : Bool)
  -- layer L1: transactions (42_i2c_transactions.md)
  | writebytes (addr7 : Addr7) (n : Nat)
  | readbytes (addr7 : Addr7) (count : Nat)
  | writethenread (addr7 : Addr7) (wn : Nat) (rcount : Nat)
  | readreg (addr7 : Addr7) (reg : Byte)
  | writereg (addr7 : Addr7) (reg : Byte) (value : Byte)
  -- layer L2: expander protocol (43_expander.md)
  | xread (chip : Nat)
  | xwrite (chip : Nat) (value : Byte)
  | xconfig (chip : Nat) (mask : Byte)
  | xsetinv (chip : Nat) (mask : Byte)
  | xgetinv (chip : Nat)
  -- layer L3: panel controller (44_panel.md)
  | pinit
  | pcheck
  | pbuttons
  | pknob
  | pleds (mask5 : Mask5)
  | pledtick (state5 : Mask5)
  -- wire encodings (30_encoding.md R84, R85)
  | wireAddrWrite (a : Addr7)
  | wireAddrRead (a : Addr7)
  | regInput
  | regOutput
  | regPolinv
  | regConfig
  deriving DecidableEq, Repr

end Sys2Proof
end

