-- ==== Sys2Proof/WellFormed.lean ====
section
/-! DEFINITION. Which instructions an encoding exists for. The bit-vector operands are as wide as their fields, so
only the natural-number operands need a check: a count and a chip offset sit in an 8-bit field
(30_encoding.md R82: "the 8-bit field value 0..255"). Values the encoding admits and the block refuses at execution
(a read count of 0, a chip beyond address 0x7F) are well formed (R89). -/

namespace Sys2Proof

/-- A value that fits an 8-bit operand field (R81). -/
def fitsByte (n : Nat) : Bool := decide (n < 256)

/-- Every operand fits its field. -/
def Instr.wf : Instr → Bool
  | .writebytes _ n => fitsByte n
  | .readbytes _ count => fitsByte count
  | .writethenread _ wn rcount => fitsByte wn && fitsByte rcount
  | .xread chip => fitsByte chip
  | .xwrite chip _ => fitsByte chip
  | .xconfig chip _ => fitsByte chip
  | .xsetinv chip _ => fitsByte chip
  | .xgetinv chip => fitsByte chip
  | .qdelay | .construct | .destroy | .start | .stop | .wbit _ | .rbit | .wbyte _ | .rbyte _ => true
  | .readreg _ _ | .writereg _ _ _ => true
  | .pinit | .pcheck | .pbuttons | .pknob | .pleds _ | .pledtick _ => true
  | .wireAddrWrite _ | .wireAddrRead _ | .regInput | .regOutput | .regPolinv | .regConfig => true

end Sys2Proof
end

