-- ==== Sys2Proof/Decode.lean ====
section
/-! DEFINITION. The decoder and the encoder. A command is one 32-bit word `op a b c` (30_encoding.md R80) in one of
eight formats (R81); a word that matches no row of R83, or has a reserved bit set, is illegal (R88). A wire byte (R84, R85)
is read by its position in the frame (R86, R87): the first byte after a start condition is an address byte, the
first data byte of a register access a register pointer. -/

namespace Sys2Proof

/-! ### The fields of a command word (R80, R13) -/

/-- `op = word[31:24]`. -/
def opField (w : CmdWord) : Byte := w.extractLsb' 24 8
/-- `a = word[23:16]`. -/
def aField (w : CmdWord) : Byte := w.extractLsb' 16 8
/-- `b = word[15:8]`. -/
def bField (w : CmdWord) : Byte := w.extractLsb' 8 8
/-- `c = word[7:0]`. -/
def cField (w : CmdWord) : Byte := w.extractLsb' 0 8

/-- Why a word is no instruction. -/
inductive DecodeError where
  /-- `op` is not one of the 25 operation codes (R88). -/
  | unknownOp (op : Byte)
  /-- The operation code is known and a bit its format reserves is 1 (R88). -/
  | reservedBitSet (op : Byte)
  /-- A byte in the register-pointer position that is none of the four of R85. -/
  | noRegisterPointer (b : Byte)
  deriving DecidableEq, Repr

/-- Keeps `i` if every reserved bit is 0 (R88). -/
def ifReservedZero (op : Byte) (zero : Bool) (i : Instr) : Except DecodeError Instr :=
  if zero then .ok i else .error (.reservedBitSet op)

/-- Format F0: no operand bits. -/
def decodeF0 (op a b c : Byte) (i : Instr) : Except DecodeError Instr :=
  ifReservedZero op (a == 0 && b == 0 && c == 0) i

/-- Format F1: `c[0]`, with `c[7:1]` reserved. -/
def decodeF1 (op a b c : Byte) (i : Bool → Instr) : Except DecodeError Instr :=
  ifReservedZero op (a == 0 && b == 0 && c.extractLsb' 1 7 == 0#7) (i (c.getLsbD 0))

/-- Format F2: `c[7:0]`. -/
def decodeF2 (op a b c : Byte) (i : Byte → Instr) : Except DecodeError Instr :=
  ifReservedZero op (a == 0 && b == 0) (i c)

/-- Format F3: `a[6:0]` and `b[7:0]`, with `a[7]` and `c` reserved. -/
def decodeF3 (op a b c : Byte) (i : Addr7 → Byte → Instr) : Except DecodeError Instr :=
  ifReservedZero op (!a.getLsbD 7 && c == 0) (i (a.extractLsb' 0 7) b)

/-- Format F4: `a[6:0]`, `b[7:0]` and `c[7:0]`, with `a[7]` reserved. -/
def decodeF4 (op a b c : Byte) (i : Addr7 → Byte → Byte → Instr) : Except DecodeError Instr :=
  ifReservedZero op (!a.getLsbD 7) (i (a.extractLsb' 0 7) b c)

/-- Format F5: `a[7:0]`, a chip offset. -/
def decodeF5 (op a b c : Byte) (i : Nat → Instr) : Except DecodeError Instr :=
  ifReservedZero op (b == 0 && c == 0) (i a.toNat)

/-- Format F6: `a[7:0]`, a chip offset, and `c[7:0]`. -/
def decodeF6 (op a b c : Byte) (i : Nat → Byte → Instr) : Except DecodeError Instr :=
  ifReservedZero op (b == 0) (i a.toNat c)

/-- Format F7: `c[4:0]`, with `c[7:5]` reserved. -/
def decodeF7 (op a b c : Byte) (i : Mask5 → Instr) : Except DecodeError Instr :=
  ifReservedZero op (a == 0 && b == 0 && c.extractLsb' 5 3 == 0#3) (i (c.extractLsb' 0 5))

/-- The command given by its operation code and operand bytes (R83). -/
def decodeFields (op a b c : Byte) : Except DecodeError Instr :=
  match op.toNat with
  | 0x01 => decodeF0 op a b c .qdelay
  | 0x02 => decodeF0 op a b c .construct
  | 0x03 => decodeF0 op a b c .destroy
  | 0x04 => decodeF0 op a b c .start
  | 0x05 => decodeF0 op a b c .stop
  | 0x06 => decodeF1 op a b c .wbit
  | 0x07 => decodeF0 op a b c .rbit
  | 0x08 => decodeF2 op a b c .wbyte
  | 0x09 => decodeF1 op a b c .rbyte
  | 0x10 => decodeF3 op a b c (fun addr7 n => .writebytes addr7 n.toNat)
  | 0x11 => decodeF3 op a b c (fun addr7 count => .readbytes addr7 count.toNat)
  | 0x12 => decodeF4 op a b c (fun addr7 wn rcount => .writethenread addr7 wn.toNat rcount.toNat)
  | 0x13 => decodeF3 op a b c .readreg
  | 0x14 => decodeF4 op a b c .writereg
  | 0x20 => decodeF5 op a b c .xread
  | 0x21 => decodeF6 op a b c .xwrite
  | 0x22 => decodeF6 op a b c .xconfig
  | 0x23 => decodeF6 op a b c .xsetinv
  | 0x24 => decodeF5 op a b c .xgetinv
  | 0x30 => decodeF0 op a b c .pinit
  | 0x31 => decodeF0 op a b c .pcheck
  | 0x32 => decodeF0 op a b c .pbuttons
  | 0x33 => decodeF0 op a b c .pknob
  | 0x34 => decodeF7 op a b c .pleds
  | 0x35 => decodeF7 op a b c .pledtick
  | _ => .error (.unknownOp op)

/-- The command a word written to `CMD` spells (R80, R83, R88). -/
def decodeCommand (w : CmdWord) : Except DecodeError Instr :=
  decodeFields (opField w) (aField w) (bField w) (cField w)

/-- Where in a frame a byte stands (R87). -/
inductive BytePosition where
  /-- The first byte after a start or repeated start: an address byte (R84). -/
  | address
  /-- The first data byte of a register access: a register pointer (R85). -/
  | pointer
  deriving DecidableEq, Repr

/-- The wire encodings of R84 and R85. -/
def decodeWireByte : BytePosition → Byte → Except DecodeError Instr
  | .address, b =>
    if b.getLsbD 0 then .ok (.wireAddrRead (b.extractLsb' 1 7)) else .ok (.wireAddrWrite (b.extractLsb' 1 7))
  | .pointer, b =>
    match b.toNat with
    | 0x00 => .ok .regInput
    | 0x01 => .ok .regOutput
    | 0x02 => .ok .regPolinv
    | 0x03 => .ok .regConfig
    | _ => .error (.noRegisterPointer b)

/-- What an instruction is spelt with: a command word, or a byte at its place in a frame. -/
inductive Encoded where
  | command (w : CmdWord)
  | wireByte (p : BytePosition) (b : Byte)
  deriving DecidableEq, Repr

/-- The decoder, total on every word and every byte. -/
def decode : Encoded → Except DecodeError Instr
  | .command w => decodeCommand w
  | .wireByte p b => decodeWireByte p b

/-! ### The encoder -/

/-- The four fields of a command word put together (R80). -/
def packWord (op a b c : Byte) : CmdWord := op ++ a ++ b ++ c

/-- An operand byte holding one bit in bit 0 (format F1). -/
def bitByte (v : Bool) : Byte := if v then 1 else 0

/-- The address byte: "the 7-bit address left-shifted with the ... direction bit appended" (R84); 0 write, 1 read. -/
def addrByte (addr7 : Addr7) (read : Bool) : Byte := (addr7 ++ BitVec.ofBool read : BitVec (7 + 1))

/-- `REG_INPUT` (R85). -/
def REG_INPUT : Byte := 0x00
/-- `REG_OUTPUT` (R85). -/
def REG_OUTPUT : Byte := 0x01
/-- `REG_POLINV` (R85). -/
def REG_POLINV : Byte := 0x02
/-- `REG_CONFIG` (R85). -/
def REG_CONFIG : Byte := 0x03

/-- The spelling of an instruction (R81, R83 to R85). -/
def encode : Instr → Encoded
  | .qdelay => .command (packWord 0x01 0 0 0)
  | .construct => .command (packWord 0x02 0 0 0)
  | .destroy => .command (packWord 0x03 0 0 0)
  | .start => .command (packWord 0x04 0 0 0)
  | .stop => .command (packWord 0x05 0 0 0)
  | .wbit bit => .command (packWord 0x06 0 0 (bitByte bit))
  | .rbit => .command (packWord 0x07 0 0 0)
  | .wbyte byte => .command (packWord 0x08 0 0 byte)
  | .rbyte ack => .command (packWord 0x09 0 0 (bitByte ack))
  | .writebytes addr7 n => .command (packWord 0x10 (addr7.setWidth 8) (BitVec.ofNat 8 n) 0)
  | .readbytes addr7 count => .command (packWord 0x11 (addr7.setWidth 8) (BitVec.ofNat 8 count) 0)
  | .writethenread addr7 wn rcount =>
    .command (packWord 0x12 (addr7.setWidth 8) (BitVec.ofNat 8 wn) (BitVec.ofNat 8 rcount))
  | .readreg addr7 reg => .command (packWord 0x13 (addr7.setWidth 8) reg 0)
  | .writereg addr7 reg value => .command (packWord 0x14 (addr7.setWidth 8) reg value)
  | .xread chip => .command (packWord 0x20 (BitVec.ofNat 8 chip) 0 0)
  | .xwrite chip value => .command (packWord 0x21 (BitVec.ofNat 8 chip) 0 value)
  | .xconfig chip mask => .command (packWord 0x22 (BitVec.ofNat 8 chip) 0 mask)
  | .xsetinv chip mask => .command (packWord 0x23 (BitVec.ofNat 8 chip) 0 mask)
  | .xgetinv chip => .command (packWord 0x24 (BitVec.ofNat 8 chip) 0 0)
  | .pinit => .command (packWord 0x30 0 0 0)
  | .pcheck => .command (packWord 0x31 0 0 0)
  | .pbuttons => .command (packWord 0x32 0 0 0)
  | .pknob => .command (packWord 0x33 0 0 0)
  | .pleds mask5 => .command (packWord 0x34 0 0 (mask5.setWidth 8))
  | .pledtick state5 => .command (packWord 0x35 0 0 (state5.setWidth 8))
  | .wireAddrWrite a => .wireByte .address (addrByte a false)
  | .wireAddrRead a => .wireByte .address (addrByte a true)
  | .regInput => .wireByte .pointer REG_INPUT
  | .regOutput => .wireByte .pointer REG_OUTPUT
  | .regPolinv => .wireByte .pointer REG_POLINV
  | .regConfig => .wireByte .pointer REG_CONFIG

/-! ### The opcode table as the spec prints it (R83) -/

/-- One row of R83: a word `w` spells the command iff `(w & mask) == match`. -/
structure CommandRow where
  name    : String
  pattern : CmdWord
  mask    : CmdWord
  deriving DecidableEq, Repr

/-- Does the word match the row? -/
def CommandRow.matchesWord (r : CommandRow) (w : CmdWord) : Bool := w &&& r.mask == r.pattern

/-- The rows of layer L0 and the L1 primitives. -/
def rowsPrimitives : List CommandRow :=
  [⟨"QDELAY", 0x01000000, 0xFFFFFFFF⟩, ⟨"CONSTRUCT", 0x02000000, 0xFFFFFFFF⟩, ⟨"DESTROY", 0x03000000, 0xFFFFFFFF⟩,
   ⟨"START", 0x04000000, 0xFFFFFFFF⟩, ⟨"STOP", 0x05000000, 0xFFFFFFFF⟩, ⟨"WBIT", 0x06000000, 0xFFFFFFFE⟩,
   ⟨"RBIT", 0x07000000, 0xFFFFFFFF⟩, ⟨"WBYTE", 0x08000000, 0xFFFFFF00⟩, ⟨"RBYTE", 0x09000000, 0xFFFFFFFE⟩]

/-- The rows of the L1 transactions. -/
def rowsTransactions : List CommandRow :=
  [⟨"WRITEBYTES", 0x10000000, 0xFF8000FF⟩, ⟨"READBYTES", 0x11000000, 0xFF8000FF⟩,
   ⟨"WRITETHENREAD", 0x12000000, 0xFF800000⟩, ⟨"READREG", 0x13000000, 0xFF8000FF⟩,
   ⟨"WRITEREG", 0x14000000, 0xFF800000⟩]

/-- The rows of layer L2. -/
def rowsExpander : List CommandRow :=
  [⟨"XREAD", 0x20000000, 0xFF00FFFF⟩, ⟨"XWRITE", 0x21000000, 0xFF00FF00⟩, ⟨"XCONFIG", 0x22000000, 0xFF00FF00⟩,
   ⟨"XSETINV", 0x23000000, 0xFF00FF00⟩, ⟨"XGETINV", 0x24000000, 0xFF00FFFF⟩]

/-- The rows of layer L3. -/
def rowsPanel : List CommandRow :=
  [⟨"PINIT", 0x30000000, 0xFFFFFFFF⟩, ⟨"PCHECK", 0x31000000, 0xFFFFFFFF⟩, ⟨"PBUTTONS", 0x32000000, 0xFFFFFFFF⟩,
   ⟨"PKNOB", 0x33000000, 0xFFFFFFFF⟩, ⟨"PLEDS", 0x34000000, 0xFFFFFFE0⟩, ⟨"PLEDTICK", 0x35000000, 0xFFFFFFE0⟩]

/-- The 25 rows of R83. -/
def commandTable : List CommandRow := rowsPrimitives ++ rowsTransactions ++ rowsExpander ++ rowsPanel

/-- The row name of an instruction, as spec/opcode_table.json spells it. -/
def Instr.mnemonic : Instr → String
  | .qdelay => "QDELAY" | .construct => "CONSTRUCT" | .destroy => "DESTROY" | .start => "START" | .stop => "STOP"
  | .wbit _ => "WBIT" | .rbit => "RBIT" | .wbyte _ => "WBYTE" | .rbyte _ => "RBYTE"
  | .writebytes _ _ => "WRITEBYTES" | .readbytes _ _ => "READBYTES" | .writethenread _ _ _ => "WRITETHENREAD"
  | .readreg _ _ => "READREG" | .writereg _ _ _ => "WRITEREG"
  | .xread _ => "XREAD" | .xwrite _ _ => "XWRITE" | .xconfig _ _ => "XCONFIG" | .xsetinv _ _ => "XSETINV"
  | .xgetinv _ => "XGETINV"
  | .pinit => "PINIT" | .pcheck => "PCHECK" | .pbuttons => "PBUTTONS" | .pknob => "PKNOB" | .pleds _ => "PLEDS"
  | .pledtick _ => "PLEDTICK"
  | .wireAddrWrite _ => "WIRE_ADDR_WRITE" | .wireAddrRead _ => "WIRE_ADDR_READ" | .regInput => "REG_INPUT"
  | .regOutput => "REG_OUTPUT" | .regPolinv => "REG_POLINV" | .regConfig => "REG_CONFIG"

/-! ### The host's numbering of the table's rows -/

/-- The place of a byte that stands alone. DESIGN CHOICE (log entry 8): the four values of R85 are read as register
pointers (their rows fix all eight bits), every other value as an address byte (those rows fix one bit). -/
def lonePosition (b : Byte) : BytePosition := if b.toNat < 4 then .pointer else .address

/-- What a row's bits spell: 32 bits are a command word, 8 bits a wire byte. -/
def tableEncoded (nbits w : Nat) : Option Encoded :=
  if nbits = 32 then some (.command (BitVec.ofNat 32 w))
  else if nbits = 8 then some (.wireByte (lonePosition (BitVec.ofNat 8 w)) (BitVec.ofNat 8 w))
  else none

/-- The instruction the decoder reads from an instruction whose bits are `w`, numbered as the table numbers them. -/
def decodeTableWord (nbits w : Nat) : Option Instr :=
  match tableEncoded nbits w with
  | some e => (decode e).toOption
  | none => none

end Sys2Proof
end

