-- ==== Sys2Proof/Machine/State.lean ====
section
/-! DEFINITION. What the machine holds (10_state.md), what its environment holds (20_memory.md R60, R61) and how a step
can stop. Plain data throughout. -/

namespace Sys2Proof.Machine

/-- The mode of a line (R26): INPUT, "a neutral/input mode", or OD_OUT, "open-drain output". -/
inductive LineMode where
  | input
  | odOut
  deriving DecidableEq, Repr

/-- A buffer's bytes by index (20_memory.md R51), indices strictly rising; an index not listed is unwritten (R30). -/
abbrev Memory := List Host.Cell

/-- The codes of the error latch (60_exceptions.md R241). -/
inductive ErrCode where
  | illegalCmd
  | notOwned
  | alreadyOwned
  | badAddr
  | badCount
  deriving DecidableEq, Repr

/-- What a `Q()` is checked for at its end (60_exceptions.md R243): cause (a) at every one, cause (b) at the second of
`start()`, cause (c) at the third of `stop()`. -/
inductive QuarterCheck where
  | plain
  | startSecond
  | stopThird
  deriving DecidableEq, Repr

/-- One executed micro-operation (00_scope.md R15), as a bus monitor records it. -/
inductive BusEvent where
  /-- `SCL <- v`. -/
  | setScl (v : Bool)
  /-- `SDA <- v`. -/
  | setSda (v : Bool)
  /-- `SCL_mode <- m`. -/
  | setSclMode (m : LineMode)
  /-- `SDA_mode <- m`. -/
  | setSdaMode (m : LineMode)
  /-- `Q()`: the drive latches during it and the wire levels at its end. -/
  | quarter (sclOut sdaOut sclLine sdaLine : Bool)
  /-- `v <- SDA?` with the value sampled. -/
  | sample (v : Bool)
  deriving DecidableEq, Repr

/-- The sequencer position `upc` (R23): `IDLE`, or the position in the command in progress, counted in
micro-operations from its first. -/
inductive Upc where
  | idle
  | at (i : Instr) (position : Nat)
  deriving DecidableEq, Repr

/-- Where a reference expander stands in a transfer (20_memory.md R61). -/
inductive ChipPhase where
  /-- Not addressed: waiting for a start condition. -/
  | idle
  /-- Receiving the address byte. -/
  | address
  /-- Addressed for a write, receiving the first data byte. -/
  | pointer
  /-- Addressed for a write, receiving a further byte. -/
  | data
  /-- Addressed for a read, sending the register `ptr` selects. -/
  | sending
  deriving DecidableEq, Repr

/-- A reference expander (R61): an informative slave, part of the environment. -/
structure Chip where
  addr : Addr7
  /-- The Output register. -/
  out : Byte
  /-- The Polarity-Invert register. -/
  inv : Byte
  /-- The Configuration register. -/
  cfg : Byte
  /-- The register pointer. -/
  ptr : BitVec 2
  /-- The external levels of the pins. -/
  ext : Byte
  powered : Bool
  phase : ChipPhase
  /-- Clock pulses begun in the byte in progress, 0..9. -/
  clocks : Nat
  /-- The bits received so far, or the byte being sent. -/
  shift : Byte
  /-- After a byte sent: did the master acknowledge? -/
  more : Bool
  /-- Does the chip pull the data line low? -/
  pull : Bool
  /-- The clock line as the chip last saw it. -/
  seenScl : Bool
  /-- The data line as the chip last saw it. -/
  seenSda : Bool
  deriving DecidableEq, Repr

/-- What the host, the platform and the environment do between two commands (00_scope.md R11, R12), and the one thing
that can land inside a command, a reset. -/
inductive Input where
  /-- The host writes `CMD` (R21). -/
  | writeCmd (w : CmdWord)
  /-- The host writes a byte of `TXBUF` (R30). -/
  | writeTxbuf (index : Byte) (v : Byte)
  /-- The host writes `STATUS`: "A host write is ignored" (R25). -/
  | writeStatus (v : Byte)
  /-- The host reads `RES` (R22). -/
  | readRes
  /-- The host reads `STATUS` (R25). -/
  | readStatus
  /-- The host reads a byte of `RXBUF` (R30). -/
  | readRxbuf (index : Byte)
  /-- Reset (70_reset_and_hazards.md R270, R271). -/
  | reset
  /-- The host writes `CMD` and reset arrives after the command's k-th micro-operation, or after the command where it
  has fewer (R271, U19). -/
  | writeCmdThenReset (w : CmdWord) (k : Nat)
  /-- The sequencer sends one byte at its place in a frame: not a host move; it lets the wire rows of the opcode table
  be run on their own (log entry 8). -/
  | sendByte (p : BytePosition) (b : Byte)
  /-- The environment acts in the gap between two commands (U17). -/
  | environment (a : EnvAct)
  deriving DecidableEq, Repr

/-- Everything the machine and its environment hold. -/
structure State where
  /-- `CMD` (R21): the word of the command in progress; `none` between commands. -/
  cmd : Option CmdWord
  /-- `RES` (R22). -/
  res : BitVec 16
  /-- `upc` (R23). -/
  upc : Upc
  /-- `ACKF` (R24): the last byte written was acknowledged. -/
  ackf : Bool
  /-- `SCL_out` (R26). -/
  sclOut : Bool
  /-- `SDA_out` (R26). -/
  sdaOut : Bool
  /-- `SCL_mode` (R26). -/
  sclMode : LineMode
  /-- `SDA_mode` (R26). -/
  sdaMode : LineMode
  /-- `WAS_ALIVE` (R28). -/
  wasAlive : Bool
  /-- `ERR` (R29). -/
  err : BitVec 4
  /-- `TXBUF` (R30). -/
  txbuf : Memory
  /-- `RXBUF` (R30). -/
  rxbuf : Memory
  /-- `PWM_CNT` (R31). -/
  pwmCnt : Nat
  /-- `hung` (R34): the model-only record of BUS_HANG. -/
  hung : Bool
  /-- Environment: what the other devices contribute to the clock line now (R114). -/
  envScl : Bool
  /-- Environment: what the other devices contribute to the data line now (R114). -/
  envSda : Bool
  /-- Environment: their contributions at the coming `Q()`s and samples, in order; free values follow (log entry 2). -/
  envScript : List Levels
  /-- The model's own: how many `Q()`s and samples have observed the environment. -/
  envDraws : Nat
  /-- Environment: what it does before each coming micro-operation, in order; free values follow (R11; log entry 13). -/
  envActs : List (List EnvAct)
  /-- The model's own: before how many micro-operations the environment has had its turn. -/
  envTurns : Nat
  /-- Environment: the reference expanders on the lines (R61; log entry 3). -/
  chips : List Chip
  /-- What the world outside does next, in order (log entry 4). -/
  inputs : List Input
  /-- The model's own: what the host's last read returned (log entry 4). -/
  hostData : BitVec 16
  /-- The model's own: the micro-operations executed, newest first (log entry 6). -/
  trace : List BusEvent
  /-- The model's own: micro-operations left before a reset cuts the command off; `none` is no limit (log entry 7). -/
  budget : Option Nat
  deriving DecidableEq, Repr

/-- Why the machine has no next step. -/
inductive Fault where
  /-- Raised by `step` and `exec` in a state whose `hung` is 1: after BUS_HANG "the sequencer executes no further
  micro-operation, ever" (R243). Safe: nothing happens afterwards on the hardware's reading either, but reset. -/
  | busHang
  /-- Raised by `step` and `exec` when the host moves while `BUSY` = 1, which "has no meaning from this spec" (R12; U10
  "stuck"). Safe: the spec gives the move no transition. -/
  | hostMoveWhileBusy
  deriving DecidableEq, Repr

/-- Why an instruction has no meaning. -/
inductive Refusal where
  /-- Raised by `exec` for an instruction the model gives no meaning to. Safe. No arm raises it. -/
  | notModelled (mnemonic : String)
  deriving DecidableEq, Repr

/-- The machine right after reset (10_state.md R35), with nothing attached to the lines and nothing to do. The fields
R35 does not name are the environment's and the model's own (log entries 2 to 7 and 13). -/
def State.reset : State :=
  { cmd := none
    res := 0
    upc := .idle
    ackf := false
    sclOut := true
    sdaOut := true
    sclMode := .input
    sdaMode := .input
    wasAlive := false
    err := 0
    txbuf := []
    rxbuf := []
    pwmCnt := 0
    hung := false
    envScl := true
    envSda := true
    envScript := []
    envDraws := 0
    envActs := []
    envTurns := 0
    chips := []
    inputs := []
    hostData := 0
    trace := []
    budget := none }

end Sys2Proof.Machine
end

