-- ==== Sys2Proof/Machine/Chip.lean ====
section
/-! DEFINITION. The reference expander (20_memory.md R61, R63): an informative slave, "from general knowledge, not in
source", part of the bus environment. It sees the two wire levels and answers by pulling the data line low or
not; it never touches the clock. -/

namespace Sys2Proof.Machine

/-- The level of the pins: `p[n] = (CFG[n] == 0) ? OUT[n] : ext[n]` (R61). -/
def Chip.pins (c : Chip) : Byte := (c.out &&& ~~~c.cfg) ||| (c.ext &&& c.cfg)

/-- What a read of the register `ptr` selects sends (R61): pointer 0 sends `p ^ INV`. -/
def Chip.selected (c : Chip) : Byte :=
  match c.ptr.toNat with
  | 0 => c.pins ^^^ c.inv
  | 1 => c.out
  | 2 => c.inv
  | _ => c.cfg

/-- What a byte written to the register `ptr` selects does (R61): "a write to pointer 0 is acknowledged and
ignored". -/
def Chip.store (c : Chip) (v : Byte) : Chip :=
  match c.ptr.toNat with
  | 0 => c
  | 1 => { c with out := v }
  | 2 => { c with inv := v }
  | _ => { c with cfg := v }

/-- Begin sending the selected register, bit 7 first. -/
def Chip.beginSend (c : Chip) : Chip :=
  { c with phase := .sending, clocks := 0, shift := c.selected, pull := !c.selected.getLsbD 7 }

/-- The clock rises: a receiver takes the data level, a sender counts the pulse and takes the master's answer in the
ninth. That it does so at the rise is the model's choice (log entry 12). -/
def Chip.clockRise (c : Chip) (sda : Bool) : Chip :=
  match c.phase with
  | .idle => c
  | .sending => if c.clocks < 8 then { c with clocks := c.clocks + 1 } else { c with clocks := 9, more := !sda }
  | .address | .pointer | .data =>
    if c.clocks < 8 then { c with clocks := c.clocks + 1, shift := c.shift <<< 1 ||| (BitVec.ofBool sda).setWidth 8 }
    else { c with clocks := 9 }

/-- The clock falls: after the eighth pulse a receiver acknowledges, after the ninth it lets go and goes on; a sender
presents its next bit ("changing data only while the clock is low"). R61 says that a received byte sets `ptr` or is written
and is acknowledged, and not when: that the chip takes it at the eighth fall, as it begins to acknowledge and before the ninth
pulse, is the model's choice (log entry 12), and so is that it turns to the next byte at the ninth fall. -/
def Chip.clockFall (c : Chip) : Chip :=
  match c.phase with
  | .idle => c
  | .address =>
    if c.clocks = 8 then (if c.shift.extractLsb' 1 7 = c.addr then { c with pull := true } else { c with phase := .idle })
    else if c.clocks = 9 then
      (if c.shift.getLsbD 0 then c.beginSend else { c with phase := .pointer, clocks := 0, shift := 0, pull := false })
    else c
  | .pointer =>
    if c.clocks = 8 then { c with ptr := c.shift.extractLsb' 0 2, pull := true }
    else if c.clocks = 9 then { c with phase := .data, clocks := 0, shift := 0, pull := false }
    else c
  | .data =>
    if c.clocks = 8 then { c.store c.shift with pull := true }
    else if c.clocks = 9 then { c with clocks := 0, shift := 0, pull := false }
    else c
  | .sending =>
    if c.clocks = 9 then (if c.more then c.beginSend else { c with phase := .idle, pull := false })
    else if c.clocks = 8 then { c with pull := false }
    else { c with pull := !c.shift.getLsbD (7 - c.clocks) }

/-- What the chip does on seeing the two wire levels (R61): a data edge with the clock high is a start or a stop
condition, a clock edge moves the transfer on. A chip without power does nothing (R62). -/
def Chip.observe (scl sda : Bool) (c : Chip) : Chip :=
  let reacted : Chip :=
    if !c.powered then { c with pull := false }
    else if c.seenScl && scl then
      (if c.seenSda && !sda then { c with phase := .address, clocks := 0, shift := 0, pull := false }
       else if !c.seenSda && sda then { c with phase := .idle, pull := false }
       else c)
    else if !c.seenScl && scl then c.clockRise sda
    else if c.seenScl && !scl then c.clockFall
    else c
  { reacted with seenScl := scl, seenSda := sda }

/-- A chip after it regains power (R63): `OUT` = 0xFF, `INV` = 0x00, `CFG` = 0xFF, `ptr` = 0, no transfer. -/
def Chip.powerOn (c : Chip) : Chip :=
  { c with out := 0xFF, inv := 0x00, cfg := 0xFF, ptr := 0, powered := true, phase := .idle, clocks := 0, shift := 0,
           more := false, pull := false }

/-- A chip that loses power is absent (R62): it drives nothing. -/
def Chip.powerOff (c : Chip) : Chip := { c with powered := false, phase := .idle, pull := false }

/-- A chip at `addr` with power-on values, its pins at `ext`, on an idle bus. -/
def Chip.fresh (addr : Addr7) (ext : Byte) : Chip :=
  { addr := addr, out := 0xFF, inv := 0x00, cfg := 0xFF, ptr := 0, ext := ext, powered := true, phase := .idle
    clocks := 0, shift := 0, more := false, pull := false, seenScl := true, seenSda := true }

end Sys2Proof.Machine
end

