-- ==== Sys2Proof/Machine/Flags.lean ====
section
/-! DEFINITION. The one flag, `ACKF`, and the derived bits: `owned` (10_state.md R27), `BUSY` and the `STATUS` view (R25),
and the codes of `ERR` (60_exceptions.md R241). -/

namespace Sys2Proof.Machine

/-- `owned = (SCL_mode == OD_OUT) and (SDA_mode == OD_OUT)` (R27). -/
def State.owned (s : State) : Bool := s.sclMode == .odOut && s.sdaMode == .odOut

/-- `BUSY`: 1 while a command is in progress, `upc` ≠ `IDLE` (R25). -/
def State.busy (s : State) : Bool := s.upc != .idle

/-- `ACKF <- (a == 0)` of an acknowledge sample (41_i2c_primitives.md R138): a low data line is "acknowledged". -/
def ackFlag (a : Bool) : Bool := !a

/-- The value of an error code in `ERR` (R241). -/
def ErrCode.code : ErrCode → BitVec 4
  | .illegalCmd => 1
  | .notOwned => 2
  | .alreadyOwned => 3
  | .badAddr => 4
  | .badCount => 5

/-- `STATUS` (R25): `ERR` in bits 7:4, `WAS_ALIVE` 3, `ACKF` 2, `OWNED` 1, `BUSY` 0. -/
def State.status (s : State) : Byte :=
  (s.err ++ BitVec.ofBool s.wasAlive ++ BitVec.ofBool s.ackf ++ BitVec.ofBool s.owned ++ BitVec.ofBool s.busy :
    BitVec (4 + 1 + 1 + 1 + 1))

/-- The next position of the sequencer (R23: "advances by one micro-operation"). -/
def Upc.advance : Upc → Upc
  | .idle => .idle
  | .at i position => .at i (position + 1)

end Sys2Proof.Machine
end

