-- ==== Sys2Proof/Machine/Ops.lean ====
section
/-! DEFINITION. The operations every meaning is built from: the buffers, the wires, the environment, the six
micro-operations of 00_scope.md R15, the bus-hang fault and the refusal of 60_exceptions.md, the frame of a command (R249)
and reset. -/

namespace Sys2Proof.Machine

/-! ### The byte buffers (20_memory.md R51) -/

/-- The byte listed at an index; `none` is an unwritten byte (10_state.md R30). -/
def readCell : Memory → Nat → Option Byte
  | [], _ => none
  | (a', v') :: m, a => if a' = a then some v' else readCell m a

/-- The buffer with a byte listed at its place. -/
def insertCell : Memory → Nat → Byte → Memory
  | [], a, v => [(a, v)]
  | (a', v') :: m, a, v =>
    if a < a' then (a, v) :: (a', v') :: m else if a = a' then (a, v) :: m else (a', v') :: insertCell m a v

/-- A write of one byte. The buffers have 256 bytes (R30), so an index beyond them names no byte. -/
def writeCell (m : Memory) (a : Nat) (v : Byte) : Memory := if a < bufferSize then insertCell m a v else m

/-- Writes bytes at successive indices from `a` on. -/
def writeCells : Memory → Nat → List Byte → Memory
  | m, _, [] => m
  | m, a, v :: vs => writeCells (writeCell m a v) (a + 1) vs

/-- Indices rise strictly from `lo` on and lie inside the buffer. -/
def risingFrom : Nat → Memory → Bool
  | _, [] => true
  | lo, (a, _) :: m => decide (lo ≤ a) && decide (a < bufferSize) && risingFrom (a + 1) m

/-- The canonical form of a buffer. An unlisted index reads as `none`, which no entry equals. -/
def Memory.wf (m : Memory) : Bool := risingFrom 0 m

/-- The payload byte at a `TXBUF` index; a free value where the host wrote none (U9). -/
def State.txByte (s : State) (index : Nat) : Byte := (readCell s.txbuf index).getD (Config.unwrittenTx s.envDraws index)

/-- What the host reads at an `RXBUF` index; a free value where no command wrote one (U9). -/
def State.rxByte (s : State) (index : Nat) : Byte := (readCell s.rxbuf index).getD (Config.unwrittenRx s.envDraws index)

/-! ### The wires (40_line_control.md R114) -/

/-- `master_X`: the latch in OD_OUT, 1 in INPUT. -/
def lineContribution (mode : LineMode) (latch : Bool) : Bool :=
  match mode with
  | .odOut => latch
  | .input => true

/-- The level of the clock line: this block's contribution and the other devices'. The chips never drive it (R61). -/
def State.sclLine (s : State) : Bool := lineContribution s.sclMode s.sclOut && s.envScl

/-- The level of the data line, `SDA_in`: low if anyone holds it low, else the pull-up's 1. -/
def State.sdaLine (s : State) : Bool :=
  lineContribution s.sdaMode s.sdaOut && s.envSda && s.chips.all (fun c => !c.pull)

/-! ### The environment -/

/-- Let the chips see the wires as they now are. -/
def settle (s : State) : State := { s with chips := s.chips.map (Chip.observe s.sclLine s.sdaLine) }

/-- Applies a change to every chip at an address. -/
def changeChips (addr : Addr7) (change : Chip → Chip) (s : State) : State :=
  { s with chips := s.chips.map fun c => if c.addr = addr then change c else c }

/-- The environment does one thing (R11, R61 to R63), and the chips see what becomes of the wires. -/
def environmentAct (a : EnvAct) (s : State) : State :=
  settle <| match a with
    | .otherDevices l => { s with envScl := l.scl, envSda := l.sda }
    | .chipPower addr on => changeChips addr (if on then Chip.powerOn else Chip.powerOff) s
    | .chipPins addr ext => changeChips addr (fun c => { c with ext := ext }) s

/-- What the environment does before the next micro-operation: the head of the list, or a free value (R11). -/
def State.nextActs (s : State) : List EnvAct :=
  match s.envActs with
  | as :: _ => as
  | [] => Config.freeActs s.envTurns

/-- The environment's turn between two micro-operations (R11, D6): it acts as often as it likes, and touches nothing of
the block. -/
def environmentTurn (s : State) : State :=
  let t := s.nextActs.foldl (fun s a => environmentAct a s) s
  { s with envScl := t.envScl, envSda := t.envSda, chips := t.chips, envActs := s.envActs.tail,
           envTurns := s.envTurns + 1 }

/-- What the other devices contribute at the next observation: the head of the script, or free values (R113). -/
def State.nextLevels (s : State) : Levels :=
  match s.envScript with
  | l :: _ => l
  | [] => ⟨Config.freeScl s.envDraws, Config.freeSda s.envDraws⟩

/-- The environment moves within a `Q()` or just before a sample: what the other devices contribute is what it is at the
end, and the chips see it. -/
def environmentMoves (s : State) : State :=
  settle { s with envScl := s.nextLevels.scl, envSda := s.nextLevels.sda,
                  envScript := s.envScript.tail, envDraws := s.envDraws + 1 }

/-! ### Executing micro-operations -/

/-- Has the sequencer stopped for good, by BUS_HANG (R243) or because a reset has cut the command off (log entry 7)? -/
def State.frozen (s : State) : Bool := s.hung || s.budget == some 0

/-- One micro-operation: nothing if the sequencer has stopped; else the environment has its turn (R11), then comes the
effect, and `upc` moves on (R23) unless the effect was a BUS_HANG, at which "`upc` keeps its value" (R243). -/
def act (effect : State → State) (s : State) : State :=
  if s.frozen then s
  else
    let t := effect (environmentTurn s)
    { t with upc := if t.hung then s.upc else s.upc.advance, budget := s.budget.map (· - 1) }

/-- An assignment that takes no time and is no micro-operation (R15): `ACKF`, `RES`, `RXBUF`, `WAS_ALIVE`, `PWM_CNT`. -/
def note (assign : State → State) (s : State) : State := if s.frozen then s else assign s

/-- The bus monitor writes the micro-operation down. -/
def record (e : BusEvent) (s : State) : State := { s with trace := e :: s.trace }

/-- `SCL <- v` (R111). -/
def setScl (v : Bool) : State → State := act fun s => record (.setScl v) (settle { s with sclOut := v })

/-- `SDA <- v` (R111). -/
def setSda (v : Bool) : State → State := act fun s => record (.setSda v) (settle { s with sdaOut := v })

/-- Do the chips see the edge of the clock line at a mode write on its own? Yes if both latches are 1; with a latch at 0
(only DESTROY comes to a mode write with one) the spec leaves it open and so does the model (R117, R277, U4; log entry 16). -/
def State.clockEdgeSeen (s : State) : Bool := s.sclOut && s.sdaOut || Config.edgesApart s.envTurns

/-- The mode of the clock line is written, and the chips see its edge or not. -/
def writeSclMode (m : LineMode) (s : State) : State :=
  { s with sclMode := m, chips := if s.clockEdgeSeen then (settle { s with sclMode := m }).chips else s.chips }

/-- `SCL_mode <- m` (R112). -/
def setSclMode (m : LineMode) : State → State := act fun s => record (.setSclMode m) (writeSclMode m s)

/-- `SDA_mode <- m` (R112). After it the chips have seen both lines as they are. -/
def setSdaMode (m : LineMode) : State → State := act fun s => record (.setSdaMode m) (settle { s with sdaMode := m })

/-- `raise BUS_HANG` (R243): `hung <- 1`; everything else keeps its value. -/
def raiseBusHang (s : State) : State := { s with hung := true }

/-- The cause of a BUS_HANG at the end of a `Q()` (R243): while `owned`, (a) the clock released and low, or at the
second `Q()` of `start()` (b) and the third of `stop()` (c) the data line low. -/
def busHangs (check : QuarterCheck) (s : State) : Bool :=
  s.owned && (s.sclOut && !s.sclLine || check != .plain && !s.sdaLine)

/-- `Q()` (R110): only the environment moves, in its turn and within the delay; at its end the BUS_HANG condition is evaluated. -/
def quarter (check : QuarterCheck) : State → State :=
  act fun s =>
    let t := environmentMoves s
    let t := record (.quarter t.sclOut t.sdaOut t.sclLine t.sdaLine) t
    if busHangs check t then raiseBusHang t else t

/-- `v <- SDA?` (R113): the wire level is taken, after whatever the environment has done since the last micro-operation
(R11). -/
def sampleSda (s : State) : Bool × State :=
  let t := act (fun s => let t := environmentMoves s; record (.sample t.sdaLine) t) s
  (t.sdaLine, t)

/-! ### The frame of a command -/

/-- The command starts: `BUSY <- 1`, `upc` at its first micro-operation (R21, R23). -/
def beginCommand (i : Instr) (s : State) : State := { s with upc := .at i 0 }

/-- `BUSY <- 0`; `CMD` holds no word between commands (R21). -/
def becomeIdle (s : State) : State := { s with upc := .idle, cmd := none }

/-- The command is over (70_reset_and_hazards.md R274) unless the sequencer stopped inside it. -/
def endCommand (s : State) : State := if s.frozen then s else becomeIdle s

/-- A refusal (R241): nothing is written but `ERR`, where the first error wins, and the command completes at once. -/
def refuse (code : ErrCode) (s : State) : State := becomeIdle { s with err := if s.err = 0 then code.code else s.err }

/-- A command (R249): the sticky error latch first, then ownership, then operands; then its micro-operations. Decoding,
the second check, stands before the command is known (`step`). -/
def runCommand (i : Instr) (ownership operands : Option ErrCode) (body : State → State) (s : State) :
    Host.Outcome State Fault Refusal :=
  if s.hung then .fault .busHang
  else if s.busy then .fault .hostMoveWhileBusy
  else if s.err ≠ 0 then .next (becomeIdle s)
  else
    match ownership, operands with
    | some code, _ => .next (refuse code s)
    | none, some code => .next (refuse code s)
    | none, none => .next (endCommand (body (beginCommand i s)))

/-! ### Reset -/

/-- Reset (10_state.md R35, 70_reset_and_hazards.md R270, R271): every piece of the block's state at its reset value; the
lines go to INPUT at once, which the chips see as one change of both lines (U19 leaves what a slave makes of it open; log entry
16); the environment and the record of the past are not touched. -/
def blockReset (s : State) : State :=
  settle { State.reset with
    envScl := s.envScl, envSda := s.envSda, envScript := s.envScript, envDraws := s.envDraws, envActs := s.envActs,
    envTurns := s.envTurns, chips := s.chips, inputs := s.inputs, hostData := s.hostData, trace := s.trace }

end Sys2Proof.Machine
end

