-- ==== Sys2Proof/Machine/Operands.lean ====
section
/-! DEFINITION. Operand assembly and operand checks (00_scope.md R17, 30_encoding.md R82, 60_exceptions.md R245 to R248), and
the pin map of the panel (44_panel.md R200) with every value that follows from it. -/

namespace Sys2Proof.Machine

/-! ### Ownership (60_exceptions.md R245, R246) -/

/-- A command that uses the lines is refused when they are not owned (R245). -/
def needsOwned (s : State) : Option ErrCode := if s.owned then none else some .notOwned

/-- A command that constructs a master is refused when one exists (R246). -/
def needsFree (s : State) : Option ErrCode := if s.owned then some .alreadyOwned else none

/-! ### Addresses and counts -/

/-- `EXP_BASE + chip`, "computed without wrap in unbounded integers" (R17). -/
def deviceSum (P : Params) (chip : Nat) : Nat := P.expBase + chip

/-- A sum above 0x7F is refused, never truncated (R247). -/
def checkAddr (P : Params) (chip : Nat) : Option ErrCode := if 0x7F < deviceSum P chip then some .badAddr else none

/-- `dev(chip)`, the 7-bit address, where the sum is one (20_memory.md R64). -/
def deviceAddr (P : Params) (chip : Nat) : Addr7 := BitVec.ofNat 7 (deviceSum P chip)

/-- A read count of 0 is refused (R248). -/
def checkCount (count : Nat) : Option ErrCode := if count = 0 then some .badCount else none

/-- `TXBUF[0 .. n-1]`, the payload as it stands when `CMD` is written (20_memory.md R68). -/
def txPayload (s : State) (n : Nat) : List Byte := (List.range n).map s.txByte

/-! ### Bytes and bits -/

/-- `v[7], v[6], ..., v[0]`: the order in which bits cross the data line (20_memory.md R52). -/
def bitsMsbFirst (v : Byte) : List Bool := [7, 6, 5, 4, 3, 2, 1, 0].map v.getLsbD

/-- A byte with one more bit taken in at the low end: eight of these put the first bit read at bit 7 (R140). -/
def shiftIn (v : Byte) (b : Bool) : Byte := v <<< 1 ||| (BitVec.ofBool b).setWidth 8

/-! ### The pin map of the panel (44_panel.md R200): the one table the masks are derived from (R201) -/

/-- What a pin of an expander chip of the panel is wired to. -/
inductive PinRole where
  | knob (bit : Nat)
  | button (n : Nat)
  | led (n : Nat)
  | unused
  deriving DecidableEq, Repr

/-- The pin map, by chip and bit. -/
def pinRole (chip bit : Nat) : PinRole :=
  match chip, bit with
  | 0, 0 => .knob 0 | 0, 1 => .knob 1 | 0, 2 => .knob 2 | 0, 3 => .knob 3
  | 0, 4 => .led 1 | 0, 5 => .button 1 | 0, 6 => .button 2 | 0, 7 => .led 2
  | 1, 0 => .knob 4 | 1, 1 => .knob 5 | 1, 2 => .knob 6 | 1, 3 => .knob 7
  | 1, 4 => .knob 8 | 1, 5 => .knob 9 | 1, 6 => .knob 10 | 1, 7 => .knob 11
  | 2, 0 => .button 3 | 2, 1 => .led 3 | 2, 2 => .led 4 | 2, 3 => .button 4
  | 2, 6 => .button 5 | 2, 7 => .led 5
  | _, _ => .unused

/-- The byte whose bit n is `f n`. -/
def byteOfBits (f : Nat → Bool) : Byte := BitVec.ofNat 8 ((List.range 8).foldl (fun acc n => acc + (f n).toNat * 2 ^ n) 0)

/-- Is the pin an LED output? -/
def PinRole.isLed : PinRole → Bool
  | .led _ => true
  | _ => false

/-- The direction mask `init()` writes: LED bits outputs (0), every other bit an input (1) (R201, D18). -/
def configMask (chip : Nat) : Byte := byteOfBits fun n => !(pinRole chip n).isLed

/-- `led_regs` (R222): the Output value of a chip, LED k on its pin at mask bit k - 1, every other bit 0. -/
def ledOutput (chip : Nat) (m : Mask5) : Byte :=
  byteOfBits fun n =>
    match pinRole chip n with
    | .led k => m.getLsbD (k - 1)
    | _ => false

/-- The 5-bit button value (R214): `i2[6] ++ i2[3] ++ i2[0] ++ i0[6] ++ i0[5]`. -/
def packButtons (i0 i2 : Byte) : Mask5 :=
  (BitVec.ofBool (i2.getLsbD 6) ++ BitVec.ofBool (i2.getLsbD 3) ++ BitVec.ofBool (i2.getLsbD 0) ++
    BitVec.ofBool (i0.getLsbD 6) ++ BitVec.ofBool (i0.getLsbD 5) : BitVec (1 + 1 + 1 + 1 + 1))

/-- The 12-bit knob value (R218): `i1[7:0] ++ i0[3:0]`. -/
def packKnob (i0 i1 : Byte) : BitVec 12 := (i1 ++ i0.extractLsb' 0 4 : BitVec (8 + 4))

/-- The LED mask of one PLEDTICK (R226): every LED below the base threshold, the logical state below the pressed
one. -/
def tickMask (P : Params) (cnt : Nat) (state5 : Mask5) : Mask5 :=
  (if cnt < P.pwmBaseThresh then 0b11111 else 0) ||| (if cnt < P.pwmPressedThresh then state5 else 0)

end Sys2Proof.Machine
end

