-- ==== Sys2Proof/Machine/LineControl.lean ====
section
/-! DEFINITION. Layer L0 (40_line_control.md): QDELAY, CONSTRUCT, DESTROY and the procedures `construct()` and `destroy()`. -/

namespace Sys2Proof.Machine

/-- `construct()` (R116, R119): latches before modes, clock before data, no `Q()`. -/
def construct (s : State) : State :=
  s |> setScl true
    |> setSda true
    |> setSclMode .odOut
    |> setSdaMode .odOut

/-- `destroy()` (R117, R119): the modes only; the latches keep their values. With a latch at 0 (R277 forbids the host
that) whether a slave sees a stop condition is open (U4): for a listed chip it is the free value of `State.clockEdgeSeen`
(log entry 16); the other devices do as they like. -/
def destroy (s : State) : State :=
  s |> setSclMode .input
    |> setSdaMode .input

/-- QDELAY (R115): one `Q()`; needs no ownership. -/
def execQdelay (s : State) : Host.Outcome State Fault Refusal :=
  runCommand .qdelay none none (quarter .plain) s

/-- CONSTRUCT (R116). -/
def execConstruct (s : State) : Host.Outcome State Fault Refusal :=
  runCommand .construct (needsFree s) none construct s

/-- DESTROY (R117). -/
def execDestroy (s : State) : Host.Outcome State Fault Refusal :=
  runCommand .destroy (needsOwned s) none destroy s

end Sys2Proof.Machine
end

