-- ==== Sys2Proof/Machine/Primitives.lean ====
section
/-! DEFINITION. Layer L1, part 1 (41_i2c_primitives.md): the start and stop conditions, bits and bytes with their
acknowledgements, and the six commands that wrap them. Each procedure is the spec's pseudocode line by line. -/

namespace Sys2Proof.Machine

/-- `start()` (R131), which is the repeated start too. -/
def start (s : State) : State :=
  s |> setSda true  |> quarter .plain
    |> setScl true  |> quarter .startSecond
    |> setSda false |> quarter .plain
    |> setScl false |> quarter .plain

/-- `stop()` (R132). -/
def stop (s : State) : State :=
  s |> setSda false |> quarter .plain
    |> setScl true  |> quarter .plain
    |> setSda true  |> quarter .stopThird

/-- `wbit(b)` (R134). -/
def wbit (b : Bool) (s : State) : State :=
  s |> setSda b     |> quarter .plain
    |> setScl true  |> quarter .plain
    |> setScl false |> quarter .plain
    |> quarter .plain

/-- `rbit()` (R136): the sample is the last thing done while the clock is high. -/
def rbit (s : State) : Bool × State :=
  let r := sampleSda (s |> setSda true |> quarter .plain |> setScl true |> quarter .plain |> quarter .plain)
  (r.1, r.2 |> setScl false |> quarter .plain)

/-- Writes bits one after the other. -/
def wbits : List Bool → State → State
  | [], s => s
  | b :: bs, s => wbits bs (wbit b s)

/-- `ACKF <- (a == 0)` (R138). -/
def setAckf (a : Bool) : State → State := note fun s => { s with ackf := ackFlag a }

/-- `wbyte(v)` (R138): eight bits, most significant first, then the acknowledge sample, which changes nothing but `ACKF`. -/
def wbyte (v : Byte) (s : State) : State :=
  let r := rbit (wbits (bitsMsbFirst v) s)
  setAckf r.1 r.2

/-- Reads `n` bits, the first into the highest place. -/
def rbits : Nat → Byte → State → Byte × State
  | 0, v, s => (v, s)
  | n + 1, v, s =>
    let r := rbit s
    rbits n (shiftIn v r.1) r.2

/-- `rbyte(ack)` (R140): eight bits, then the master's bit, 0 to acknowledge and 1 not to. -/
def rbyte (ack : Bool) (s : State) : Byte × State :=
  let r := rbits 8 0 s
  (r.1, wbit (!ack) r.2)

/-- `RES <- v` (10_state.md R22). -/
def setRes (v : BitVec 16) : State → State := note fun s => { s with res := v }

/-- START (R131). -/
def execStart (s : State) : Host.Outcome State Fault Refusal :=
  runCommand .start (needsOwned s) none start s

/-- STOP (R133). -/
def execStop (s : State) : Host.Outcome State Fault Refusal :=
  runCommand .stop (needsOwned s) none stop s

/-- WBIT (R135). -/
def execWbit (bit : Bool) (s : State) : Host.Outcome State Fault Refusal :=
  runCommand (.wbit bit) (needsOwned s) none (wbit bit) s

/-- RBIT (R137): `RES <- zext_16(rbit())`. -/
def execRbit (s : State) : Host.Outcome State Fault Refusal :=
  runCommand .rbit (needsOwned s) none
    (fun s =>
      let r := rbit s
      setRes ((BitVec.ofBool r.1).setWidth 16) r.2) s

/-- WBYTE (R139). -/
def execWbyte (byte : Byte) (s : State) : Host.Outcome State Fault Refusal :=
  runCommand (.wbyte byte) (needsOwned s) none (wbyte byte) s

/-- RBYTE (R141): `RES <- zext_16(rbyte(ack))`. -/
def execRbyte (ack : Bool) (s : State) : Host.Outcome State Fault Refusal :=
  runCommand (.rbyte ack) (needsOwned s) none
    (fun s =>
      let r := rbyte ack s
      setRes (r.1.setWidth 16) r.2) s

end Sys2Proof.Machine
end

