-- ==== Sys2Proof/Machine/Transactions.lean ====
section
/-! DEFINITION. Layer L1, part 2 (42_i2c_transactions.md): whole transactions, each from a start condition to a stop
condition. Acknowledgements are sampled and discarded (R161). -/

namespace Sys2Proof.Machine

/-- Writes bytes one after the other; every acknowledgement goes to `ACKF` and nowhere else (R161). -/
def wbytes : List Byte → State → State
  | [], s => s
  | v :: vs, s => wbytes vs (wbyte v s)

/-- Reads `count` bytes, acknowledging every one but the last (R163). -/
def rbytes : Nat → State → List Byte × State
  | 0, s => ([], s)
  | n + 1, s =>
    let r := rbyte (n != 0) s
    let rest := rbytes n r.2
    (r.1 :: rest.1, rest.2)

/-- `write_bytes(addr7, bytes)` (R162). -/
def writeBytes (addr7 : Addr7) (bytes : List Byte) (s : State) : State :=
  s |> start
    |> wbyte (addrByte addr7 false)
    |> wbytes bytes
    |> stop

/-- `read_bytes(addr7, count)` (R163). -/
def readBytes (addr7 : Addr7) (count : Nat) (s : State) : List Byte × State :=
  let r := rbytes count (s |> start |> wbyte (addrByte addr7 true))
  (r.1, stop r.2)

/-- `write_then_read(addr7, wbytes, rcount)` (R165): no stop condition between the two phases. -/
def writeThenRead (addr7 : Addr7) (bytes : List Byte) (rcount : Nat) (s : State) : List Byte × State :=
  let r := rbytes rcount
    (s |> start
       |> wbyte (addrByte addr7 false)
       |> wbytes bytes
       |> start
       |> wbyte (addrByte addr7 true))
  (r.1, stop r.2)

/-- `read_register(addr7, reg)` (R172): `write_then_read(addr7, [reg], 1)[0]`. -/
def readRegister (addr7 : Addr7) (reg : Byte) (s : State) : Byte × State :=
  let r := writeThenRead addr7 [reg] 1 s
  (r.1.headD 0, r.2)

/-- `write_register(addr7, reg, value)` (R175): `write_bytes(addr7, [reg, value])`. -/
def writeRegister (addr7 : Addr7) (reg value : Byte) (s : State) : State := writeBytes addr7 [reg, value] s

/-- `RXBUF[0 ..] <- bytes` (R164, R166). -/
def storeRxbuf (bytes : List Byte) : State → State := note fun s => { s with rxbuf := writeCells s.rxbuf 0 bytes }

/-- WRITEBYTES (R162). -/
def execWritebytes (addr7 : Addr7) (n : Nat) (s : State) : Host.Outcome State Fault Refusal :=
  runCommand (.writebytes addr7 n) (needsOwned s) none (writeBytes addr7 (txPayload s n)) s

/-- READBYTES (R164). -/
def execReadbytes (addr7 : Addr7) (count : Nat) (s : State) : Host.Outcome State Fault Refusal :=
  runCommand (.readbytes addr7 count) (needsOwned s) (checkCount count)
    (fun s =>
      let r := readBytes addr7 count s
      storeRxbuf r.1 r.2) s

/-- WRITETHENREAD (R166). -/
def execWritethenread (addr7 : Addr7) (wn rcount : Nat) (s : State) : Host.Outcome State Fault Refusal :=
  runCommand (.writethenread addr7 wn rcount) (needsOwned s) (checkCount rcount)
    (fun t =>
      let r := writeThenRead addr7 (txPayload s wn) rcount t
      storeRxbuf r.1 r.2) s

/-- READREG (R173). -/
def execReadreg (addr7 : Addr7) (reg : Byte) (s : State) : Host.Outcome State Fault Refusal :=
  runCommand (.readreg addr7 reg) (needsOwned s) none
    (fun s =>
      let r := readRegister addr7 reg s
      setRes (r.1.setWidth 16) r.2) s

/-- WRITEREG (R176). -/
def execWritereg (addr7 : Addr7) (reg value : Byte) (s : State) : Host.Outcome State Fault Refusal :=
  runCommand (.writereg addr7 reg value) (needsOwned s) none (writeRegister addr7 reg value) s

end Sys2Proof.Machine
end

