-- ==== Sys2Proof/Machine/Expander.lean ====
section
/-! DEFINITION. Layer L2 (43_expander.md): one register access of one expander chip per command. -/

namespace Sys2Proof.Machine

/-- A register read of a chip returned in `RES` (R182, R186). -/
def expanderRead (P : Params) (i : Instr) (chip : Nat) (reg : Byte) (s : State) : Host.Outcome State Fault Refusal :=
  runCommand i (needsOwned s) (checkAddr P chip)
    (fun s =>
      let r := readRegister (deviceAddr P chip) reg s
      setRes (r.1.setWidth 16) r.2) s

/-- A register write of a chip (R183 to R185). -/
def expanderWrite (P : Params) (i : Instr) (chip : Nat) (reg value : Byte) (s : State) :
    Host.Outcome State Fault Refusal :=
  runCommand i (needsOwned s) (checkAddr P chip) (writeRegister (deviceAddr P chip) reg value) s

/-- XREAD (R182): the Input register. -/
def execXread (chip : Nat) (s : State) : Host.Outcome State Fault Refusal :=
  expanderRead Config.params (.xread chip) chip REG_INPUT s

/-- XWRITE (R183): the Output register. -/
def execXwrite (chip : Nat) (value : Byte) (s : State) : Host.Outcome State Fault Refusal :=
  expanderWrite Config.params (.xwrite chip value) chip REG_OUTPUT value s

/-- XCONFIG (R184): the Configuration register. -/
def execXconfig (chip : Nat) (mask : Byte) (s : State) : Host.Outcome State Fault Refusal :=
  expanderWrite Config.params (.xconfig chip mask) chip REG_CONFIG mask s

/-- XSETINV (R185): the Polarity-Invert register, written. -/
def execXsetinv (chip : Nat) (mask : Byte) (s : State) : Host.Outcome State Fault Refusal :=
  expanderWrite Config.params (.xsetinv chip mask) chip REG_POLINV mask s

/-- XGETINV (R186): the Polarity-Invert register, read. -/
def execXgetinv (chip : Nat) (s : State) : Host.Outcome State Fault Refusal :=
  expanderRead Config.params (.xgetinv chip) chip REG_POLINV s

end Sys2Proof.Machine
end

