-- ==== Sys2Proof/Machine/Panel.lean ====
section
/-! DEFINITION. Layer L3 (44_panel.md): the panel of three chips. Every command constructs its own master and destroys it
(R202). The procedures take the parameters of 00_scope.md R9 as `P`. -/

namespace Sys2Proof.Machine

/-- `read_register(EXP_BASE + chip, reg)`. -/
def readChip (P : Params) (chip : Nat) (reg : Byte) (s : State) : Byte × State := readRegister (deviceAddr P chip) reg s

/-- `write_register(EXP_BASE + chip, reg, value)`. -/
def writeChip (P : Params) (chip : Nat) (reg value : Byte) (s : State) : State :=
  writeRegister (deviceAddr P chip) reg value s

/-- `panel_init()` (R203). -/
def panelInit (P : Params) (s : State) : State :=
  s |> construct
    |> writeChip P 0 REG_POLINV 0x00
    |> writeChip P 1 REG_POLINV 0x00
    |> writeChip P 2 REG_POLINV 0x00
    |> writeChip P 0 REG_CONFIG (configMask 0)
    |> writeChip P 1 REG_CONFIG (configMask 1)
    |> writeChip P 2 REG_CONFIG (configMask 2)
    |> writeChip P 0 REG_OUTPUT 0x00
    |> writeChip P 2 REG_OUTPUT 0x00
    |> destroy

/-- The probe of PCHECK (R210): read chip 2's Polarity-Invert register, toggle the test bit, read it back; alive iff all
8 bits match. -/
def panelProbe (P : Params) (s : State) : Bool × State :=
  let r0 := readChip P 2 REG_POLINV (construct s)
  let w := r0.1 ^^^ P.aliveTestMask
  let r1 := readChip P 2 REG_POLINV (writeChip P 2 REG_POLINV w r0.2)
  (r1.1 == w, destroy r1.2)

/-- `WAS_ALIVE <- alive` (R210). -/
def setWasAlive (alive : Bool) : State → State := note fun s => { s with wasAlive := alive }

/-- PCHECK's body (R210, R211): after the probe's master is destroyed, `panel_init()` iff alive now and not before. -/
def panelCheck (P : Params) (s : State) : State :=
  let r := panelProbe P s
  let t := if r.1 && !r.2.wasAlive then panelInit P r.2 else r.2
  t |> setWasAlive r.1
    |> setRes ((BitVec.ofBool r.1).setWidth 16)

/-- PBUTTONS' body (R214). -/
def panelButtons (P : Params) (s : State) : State :=
  let r0 := readChip P 0 REG_INPUT (construct s)
  let r2 := readChip P 2 REG_INPUT r0.2
  setRes ((packButtons r0.1 r2.1).setWidth 16) (destroy r2.2)

/-- PKNOB's body (R218). -/
def panelKnob (P : Params) (s : State) : State :=
  let r0 := readChip P 0 REG_INPUT (construct s)
  let r1 := readChip P 1 REG_INPUT r0.2
  setRes ((packKnob r0.1 r1.1).setWidth 16) (destroy r1.2)

/-- `panel_leds(m)` (R222). -/
def panelLeds (P : Params) (m : Mask5) (s : State) : State :=
  s |> construct
    |> writeChip P 0 REG_OUTPUT (ledOutput 0 m)
    |> writeChip P 2 REG_OUTPUT (ledOutput 2 m)
    |> destroy

/-- `PWM_CNT <- (PWM_CNT + 1) mod PWM_PERIOD` (R226). -/
def advancePwm (P : Params) : State → State := note fun s => { s with pwmCnt := (s.pwmCnt + 1) % P.pwmPeriod }

/-- PLEDTICK's body (R226): compare, write, then advance. -/
def panelLedTick (P : Params) (state5 : Mask5) (s : State) : State :=
  advancePwm P (panelLeds P (tickMask P s.pwmCnt state5) s)

/-- A panel command (R202): refused when a master exists. Its other refusal, BAD_ADDR "if `EXP_BASE + 2 > 0x7F` (excluded by
the parameter range ...)" (R204), cannot arise: `checkAddr_panel` of Laws/Config.lean. -/
def panelCommand (i : Instr) (body : State → State) (s : State) : Host.Outcome State Fault Refusal :=
  runCommand i (needsFree s) none body s

/-- PINIT (R204). -/
def execPinit (s : State) : Host.Outcome State Fault Refusal :=
  panelCommand .pinit (panelInit Config.params) s

/-- PCHECK (R210). -/
def execPcheck (s : State) : Host.Outcome State Fault Refusal :=
  panelCommand .pcheck (panelCheck Config.params) s

/-- PBUTTONS (R214). -/
def execPbuttons (s : State) : Host.Outcome State Fault Refusal :=
  panelCommand .pbuttons (panelButtons Config.params) s

/-- PKNOB (R218). -/
def execPknob (s : State) : Host.Outcome State Fault Refusal :=
  panelCommand .pknob (panelKnob Config.params) s

/-- PLEDS (R222). -/
def execPleds (mask5 : Mask5) (s : State) : Host.Outcome State Fault Refusal :=
  panelCommand (.pleds mask5) (panelLeds Config.params mask5) s

/-- PLEDTICK (R226). -/
def execPledtick (state5 : Mask5) (s : State) : Host.Outcome State Fault Refusal :=
  panelCommand (.pledtick state5) (panelLedTick Config.params state5) s

end Sys2Proof.Machine
end

