-- ==== Sys2Proof/Machine/WireBytes.lean ====
section
/-! DEFINITION. The six wire rows of the opcode table (30_encoding.md R84, R85, R92): bytes the sequencer sends inside its
transactions. As an instruction of its own each means that transmission, the byte frame of R86, on the terms of the one
command that sends a lone byte, WBYTE (41_i2c_primitives.md R139: "it may be an address byte"). DESIGN CHOICE, log entry 8. -/

namespace Sys2Proof.Machine

/-- Sends one byte of a frame: nine clock pulses, the receiver's acknowledgement to `ACKF` (R86, R138). -/
def sendWireByte (i : Instr) (b : Byte) (s : State) : Host.Outcome State Fault Refusal :=
  runCommand i (needsOwned s) none (wbyte b) s

/-- WIRE_ADDR_WRITE (R84): the address byte of a write phase. -/
def execWireAddrWrite (a : Addr7) (s : State) : Host.Outcome State Fault Refusal :=
  sendWireByte (.wireAddrWrite a) (addrByte a false) s

/-- WIRE_ADDR_READ (R84): the address byte of a read phase. -/
def execWireAddrRead (a : Addr7) (s : State) : Host.Outcome State Fault Refusal :=
  sendWireByte (.wireAddrRead a) (addrByte a true) s

/-- REG_INPUT (R85). -/
def execRegInput (s : State) : Host.Outcome State Fault Refusal := sendWireByte .regInput REG_INPUT s

/-- REG_OUTPUT (R85). -/
def execRegOutput (s : State) : Host.Outcome State Fault Refusal := sendWireByte .regOutput REG_OUTPUT s

/-- REG_POLINV (R85). -/
def execRegPolinv (s : State) : Host.Outcome State Fault Refusal := sendWireByte .regPolinv REG_POLINV s

/-- REG_CONFIG (R85). -/
def execRegConfig (s : State) : Host.Outcome State Fault Refusal := sendWireByte .regConfig REG_CONFIG s

end Sys2Proof.Machine
end

