-- ==== Sys2Proof/Machine/Dispatch.lean ====
section
/-! DEFINITION. The meaning of every instruction, one arm each. -/

namespace Sys2Proof.Machine

def exec (i : Instr) (s : State) : Host.Outcome State Fault Refusal :=
  match i with
  -- layer L0 (40_line_control.md)
  | .qdelay => Sys2Proof.Machine.execQdelay s
  | .construct => Sys2Proof.Machine.execConstruct s
  | .destroy => Sys2Proof.Machine.execDestroy s
  -- layer L1 (41_i2c_primitives.md, 42_i2c_transactions.md)
  | .start => Sys2Proof.Machine.execStart s
  | .stop => Sys2Proof.Machine.execStop s
  | .wbit bit => Sys2Proof.Machine.execWbit bit s
  | .rbit => Sys2Proof.Machine.execRbit s
  | .wbyte byte => Sys2Proof.Machine.execWbyte byte s
  | .rbyte ack => Sys2Proof.Machine.execRbyte ack s
  | .writebytes addr7 n => Sys2Proof.Machine.execWritebytes addr7 n s
  | .readbytes addr7 count => Sys2Proof.Machine.execReadbytes addr7 count s
  | .writethenread addr7 wn rcount => Sys2Proof.Machine.execWritethenread addr7 wn rcount s
  | .readreg addr7 reg => Sys2Proof.Machine.execReadreg addr7 reg s
  | .writereg addr7 reg value => Sys2Proof.Machine.execWritereg addr7 reg value s
  -- layer L2 (43_expander.md)
  | .xread chip => Sys2Proof.Machine.execXread chip s
  | .xwrite chip value => Sys2Proof.Machine.execXwrite chip value s
  | .xconfig chip mask => Sys2Proof.Machine.execXconfig chip mask s
  | .xsetinv chip mask => Sys2Proof.Machine.execXsetinv chip mask s
  | .xgetinv chip => Sys2Proof.Machine.execXgetinv chip s
  -- layer L3 (44_panel.md)
  | .pinit => Sys2Proof.Machine.execPinit s
  | .pcheck => Sys2Proof.Machine.execPcheck s
  | .pbuttons => Sys2Proof.Machine.execPbuttons s
  | .pknob => Sys2Proof.Machine.execPknob s
  | .pleds mask5 => Sys2Proof.Machine.execPleds mask5 s
  | .pledtick state5 => Sys2Proof.Machine.execPledtick state5 s
  -- wire encodings (30_encoding.md R84, R85)
  | .wireAddrWrite a => Sys2Proof.Machine.execWireAddrWrite a s
  | .wireAddrRead a => Sys2Proof.Machine.execWireAddrRead a s
  | .regInput => Sys2Proof.Machine.execRegInput s
  | .regOutput => Sys2Proof.Machine.execRegOutput s
  | .regPolinv => Sys2Proof.Machine.execRegPolinv s
  | .regConfig => Sys2Proof.Machine.execRegConfig s

end Sys2Proof.Machine
end

