-- ==== Sys2Proof/Machine/HostPort.lean ====
section
/-! DEFINITION. What the agents outside the sequencer do: the host's moves at the command port and the buffers (10_state.md
R21, R22, R25, R30), reset (70_reset_and_hazards.md R270, R271), and the environment between two commands (00_scope.md R11,
93_implementation_defined.md U17). -/

namespace Sys2Proof.Machine

/-- The host writes `CMD` (R21): decode, then the command; a word that matches no command is refused with ILLEGAL_CMD
(60_exceptions.md R244), unless an earlier error stays (R249). -/
def runWord (w : CmdWord) (s : State) : Host.Outcome State Fault Refusal :=
  match decodeCommand w with
  | .ok i => exec i { s with cmd := some w }
  | .error _ => .next (refuse .illegalCmd s)

/-- The sequencer sends one byte of a frame on its own (log entry 8). -/
def runWireByte (p : BytePosition) (b : Byte) (s : State) : Host.Outcome State Fault Refusal :=
  match decodeWireByte p b with
  | .ok i => exec i s
  | .error _ => .next (refuse .illegalCmd s)

/-- The host has no move while `BUSY` = 1 (00_scope.md R12), nor after a BUS_HANG (60_exceptions.md R243). -/
def whenIdle (move : State → Host.Outcome State Fault Refusal) (s : State) : Host.Outcome State Fault Refusal :=
  if s.hung then .fault .busHang else if s.busy then .fault .hostMoveWhileBusy else move s

/-- A command with a reset landing after its k-th micro-operation and the environment's turn after that (R11, R271, U19; log
entry 7). -/
def runWordThenReset (w : CmdWord) (k : Nat) (s : State) : Host.Outcome State Fault Refusal :=
  match runWord w { s with budget := some k } with
  | .next t => .next (blockReset (environmentTurn t))
  | .fault r => .fault r
  | .refused r => .refused r

/-- One move of the world outside. -/
def takeInput (m : Input) (s : State) : Host.Outcome State Fault Refusal :=
  match m with
  | .writeCmd w => whenIdle (runWord w) s
  | .writeTxbuf index v => whenIdle (fun s => .next { s with txbuf := writeCell s.txbuf index.toNat v }) s
  | .writeStatus _ => whenIdle (fun s => .next s) s
  | .readRes => whenIdle (fun s => .next { s with hostData := s.res }) s
  | .readStatus => whenIdle (fun s => .next { s with hostData := s.status.setWidth 16 }) s
  | .readRxbuf index => whenIdle (fun s => .next { s with hostData := (s.rxByte index.toNat).setWidth 16 }) s
  | .reset => .next (blockReset s)
  | .writeCmdThenReset w k => whenIdle (runWordThenReset w k) s
  | .sendByte p b => whenIdle (runWireByte p b) s
  | .environment a => .next (environmentAct a s)

/-- With nothing to do the block waits "for the first write of `CMD`" (R270); a hung block has no next step (R243). -/
def waitForInput (s : State) : Host.Outcome State Fault Refusal := if s.hung then .fault .busHang else .next s

/-- The next move, taken off the list. -/
def nextMove (s : State) : Host.Outcome State Fault Refusal :=
  match s.inputs with
  | [] => waitForInput s
  | m :: rest => takeInput m { s with inputs := rest }

/-- The move that presents an encoded instruction. -/
def presenting : Encoded → Input
  | .command w => .writeCmd w
  | .wireByte p b => .sendByte p b

/-- The state in which the next move presents the instruction a table row's bits spell (log entry 4). -/
def placeWord (s : State) (nbits w : Nat) : State :=
  match tableEncoded nbits w with
  | some e => { s with inputs := presenting e :: s.inputs }
  | none => s

end Sys2Proof.Machine
end

