-- ==== Sys2Proof/Machine/Monitor.lean ====
section
/-! DEFINITION. What a bus monitor makes of a waveform: the frame notation of 30_encoding.md R87, recognised as the glossary
says, "a falling/rising edge on the data line while the clock line is held high" (00_scope.md R18, 41_i2c_primitives.md R144),
with one bit taken at each rise of the clock and nine to a byte frame (R86). Nothing of the block is used. -/

namespace Sys2Proof.Machine

/-- One symbol of a frame (R87). -/
inductive FrameSymbol where
  /-- `S` or `Sr`. -/
  | start
  /-- A byte and the level of its ninth bit (0 acknowledged, 1 not). -/
  | byte (v : Byte) (ninth : Bool)
  /-- `P`. -/
  | stop
  deriving DecidableEq, Repr

/-- The byte whose bits, most significant first, are the list (R52). -/
def byteOfMsbFirst (bits : List Bool) : Byte :=
  bits.foldl (fun v b => v <<< 1 ||| (BitVec.ofBool b).setWidth 8) 0

/-- The frame symbols of a waveform of `(clock, data)` levels in time order, from the level before it and the bits of
the byte in progress. A start or stop condition ends a byte left unfinished. -/
def framesFrom : Bool × Bool → List Bool → List (Bool × Bool) → List FrameSymbol
  | _, _, [] => []
  | before, bits, now :: rest =>
    if before.1 && now.1 then
      if before.2 && !now.2 then .start :: framesFrom now [] rest
      else if !before.2 && now.2 then .stop :: framesFrom now [] rest
      else framesFrom now bits rest
    else if !before.1 && now.1 then
      if bits.length = 8 then .byte (byteOfMsbFirst bits) now.2 :: framesFrom now [] rest
      else framesFrom now (bits ++ [now.2]) rest
    else framesFrom now bits rest

/-- The frame symbols of a waveform that begins on an idle bus. -/
def frames (wave : List (Bool × Bool)) : List FrameSymbol := framesFrom (true, true) [] wave

/-- The drive latches during one `Q()`: one digit of each waveform of 41_i2c_primitives.md. -/
def BusEvent.latches : BusEvent → Option (Bool × Bool)
  | .quarter sclOut sdaOut _ _ => some (sclOut, sdaOut)
  | _ => none

/-- The wire levels at the end of one `Q()`. -/
def BusEvent.levels : BusEvent → Option (Bool × Bool)
  | .quarter _ _ sclLine sdaLine => some (sclLine, sdaLine)
  | _ => none

/-- The master-side waveform of a piece of trace: the latches, one pair per `Q()`, in time order. -/
def latchWave (trace : List BusEvent) : List (Bool × Bool) := trace.reverse.filterMap BusEvent.latches

/-- The waveform on the wires of a piece of trace. -/
def lineWave (trace : List BusEvent) : List (Bool × Bool) := trace.reverse.filterMap BusEvent.levels

/-- What happened between an earlier state and a later one: the newest part of the later trace. -/
def traceSince (earlier later : State) : List BusEvent := later.trace.take (later.trace.length - earlier.trace.length)

/-- How many `Q()`s a piece of trace holds: its duration (70_reset_and_hazards.md R280). -/
def quarterCount (trace : List BusEvent) : Nat := (latchWave trace).length

end Sys2Proof.Machine
end

