-- ==== Sys2Proof/Safety.lean ====
section
/-! DEFINITION. The terms claims are stated in: when the block can take a command, what the environment does at the coming
observations, what counts as completed and as untouched, and the invariant of the machine. -/

namespace Sys2Proof.Machine

/-! ### Ready and completed -/

/-- The block is idle, not hung, with a clear error latch: it takes the next command (60_exceptions.md R249). -/
abbrev State.Ready (s : State) : Prop := s.upc = .idle ∧ s.hung = false ∧ s.budget = none ∧ s.err = 0

/-- `t` is the end of a command begun in `s` that ran to its last micro-operation (70_reset_and_hazards.md R274): `BUSY`
is 0, nothing hung, `CMD` empty, `ERR` as before. -/
abbrev Completed (s t : State) : Prop := t.upc = .idle ∧ t.hung = false ∧ t.budget = none ∧ t.cmd = none ∧ t.err = s.err

/-- The refusal of R241 in full: `ERR` holds the code, `BUSY` is 0, every other thing is as it was. -/
def refused (code : ErrCode) (s : State) : State := { s with err := code.code, upc := .idle, cmd := none }

/-! ### The environment at the coming observations -/

/-- What the other devices contribute at the n-th coming `Q()` or sample, counted from 0 (40_line_control.md R113, R114). -/
def State.levelAt (s : State) (n : Nat) : Levels :=
  match s.envScript[n]? with
  | some l => l
  | none => ⟨Config.freeScl (s.envDraws + n), Config.freeSda (s.envDraws + n)⟩

/-- What the environment does before the n-th coming micro-operation, counted from 0 (00_scope.md R11). -/
def State.actsAt (s : State) (n : Nat) : List EnvAct :=
  match s.envActs[n]? with
  | some as => as
  | none => Config.freeActs (s.envTurns + n)

/-- No device holds the clock low at the next `k` observations. -/
abbrev ClockFree (s : State) (k : Nat) : Prop := ∀ n < k, (s.levelAt n).scl = true

/-- No device holds the data line low at the n-th observation. -/
abbrev DataFree (s : State) (n : Nat) : Prop := (s.levelAt n).sda = true

/-- No reference expander is attached: the environment is `levelAt` alone, whatever it does. -/
abbrev NoChips (s : State) : Prop := s.chips = []

/-- The byte the environment sends in eight bit reads that begin at observation `o`. A bit read makes five observations,
the fourth its sample (41_i2c_primitives.md R136). -/
def byteAt (s : State) (o : Nat) : Byte := byteOfMsbFirst ((List.range 8).map fun j => (s.levelAt (o + 5 * j + 3)).sda)

/-- The acknowledgement of a byte write that begins at observation `o`: eight bit writes of four observations, then a
bit read (R138). -/
def ackAt (s : State) (o : Nat) : Bool := ackFlag (s.levelAt (o + 35)).sda

/-- Observations made by `write_bytes` with `n` payload bytes: `start()` 4, each byte 37, `stop()` 3. -/
def writeDraws (n : Nat) : Nat := 44 + 37 * n

/-- Observations made by `read_bytes`: each byte read 44. -/
def readDraws (count : Nat) : Nat := 44 + 44 * count

/-- Observations made by `write_then_read`. -/
def writeThenReadDraws (wn rcount : Nat) : Nat := 85 + 37 * wn + 44 * rcount

/-- A write transaction that begins at observation `o` can form its start and its stop condition. -/
abbrev WriteFree (s : State) (o n : Nat) : Prop := DataFree s (o + 1) ∧ DataFree s (o + (43 + 37 * n))

/-- A read transaction that begins at observation `o` can form its start and its stop condition. -/
abbrev ReadFree (s : State) (o count : Nat) : Prop := DataFree s (o + 1) ∧ DataFree s (o + (43 + 44 * count))

/-- A write-then-read that begins at observation `o` can form its start, its repeated start and its stop condition. -/
abbrev WriteThenReadFree (s : State) (o wn rcount : Nat) : Prop :=
  DataFree s (o + 1) ∧ DataFree s (o + (42 + 37 * wn)) ∧ DataFree s (o + (84 + 37 * wn + 44 * rcount))

/-- The bus is idle as far as this block drives it: both latches 1 (42_i2c_transactions.md R160). -/
abbrev State.BusIdle (s : State) : Prop := s.sclOut = true ∧ s.sdaOut = true

/-! ### What a command leaves alone -/

/-- `RES`, `RXBUF`, `WAS_ALIVE` and `PWM_CNT` are as they were. -/
abbrev SameResults (s t : State) : Prop :=
  t.res = s.res ∧ t.rxbuf = s.rxbuf ∧ t.wasAlive = s.wasAlive ∧ t.pwmCnt = s.pwmCnt

/-- All of those but `RES`. -/
abbrev SameButRes (s t : State) : Prop := t.rxbuf = s.rxbuf ∧ t.wasAlive = s.wasAlive ∧ t.pwmCnt = s.pwmCnt

/-- All of those but `RXBUF`. -/
abbrev SameButRxbuf (s t : State) : Prop := t.res = s.res ∧ t.wasAlive = s.wasAlive ∧ t.pwmCnt = s.pwmCnt

/-- All of those but `RES` and `WAS_ALIVE`, which PCHECK writes. -/
abbrev SameButProbe (s t : State) : Prop := t.rxbuf = s.rxbuf ∧ t.pwmCnt = s.pwmCnt

/-- All of those but `PWM_CNT`. -/
abbrev SameButPwm (s t : State) : Prop := t.res = s.res ∧ t.rxbuf = s.rxbuf ∧ t.wasAlive = s.wasAlive

/-- What no command writes: `TXBUF` (20_memory.md R68) and what the world outside does next. -/
abbrev SameHostSide (s t : State) : Prop := t.txbuf = s.txbuf ∧ t.inputs = s.inputs ∧ t.hostData = s.hostData

/-- Both line modes are as they were. -/
abbrev SameModes (s t : State) : Prop := t.sclMode = s.sclMode ∧ t.sdaMode = s.sdaMode

/-- Both drive latches are as they were. -/
abbrev SameLatches (s t : State) : Prop := t.sclOut = s.sclOut ∧ t.sdaOut = s.sdaOut

/-- The lines are let go: both in INPUT, both latches 1 (70_reset_and_hazards.md R274, for a panel command). -/
abbrev State.Released (s : State) : Prop := s.sclMode = .input ∧ s.sdaMode = .input ∧ s.BusIdle

/-! ### Durations and frames (70_reset_and_hazards.md R280, 30_encoding.md R87) -/

/-- The `Q()`s executed between two states (R280). -/
def durationBetween (s t : State) : Nat := quarterCount (traceSince s t)

/-- The duration of `write_bytes` in quarter-bits. -/
def writeQuarters (n : Nat) : Nat := 43 + 36 * n
/-- The duration of `read_bytes` in quarter-bits. -/
def readQuarters (count : Nat) : Nat := 43 + 36 * count
/-- The duration of `write_then_read` in quarter-bits. -/
def writeThenReadQuarters (wn rcount : Nat) : Nat := 83 + 36 * (wn + rcount)

/-- The table of R280 for every instruction that has one duration; PCHECK has two. The wire rows last one byte frame. -/
def quartersOf : Instr → Option Nat
  | .qdelay => some 1
  | .construct | .destroy => some 0
  | .start => some 4
  | .stop => some 3
  | .wbit _ | .rbit => some 4
  | .wbyte _ | .rbyte _ => some 36
  | .writebytes _ n => some (writeQuarters n)
  | .readbytes _ count => some (readQuarters count)
  | .writethenread _ wn rcount => some (writeThenReadQuarters wn rcount)
  | .writereg _ _ _ | .xwrite _ _ | .xconfig _ _ | .xsetinv _ _ => some 115
  | .readreg _ _ | .xread _ | .xgetinv _ => some 155
  | .pinit => some 920
  | .pcheck => none
  | .pbuttons | .pknob => some 310
  | .pleds _ | .pledtick _ => some 230
  | .wireAddrWrite _ | .wireAddrRead _ | .regInput | .regOutput | .regPolinv | .regConfig => some 36

/-- How many observations an instruction makes at most: what the other devices contribute later does not touch it. -/
def observationsOf : Instr → Nat
  | .qdelay => 1
  | .construct | .destroy => 0
  | .start => 4
  | .stop => 3
  | .wbit _ => 4
  | .rbit => 5
  | .wbyte _ => 37
  | .rbyte _ => 44
  | .writebytes _ n => writeDraws n
  | .readbytes _ count => readDraws count
  | .writethenread _ wn rcount => writeThenReadDraws wn rcount
  | .writereg _ _ _ | .xwrite _ _ | .xconfig _ _ | .xsetinv _ _ => 118
  | .readreg _ _ | .xread _ | .xgetinv _ => 166
  | .pinit => 944
  | .pcheck => 1394
  | .pbuttons | .pknob => 332
  | .pleds _ | .pledtick _ => 236
  | .wireAddrWrite _ | .wireAddrRead _ | .regInput | .regOutput | .regPolinv | .regConfig => 37

/-- A byte the master writes, as the latches show it: the ninth bit is released (1) for the slave. -/
def sent (v : Byte) : FrameSymbol := .byte v true

/-- A byte the master reads, as the latches show it: data released throughout, the ninth bit the master's answer. -/
def received (last : Bool) : FrameSymbol := .byte 0xFF last

/-- The bytes of a read phase: acknowledged, but for the last (R86). -/
def receivedAll (count : Nat) : List FrameSymbol := (List.range count).map fun k => received (k + 1 == count)

/-- `S, addr_byte(dev,0), A, (byte, A)*, P` (R87). -/
def writeFrame (addr7 : Addr7) (bytes : List Byte) : List FrameSymbol :=
  [.start, sent (addrByte addr7 false)] ++ bytes.map sent ++ [.stop]

/-- `S, addr_byte(dev,1), A, (data, a)*, data, n, P` (R87). -/
def readFrame (addr7 : Addr7) (count : Nat) : List FrameSymbol :=
  [.start, sent (addrByte addr7 true)] ++ receivedAll count ++ [.stop]

/-- `S, addr_byte(dev,0), A, (byte, A)*, Sr, addr_byte(dev,1), A, (data, a)*, data, n, P` (R87). -/
def writeThenReadFrame (addr7 : Addr7) (bytes : List Byte) (rcount : Nat) : List FrameSymbol :=
  [.start, sent (addrByte addr7 false)] ++ bytes.map sent ++ [.start, sent (addrByte addr7 true)] ++
    receivedAll rcount ++ [.stop]

/-- `S, addr_byte(dev,0), A, reg, A, value, A, P` for a chip of the panel. -/
def chipWriteFrame (chip : Nat) (reg value : Byte) : List FrameSymbol :=
  writeFrame (deviceAddr Config.params chip) [reg, value]

/-- `S, addr_byte(dev,0), A, reg, A, Sr, addr_byte(dev,1), A, data, n, P` for a chip of the panel. -/
def chipReadFrame (chip : Nat) (reg : Byte) : List FrameSymbol :=
  writeThenReadFrame (deviceAddr Config.params chip) [reg] 1

/-- The frames of `panel_init()`, with the values 44_panel.md R203 prints. -/
def initFrames : List FrameSymbol :=
  chipWriteFrame 0 0x02 0x00 ++ chipWriteFrame 1 0x02 0x00 ++ chipWriteFrame 2 0x02 0x00 ++
  chipWriteFrame 0 0x03 0x6F ++ chipWriteFrame 1 0x03 0xFF ++ chipWriteFrame 2 0x03 0x79 ++
  chipWriteFrame 0 0x01 0x00 ++ chipWriteFrame 2 0x01 0x00

/-- A bit of a value as a byte 0 or 1. -/
def bitOf (m : Mask5) (n : Nat) : Byte := if m.getLsbD n then 1 else 0

/-- The frames of `panel_leds(m)`, with `led_regs` as 44_panel.md R222 prints it. -/
def ledFrames (m : Mask5) : List FrameSymbol :=
  chipWriteFrame 0 0x01 (bitOf m 1 <<< 7 ||| bitOf m 0 <<< 4) ++
  chipWriteFrame 2 0x01 (bitOf m 4 <<< 7 ||| bitOf m 3 <<< 2 ||| bitOf m 2 <<< 1)

/-- The frame symbols of the master's waveform between two states. -/
def masterFrames (s t : State) : List FrameSymbol := frames (latchWave (traceSince s t))

end Sys2Proof.Machine

namespace Sys2Proof

/-! ### Which commands write what (10_state.md R22, R24, R26; 40_line_control.md R118) -/

/-- The commands that return a value in `RES` (R22). -/
def Instr.writesRes : Instr → Bool
  | .rbit | .rbyte _ | .readreg _ _ | .xread _ | .xgetinv _ | .pcheck | .pbuttons | .pknob => true
  | _ => false

/-- The commands that send no byte, and so leave `ACKF` alone (R24). -/
def Instr.sendsNoByte : Instr → Bool
  | .qdelay | .construct | .destroy | .start | .stop | .wbit _ | .rbit | .rbyte _ => true
  | _ => false

/-- The panel commands (layer L3). -/
def Instr.isPanel : Instr → Bool
  | .pinit | .pcheck | .pbuttons | .pknob | .pleds _ | .pledtick _ => true
  | _ => false

/-- The commands that read bytes into `RXBUF`, with how many (R30). -/
def Instr.rxCount : Instr → Nat
  | .readbytes _ count => count
  | .writethenread _ _ rcount => rcount
  | _ => 0

/-- The commands of R241's NOT_OWNED row, with the wire rows, which run on WBYTE's terms. -/
def Instr.needsMaster : Instr → Bool
  | .destroy | .start | .stop | .wbit _ | .rbit | .wbyte _ | .rbyte _ => true
  | .writebytes _ _ | .readbytes _ _ | .writethenread _ _ _ | .readreg _ _ | .writereg _ _ _ => true
  | .xread _ | .xwrite _ _ | .xconfig _ _ | .xsetinv _ _ | .xgetinv _ => true
  | .wireAddrWrite _ | .wireAddrRead _ | .regInput | .regOutput | .regPolinv | .regConfig => true
  | _ => false

/-- The commands of R241's ALREADY_OWNED row. -/
def Instr.makesMaster : Instr → Bool
  | .construct | .pinit | .pcheck | .pbuttons | .pknob | .pleds _ | .pledtick _ => true
  | _ => false

/-- The byte a wire row of the opcode table stands for (30_encoding.md R84, R85). -/
def Instr.wireByteValue : Instr → Option Byte
  | .wireAddrWrite a => some (a.setWidth 8 <<< 1)
  | .wireAddrRead a => some (a.setWidth 8 <<< 1 ||| 1)
  | .regInput => some 0x00
  | .regOutput => some 0x01
  | .regPolinv => some 0x02
  | .regConfig => some 0x03
  | _ => none

/-- The chip offset of a command of layer L2 (43_expander.md R181). -/
def Instr.chipOffset : Instr → Option Nat
  | .xread chip | .xwrite chip _ | .xconfig chip _ | .xsetinv chip _ | .xgetinv chip => some chip
  | _ => none

/-- The read count of a command that has one (60_exceptions.md R248). -/
def Instr.readCount : Instr → Option Nat
  | .readbytes _ count => some count
  | .writethenread _ _ rcount => some rcount
  | _ => none

/-- The commands that return one byte read off the wire in `RES` (R22). -/
def Instr.returnsByte : Instr → Bool
  | .rbyte _ | .readreg _ _ | .xread _ | .xgetinv _ => true
  | _ => false

end Sys2Proof

namespace Sys2Proof.Machine

/-- None of the refusals of R245 to R248 meets the instruction in the state. -/
abbrev Accepted (i : Instr) (s : State) : Prop :=
  (i.needsMaster = true → s.owned = true) ∧ (i.makesMaster = true → s.owned = false) ∧
  (∀ chip, i.chipOffset = some chip → Config.params.expBase + chip ≤ 0x7F) ∧ i.readCount ≠ some 0

/-! ### Moves of the world outside -/

/-- The moves that are the host's (R12): presenting a command, with a reset to follow or not, reading `RES` or `STATUS`,
writing `STATUS`, touching a buffer. The others are the platform's reset and the environment's, and the byte of log entry
8, which is nobody's. -/
def Input.isHostMove : Input → Bool
  | .writeCmd _ | .writeCmdThenReset _ _ | .writeTxbuf _ _ | .writeStatus _ | .readRes | .readStatus | .readRxbuf _ => true
  | .reset | .sendByte _ _ | .environment _ => false

/-- The moves that reset the block. -/
def Input.resets : Input → Bool
  | .reset | .writeCmdThenReset _ _ => true
  | _ => false

/-! ### A reference expander on the lines (20_memory.md R61) -/

/-- The chip has power, is in no transfer, and saw an idle bus last. -/
abbrev Chip.AtRest (c : Chip) : Prop :=
  c.powered = true ∧ c.phase = .idle ∧ c.pull = false ∧ c.seenScl = true ∧ c.seenSda = true

/-- The one device on the lines is the chip: nothing else holds them, now or at the next `n` observations, and the
environment leaves the lines and the chip alone at its next `m` turns. -/
abbrev OnlyChip (s : State) (c : Chip) (n m : Nat) : Prop :=
  s.chips = [c] ∧ s.envScl = true ∧ s.envSda = true ∧ (∀ k < n, s.levelAt k = ⟨true, true⟩) ∧ ∀ k < m, s.actsAt k = []

/-- The registers the host can reach: Output, Polarity-Invert and Configuration. -/
abbrev SameRegisters (c d : Chip) : Prop := d.out = c.out ∧ d.inv = c.inv ∧ d.cfg = c.cfg

/-! ### The invariant and what a safe run is -/

/-- What every step keeps: the buffers in canonical form, `PWM_CNT` below its modulus (R31), both lines in one mode
between commands (R27), `ERR` one of the codes of R241, and `BUSY` left at 1 only by a BUS_HANG (R243), which happens
only while the lines are owned; every chip has seen the clock line as it is. -/
structure State.Inv (s : State) : Prop where
  txWf : Memory.wf s.txbuf = true
  rxWf : Memory.wf s.rxbuf = true
  pwm : s.pwmCnt < Config.params.pwmPeriod
  modes : s.sclMode = s.sdaMode
  err : s.err ≤ 5
  busy : s.busy = s.hung
  hungOwned : s.hung = true → s.owned = true
  budget : s.budget = none
  chipsSeen : ∀ c ∈ s.chips, c.seenScl = s.sclLine

/-- A run is safe while no command has been refused and nothing has hung: then every command has completed. -/
abbrev State.Clean (s : State) : Prop := s.err = 0 ∧ s.hung = false

/-- `QUARTER_BIT_CYCLES` core cycles per quarter-bit (70_reset_and_hazards.md R285). -/
def coreCycles (P : Params) (quarters : Nat) : Nat := quarters * P.quarterBitCycles

end Sys2Proof.Machine
end

