-- ==== Sys2Proof/Certificates/Slice0/Obligations.lean ====
section
/-! DEFINITION. The statements for the provers. Where a completion is stated for a bus without reference expanders (`NoChips`) the
environment is `State.levelAt`, which may be anything, what a chip would do included; a chip on the lines is the subject
of the statements about the reference expander. `levelAt` counts the observations of 40_line_control.md R110 and R113
from the first of the command (log entry 2), `actsAt` the environment's turns between the micro-operations (log entry 13). -/

section

open Sys2Proof Sys2Proof.Machine

/-! ### Encoding (30_encoding.md) -/

/-- No bit of any instruction is dropped: decoding the encoding of a well-formed instruction gives it back. -/
def Obligations.DecodeOfEncode : Prop := ∀ i : Instr, i.wf = true → decode (encode i) = .ok i

/-- R83: "a word `w` spells the command iff `(w & mask) == match`", for each of the 25 rows. -/
def Obligations.WordSpellsCommandIffRowMatches : Prop :=
  ∀ w : CmdWord, ∀ r ∈ commandTable,
    w &&& r.mask = r.pattern ↔ ∃ i, decodeCommand w = .ok i ∧ i.mnemonic = r.name

/-- Every word and every byte that decodes has the one spelling the encoder writes, and its operands fit their fields. -/
def Obligations.EncodeOfDecode : Prop := ∀ (e : Encoded) (i : Instr), decode e = .ok i → encode i = e ∧ i.wf = true

/-- Words written out from R81, R83, R84 and R85, and words R88 calls illegal. -/
def Obligations.SampleWordsDecode : Prop :=
  decodeCommand 0x14220379 = .ok (.writereg 0x22 0x03 0x79) ∧
  decodeCommand 0x12220101 = .ok (.writethenread 0x22 1 1) ∧
  decodeCommand 0x22020079 = .ok (.xconfig 2 0x79) ∧
  decodeCommand 0x34000015 = .ok (.pleds 0b10101) ∧
  decodeCommand 0x09000001 = .ok (.rbyte true) ∧
  decodeWireByte .address 0x45 = .ok (.wireAddrRead 0x22) ∧
  decodeWireByte .pointer 0x03 = .ok .regConfig ∧
  decodeCommand 0x00000000 = .error (.unknownOp 0x00) ∧
  decodeCommand 0x34000020 = .error (.reservedBitSet 0x34)

/-- R84: `addr_byte(addr7, dir) = (addr7 << 1) | dir`, 8 bits; as patterns `aaaaaaa0` and `aaaaaaa1`. -/
def Obligations.AddressByteIsShiftedAddress : Prop :=
  ∀ (a : Addr7) (d : Bool),
    addrByte a d = (a.setWidth 8 <<< 1 ||| (BitVec.ofBool d).setWidth 8) ∧
    (addrByte a d).toNat = 2 * a.toNat + d.toNat ∧
    (∀ n < 7, (addrByte a d).getLsbD (n + 1) = a.getLsbD n) ∧ (addrByte a d).getLsbD 0 = d

/-! ### Steps (00_scope.md R12, 10_state.md R21, R25, R30) -/

/-- A step whose next move presents a word that decodes to a command is `exec` of that command, with the word in `CMD`
and the move taken off the list; a byte sent on its own likewise (log entry 8). -/
def Obligations.StepRunsDecodedInstruction : Prop :=
  ∀ (s : State) (rest : List Input) (i : Instr), s.hung = false → s.upc = .idle →
    (∀ w, s.inputs = .writeCmd w :: rest → decodeCommand w = .ok i →
      step s = exec i { s with inputs := rest, cmd := some w }) ∧
    (∀ p b, s.inputs = .sendByte p b :: rest → decodeWireByte p b = .ok i →
      step s = exec i { s with inputs := rest })

/-- `withFetchWord` places what the next step runs: the instruction the decoder reads from the table's bits. That a program is
presented so, move by move (log entry 4), and that the 8-bit rows run on their own, each byte in the position its row gives
(log entry 8), is the model's choice. -/
def Obligations.FetchWordIsRunNext : Prop :=
  ∀ (s : State) (nbits w : Nat) (i : Instr), s.hung = false → s.upc = .idle → decodeTableWord nbits w = some i →
    ∃ cmd, step (s.withFetchWord nbits w) = exec i { s with cmd := cmd }

/-- R25: `STATUS` is a view of other state, its fields where the table puts them, and a host write of it is ignored. -/
def Obligations.StatusIsView : Prop :=
  (∀ s : State, s.status.getLsbD 0 = s.busy ∧ s.status.getLsbD 1 = s.owned ∧ s.status.getLsbD 2 = s.ackf ∧
    s.status.getLsbD 3 = s.wasAlive ∧ s.status.extractLsb' 4 4 = s.err) ∧
  State.reset.status = 0 ∧
  ∀ (s : State) (v : Byte) (rest : List Input), s.hung = false → s.upc = .idle → s.inputs = .writeStatus v :: rest →
    step s = .next { s with inputs := rest }

/-- The host's write of a `TXBUF` byte is found there by the next command, and nothing else changes (R30). -/
def Obligations.TxbufWriteIsReadBack : Prop :=
  ∀ (s : State) (index v : Byte) (rest : List Input), s.hung = false → s.upc = .idle →
    s.inputs = .writeTxbuf index v :: rest →
    ∃ t, step s = .next t ∧ t.txByte index.toNat = v ∧
      (∀ a, a ≠ index.toNat → t.txByte a = s.txByte a) ∧ t = { s with inputs := rest, txbuf := t.txbuf }

/-- What the host's reads return: `RES` (R22), `STATUS` zero-extended (R25), a byte of `RXBUF` zero-extended (R30), and
they change nothing else. That a read leaves its value in `hostData` is the model's form (log entry 4); a byte no command
wrote is a free value (log entry 5). -/
def Obligations.HostReadsSpecialRegisters : Prop :=
  ∀ (s : State) (rest : List Input), s.hung = false → s.upc = .idle →
    (s.inputs = .readRes :: rest → step s = .next { s with inputs := rest, hostData := s.res }) ∧
    (s.inputs = .readStatus :: rest →
      ∃ t, step s = .next t ∧ t = { s with inputs := rest, hostData := t.hostData } ∧ t.hostData.toNat = s.status.toNat) ∧
    ∀ index : Byte, s.inputs = .readRxbuf index :: rest →
      ∃ t, step s = .next t ∧ t = { s with inputs := rest, hostData := t.hostData } ∧
        t.hostData.toNat = (s.rxByte index.toNat).toNat ∧
        ∀ v, readCell s.rxbuf index.toNat = some v → t.hostData.toNat = v.toNat

/-- R12: "The host has no move while `BUSY` = 1": not the presenting of a command, not a read, not a write. -/
def Obligations.HostHasNoMoveWhileBusy : Prop :=
  ∀ (s t : State) (m : Input) (rest : List Input), s.busy = true → m.isHostMove = true → s.inputs = m :: rest →
    step s ≠ .next t

/-! ### Reset (10_state.md R35, 70_reset_and_hazards.md R270, R271) -/

/-- R35's table. -/
def Obligations.ResetStateIsTable : Prop :=
  State.reset.upc = .idle ∧ State.reset.busy = false ∧ State.reset.sclMode = .input ∧ State.reset.sdaMode = .input ∧
  State.reset.owned = false ∧ State.reset.sclOut = true ∧ State.reset.sdaOut = true ∧ State.reset.ackf = false ∧
  State.reset.wasAlive = false ∧ State.reset.err = 0 ∧ State.reset.res = 0 ∧ State.reset.pwmCnt = 0 ∧
  (∀ a, readCell State.reset.txbuf a = none ∧ readCell State.reset.rxbuf a = none) ∧
  State.reset.hung = false ∧ State.reset.cmd = none

/-- Reset, in whatever state it falls, puts the block in the reset state, does nothing on the bus and does not touch the
registers of a chip. The premise about the chips is a clause of the invariant. -/
def Obligations.ResetMoveResetsBlockOnly : Prop :=
  ∀ (s : State) (rest : List Input), s.inputs = .reset :: rest → (∀ c ∈ s.chips, c.seenScl = s.sclLine) →
    ∃ t, step s = .next t ∧
      t = { State.reset with envScl := s.envScl, envSda := s.envSda, envScript := s.envScript, envDraws := s.envDraws,
                             envActs := s.envActs, envTurns := s.envTurns, chips := t.chips, inputs := rest, hostData := s.hostData, trace := s.trace } ∧
      t.chips.length = s.chips.length ∧
      ∀ (n : Nat) (c d : Chip), s.chips[n]? = some c → t.chips[n]? = some d → SameRegisters c d ∧ d.ptr = c.ptr ∧ d.addr = c.addr

/-- A reset that lands after any micro-operation of any command leaves the block in the reset state (U19). -/
def Obligations.ResetInsideCommandResetsBlock : Prop :=
  ∀ (s : State) (w : CmdWord) (k : Nat) (rest : List Input), s.hung = false → s.upc = .idle →
    s.inputs = .writeCmdThenReset w k :: rest →
    ∃ t, step s = .next t ∧ ∃ draws turns : Nat,
      t = { State.reset with envScl := t.envScl, envSda := t.envSda, envScript := s.envScript.drop draws,
                             envDraws := s.envDraws + draws, envActs := s.envActs.drop turns,
                             envTurns := s.envTurns + turns, chips := t.chips, inputs := rest, hostData := s.hostData,
                             trace := t.trace }

/-! ### Refusals (60_exceptions.md) -/

/-- R244: ILLEGAL_CMD, code 1, where no row of R83 matches the word, and only there. -/
def Obligations.IllegalCommandRefused : Prop :=
  ∀ (s : State) (w : CmdWord) (rest : List Input), s.Ready → s.inputs = .writeCmd w :: rest →
    ((∀ r ∈ commandTable, w &&& r.mask ≠ r.pattern) →
      step s = .next { s with err := 1, cmd := none, inputs := rest }) ∧
    (∀ r ∈ commandTable, w &&& r.mask = r.pattern → ∀ t, step s = .next t → t.err ≠ 1)

/-- R245: NOT_OWNED, code 2, for every command that uses the lines; "QDELAY is exempt". -/
def Obligations.NotOwnedRefused : Prop :=
  (∀ (i : Instr) (s : State), s.Ready → s.owned = false → i.needsMaster = true → i.wireByteValue = none →
    exec i s = .next { s with err := 2, cmd := none }) ∧
  ∀ s : State, s.Ready → s.owned = false → ∃ t, exec .qdelay s = .next t ∧ t.err = 0

/-- R246: ALREADY_OWNED, code 3. -/
def Obligations.AlreadyOwnedRefused : Prop :=
  ∀ (i : Instr) (s : State), s.Ready → s.owned = true → i.makesMaster = true →
    exec i s = .next { s with err := 3, cmd := none }

/-- R247: BAD_ADDR, code 4, for a sum above 0x7F, which is not truncated; other commands cannot raise it, and an L1
transaction word with bit `a[7]` set is illegal. -/
def Obligations.BadAddressRefused : Prop :=
  (∀ (i : Instr) (s : State) (chip : Nat), s.Ready → s.owned = true → i.chipOffset = some chip →
    0x7F < Config.params.expBase + chip → exec i s = .next { s with err := 4, cmd := none }) ∧
  (∀ (i : Instr) (s t : State), s.Ready → exec i s = .next t → t.err = 4 →
    ∃ chip, i.chipOffset = some chip ∧ 0x7F < Config.params.expBase + chip) ∧
  (∀ chip : Nat, Config.params.expBase + chip ≤ 0x7F →
    (deviceAddr Config.params chip).toNat = Config.params.expBase + chip) ∧
  ∀ (w : CmdWord) (i : Instr), (w.extractLsb' 28 4).toNat = 1 → w.getLsbD 23 = true → decodeCommand w ≠ .ok i

/-- R248: BAD_COUNT, code 5, for a read count of 0; "A write count of 0 is not refused". -/
def Obligations.BadCountRefused : Prop :=
  (∀ (i : Instr) (s : State), s.Ready → s.owned = true → i.readCount = some 0 →
    exec i s = .next { s with err := 5, cmd := none }) ∧
  ∀ (s : State) (addr7 : Addr7) (rcount : Nat), s.Ready → s.owned = true →
    (∃ t, exec (.writebytes addr7 0) s = .next t ∧ t.err = 0) ∧
    ∃ t, exec (.writethenread addr7 0 (rcount + 1)) s = .next t ∧ t.err = 0

/-- R249: the checks in order, the first that fails decides; and a command is refused whole or executed whole. -/
def Obligations.ChecksInOrder : Prop :=
  ∀ (s : State) (w : CmdWord) (rest : List Input), s.hung = false → s.upc = .idle → s.inputs = .writeCmd w :: rest →
    (s.err ≠ 0 → step s = .next { s with cmd := none, inputs := rest }) ∧
    (s.err = 0 → (∀ i, decodeCommand w ≠ .ok i) → step s = .next { s with err := 1, cmd := none, inputs := rest }) ∧
    (∀ i, s.err = 0 → decodeCommand w = .ok i →
      (i.needsMaster = true → s.owned = false → step s = .next { s with err := 2, cmd := none, inputs := rest }) ∧
      (i.makesMaster = true → s.owned = true → step s = .next { s with err := 3, cmd := none, inputs := rest }) ∧
      (i.needsMaster = true → s.owned = true →
        (∀ chip, i.chipOffset = some chip → 0x7F < Config.params.expBase + chip →
          step s = .next { s with err := 4, cmd := none, inputs := rest }) ∧
        (i.readCount = some 0 → step s = .next { s with err := 5, cmd := none, inputs := rest }))) ∧
    ∀ t, step s = .next t → t.err = s.err ∨ t = { s with err := t.err, cmd := none, inputs := rest }

/-! ### BUS_HANG (60_exceptions.md R243, R252) -/

/-- The causes (a), (b), (c) at one `Q()`, whatever is on the lines: it hangs exactly when the block owns them and has
let the clock go while the wire is low, or needs the data line high and finds it low. -/
def Obligations.QuarterHangsExactlyOnCauses : Prop :=
  ∀ (check : QuarterCheck) (s : State), s.hung = false → s.budget = none →
    let wire := environmentMoves (environmentTurn s)
    ((quarter check s).hung = true ↔
      s.owned = true ∧ (s.sclOut = true ∧ wire.sclLine = false ∨ check ≠ .plain ∧ wire.sdaLine = false)) ∧
    wire.sclLine = (lineContribution s.sclMode s.sclOut && (s.levelAt 0).scl) ∧
    ((quarter check s).hung = true → (quarter check s).upc = s.upc)

/-- The three causes in commands: QDELAY on a stretched clock (a), the second `Q()` of START (b), the third of STOP (c),
each with the state it freezes in. -/
def Obligations.BusHangCausesInCommands : Prop :=
  (∀ s : State, s.Ready → s.owned = true → s.sclOut = true → (s.levelAt 0).scl = false →
    ∃ t, exec .qdelay s = .next t ∧ t.hung = true ∧ t.upc = .at .qdelay 0 ∧ SameLatches s t ∧ SameModes s t ∧
      t.err = s.err ∧ SameResults s t) ∧
  (∀ s : State, s.Ready → s.owned = true → NoChips s → ClockFree s 2 → (s.levelAt 1).sda = false →
    ∃ t, exec .start s = .next t ∧ t.hung = true ∧ t.upc = .at .start 3 ∧ t.BusIdle ∧ SameModes s t ∧
      t.err = s.err ∧ SameResults s t) ∧
  (∀ s : State, s.Ready → s.owned = true → NoChips s → ClockFree s 3 → (s.levelAt 2).sda = false →
    ∃ t, exec .stop s = .next t ∧ t.hung = true ∧ t.upc = .at .stop 5 ∧ t.BusIdle ∧ SameModes s t ∧
      t.err = s.err ∧ SameResults s t)

/-- A command that hangs writes no result, leaves `BUSY` at 1 and the lines owned. -/
def Obligations.HungCommandWritesNoResult : Prop :=
  ∀ (i : Instr) (s t : State), s.Ready → exec i s = .next t → t.hung = true →
    SameResults s t ∧ t.err = s.err ∧ t.busy = true ∧ t.owned = true ∧ ∃ position, t.upc = .at i position

/-- R29 and R252: nothing leaves the error latch or a BUS_HANG but reset. With the latch set every command is refused and
nothing is written; after a BUS_HANG no command runs, and the moves that still have a next state (those of the
environment) leave the block as it is. -/
def Obligations.NothingReturnsButReset : Prop :=
  (∀ (i : Instr) (s : State), s.hung = false → s.upc = .idle → s.err ≠ 0 → exec i s = .next { s with cmd := none }) ∧
  (∀ (i : Instr) (s t : State), s.hung = true → exec i s ≠ .next t) ∧
  ∀ s t : State, (∀ m ∈ s.inputs.head?, m.resets = false) → step s = .next t →
    (s.err ≠ 0 → t.err = s.err) ∧
    (s.hung = true → t.hung = true ∧ t.upc = s.upc ∧ t.err = s.err ∧ t.ackf = s.ackf ∧ SameLatches s t ∧
      SameModes s t ∧ SameResults s t)

/-! ### Layer L0 (40_line_control.md) -/

/-- QDELAY: one `Q()`, no line changes; with the lines not owned it completes whatever the environment does. -/
def Obligations.QdelayCompletes : Prop :=
  ∀ s : State, s.Ready → (s.owned = true → s.sclOut = true → (s.levelAt 0).scl = true) →
    ∃ t, exec .qdelay s = .next t ∧ Completed s t ∧ durationBetween s t = 1 ∧ SameLatches s t ∧ SameModes s t ∧
      t.ackf = s.ackf ∧ SameResults s t ∧ SameHostSide s t

/-- CONSTRUCT: both latches 1, then both lines in OD_OUT, clock before data, no `Q()`; it completes whatever the
environment does. -/
def Obligations.ConstructCompletes : Prop :=
  ∀ s : State, s.Ready → s.owned = false →
    ∃ t, exec .construct s = .next t ∧ Completed s t ∧
      traceSince s t = [.setSdaMode .odOut, .setSclMode .odOut, .setSda true, .setScl true] ∧
      t.BusIdle ∧ t.owned = true ∧ t.ackf = s.ackf ∧ SameResults s t ∧ SameHostSide s t

/-- DESTROY: both lines in INPUT, clock before data; the latches keep their values. -/
def Obligations.DestroyCompletes : Prop :=
  ∀ s : State, s.Ready → s.owned = true →
    ∃ t, exec .destroy s = .next t ∧ Completed s t ∧ traceSince s t = [.setSdaMode .input, .setSclMode .input] ∧
      SameLatches s t ∧ t.sclMode = .input ∧ t.sdaMode = .input ∧ t.owned = false ∧ t.ackf = s.ackf ∧
      SameResults s t ∧ SameHostSide s t

/-! ### Layer L1, primitives (41_i2c_primitives.md) -/

/-- START: "with clock high, pull data low, then pull clock low". -/
def Obligations.StartCompletes : Prop :=
  ∀ s : State, s.Ready → s.owned = true → NoChips s → ClockFree s 4 → DataFree s 1 →
    ∃ t, exec .start s = .next t ∧ Completed s t ∧
      latchWave (traceSince s t) = [(s.sclOut, true), (true, true), (true, false), (false, false)] ∧
      t.sclOut = false ∧ t.sdaOut = false ∧ SameModes s t ∧ t.ackf = s.ackf ∧ SameResults s t ∧ SameHostSide s t

/-- STOP: with the clock high, the data line rises. -/
def Obligations.StopCompletes : Prop :=
  ∀ s : State, s.Ready → s.owned = true → NoChips s → ClockFree s 3 → DataFree s 2 →
    ∃ t, exec .stop s = .next t ∧ Completed s t ∧
      latchWave (traceSince s t) = [(s.sclOut, false), (true, false), (true, true)] ∧
      t.BusIdle ∧ SameModes s t ∧ t.ackf = s.ackf ∧ SameResults s t ∧ SameHostSide s t

/-- WBIT: clock low one quarter-bit, high one, low two; "nothing is sampled" (R134). -/
def Obligations.WbitCompletes : Prop :=
  ∀ (s : State) (b : Bool), s.Ready → s.owned = true → NoChips s → ClockFree s 4 →
    ∃ t, exec (.wbit b) s = .next t ∧ Completed s t ∧
      latchWave (traceSince s t) = [(s.sclOut, b), (true, b), (false, b), (false, b)] ∧
      (∀ v, .sample v ∉ traceSince s t) ∧
      t.sclOut = false ∧ t.sdaOut = b ∧ SameModes s t ∧ t.ackf = s.ackf ∧ SameResults s t ∧ SameHostSide s t

/-- RBIT: clock low one quarter-bit, high two, low one; `RES` is the level sampled at the end of the high time, the fourth
observation. -/
def Obligations.RbitCompletes : Prop :=
  ∀ s : State, s.Ready → s.owned = true → NoChips s → ClockFree s 5 →
    ∃ t, exec .rbit s = .next t ∧ Completed s t ∧
      latchWave (traceSince s t) = [(s.sclOut, true), (true, true), (true, true), (false, true)] ∧
      t.res = (if (s.levelAt 3).sda then 1 else 0) ∧ t.sclOut = false ∧ t.sdaOut = true ∧ SameModes s t ∧
      t.ackf = s.ackf ∧ SameButRes s t ∧ SameHostSide s t

/-- WBYTE: nine clock pulses, the byte most significant bit first, then the acknowledge sample, which is written to `ACKF`
(low is acknowledged) and changes nothing else. -/
def Obligations.WbyteCompletes : Prop :=
  ∀ (s : State) (v : Byte), s.Ready → s.owned = true → NoChips s → ClockFree s 37 →
    ∃ t, exec (.wbyte v) s = .next t ∧ Completed s t ∧
      (s.sclOut = false → framesFrom (false, s.sdaOut) [] (latchWave (traceSince s t)) = [sent v]) ∧
      durationBetween s t = 36 ∧ t.ackf = !(s.levelAt 35).sda ∧ t.sclOut = false ∧ t.sdaOut = true ∧ SameModes s t ∧
      SameResults s t ∧ SameHostSide s t

/-- The wire rows of the opcode table, run on their own: the byte of R84 or R85 sent as WBYTE sends it, and refused as WBYTE
is where the lines are not owned. That a row runs so is the model's choice (log entry 8). -/
def Obligations.WireRowSendsItsByte : Prop :=
  ∀ (i : Instr) (s : State) (v : Byte), i.wireByteValue = some v → s.Ready →
    (s.owned = true → NoChips s → ClockFree s 37 →
      ∃ t, exec i s = .next t ∧ Completed s t ∧
        (s.sclOut = false → framesFrom (false, s.sdaOut) [] (latchWave (traceSince s t)) = [sent v]) ∧
        durationBetween s t = 36 ∧ t.ackf = (!(s.levelAt 35).sda) ∧ t.sclOut = false ∧ t.sdaOut = true ∧
        SameModes s t ∧ SameResults s t ∧ SameHostSide s t) ∧
    (s.owned = false → exec i s = .next { s with err := 2, cmd := none })

/-- RBYTE: eight bits sampled, the first into bit 7 of `RES`; then the master's bit, low to acknowledge and high not
to. -/
def Obligations.RbyteCompletes : Prop :=
  ∀ (s : State) (ack : Bool), s.Ready → s.owned = true → NoChips s → ClockFree s 44 →
    ∃ t, exec (.rbyte ack) s = .next t ∧ Completed s t ∧
      (∀ n < 8, t.res.getLsbD n = (s.levelAt (5 * (7 - n) + 3)).sda) ∧ t.res.toNat < 256 ∧
      (s.sclOut = false → framesFrom (false, s.sdaOut) [] (latchWave (traceSince s t)) = [.byte 0xFF (!ack)]) ∧
      durationBetween s t = 36 ∧ t.sclOut = false ∧ t.sdaOut = (!ack) ∧ SameModes s t ∧ t.ackf = s.ackf ∧
      SameButRes s t ∧ SameHostSide s t

/-! ### Layer L1, transactions (42_i2c_transactions.md) -/

/-- WRITEBYTES: the frame of R87 with the payload of `TXBUF`; `ACKF` is the last byte's acknowledgement. A payload byte the
host never wrote is a free value (log entry 5). -/
def Obligations.WritebytesCompletes : Prop :=
  ∀ (s : State) (addr7 : Addr7) (n : Nat), s.Ready → s.owned = true → NoChips s → ClockFree s (writeDraws n) →
    WriteFree s 0 n →
    ∃ t, exec (.writebytes addr7 n) s = .next t ∧ Completed s t ∧
      (s.BusIdle → masterFrames s t = writeFrame addr7 ((List.range n).map s.txByte)) ∧
      durationBetween s t = 43 + 36 * n ∧ t.ackf = ackAt s (4 + 37 * n) ∧ t.BusIdle ∧ SameModes s t ∧
      SameResults s t ∧ SameHostSide s t

/-- READBYTES: the bytes the wire carried go to `RXBUF` in order from index 0, every later index keeps its byte; `ACKF` is
the address byte's acknowledgement, and what is read does not depend on it. -/
def Obligations.ReadbytesCompletes : Prop :=
  ∀ (s : State) (addr7 : Addr7) (count : Nat), s.Ready → s.owned = true → 0 < count → count < 256 → NoChips s →
    ClockFree s (readDraws count) → ReadFree s 0 count →
    ∃ t, exec (.readbytes addr7 count) s = .next t ∧ Completed s t ∧
      (s.BusIdle → masterFrames s t = readFrame addr7 count) ∧ durationBetween s t = 43 + 36 * count ∧
      (∀ k < count, readCell t.rxbuf k = some (byteAt s (41 + 44 * k))) ∧
      (∀ a ≥ count, readCell t.rxbuf a = readCell s.rxbuf a) ∧ t.ackf = ackAt s 4 ∧ t.BusIdle ∧ SameModes s t ∧
      SameButRxbuf s t ∧ SameHostSide s t

/-- WRITETHENREAD: one transaction with a repeated start between its phases and no stop condition; `ACKF` is the
acknowledgement of the read phase's address byte. -/
def Obligations.WritethenreadCompletes : Prop :=
  ∀ (s : State) (addr7 : Addr7) (wn rcount : Nat), s.Ready → s.owned = true → 0 < rcount → rcount < 256 → NoChips s →
    ClockFree s (writeThenReadDraws wn rcount) → WriteThenReadFree s 0 wn rcount →
    ∃ t, exec (.writethenread addr7 wn rcount) s = .next t ∧ Completed s t ∧
      (s.BusIdle → masterFrames s t = writeThenReadFrame addr7 ((List.range wn).map s.txByte) rcount) ∧
      durationBetween s t = 83 + 36 * (wn + rcount) ∧
      (∀ k < rcount, readCell t.rxbuf k = some (byteAt s (82 + 37 * wn + 44 * k))) ∧
      (∀ a ≥ rcount, readCell t.rxbuf a = readCell s.rxbuf a) ∧ t.ackf = ackAt s (45 + 37 * wn) ∧ t.BusIdle ∧
      SameModes s t ∧ SameButRxbuf s t ∧ SameHostSide s t

/-- READREG: `S, addr_byte(dev,0), A, reg, A, Sr, addr_byte(dev,1), A, data, n, P`; `RES` is the byte read, zero-extended,
acknowledged or not. -/
def Obligations.ReadregCompletes : Prop :=
  ∀ (s : State) (addr7 : Addr7) (reg : Byte), s.Ready → s.owned = true → NoChips s → ClockFree s 166 →
    WriteThenReadFree s 0 1 1 →
    ∃ t, exec (.readreg addr7 reg) s = .next t ∧ Completed s t ∧
      (s.BusIdle → masterFrames s t = writeThenReadFrame addr7 [reg] 1) ∧ durationBetween s t = 155 ∧
      t.res = (byteAt s 119).setWidth 16 ∧ t.ackf = ackAt s 82 ∧ t.BusIdle ∧ SameModes s t ∧ SameButRes s t ∧
      SameHostSide s t

/-- WRITEREG: `S, addr_byte(dev,0), A, reg, A, value, A, P`; `ACKF` is the value byte's acknowledgement. -/
def Obligations.WriteregCompletes : Prop :=
  ∀ (s : State) (addr7 : Addr7) (reg value : Byte), s.Ready → s.owned = true → NoChips s → ClockFree s 118 →
    WriteFree s 0 2 →
    ∃ t, exec (.writereg addr7 reg value) s = .next t ∧ Completed s t ∧
      (s.BusIdle → masterFrames s t = writeFrame addr7 [reg, value]) ∧ durationBetween s t = 115 ∧
      t.ackf = ackAt s 78 ∧ t.BusIdle ∧ SameModes s t ∧ SameResults s t ∧ SameHostSide s t

/-! ### Layer L2 (43_expander.md) -/

/-- XREAD and XGETINV: the register read of `EXP_BASE + chip` with pointer 0x00 and 0x02. -/
def Obligations.ExpanderReadsComplete : Prop :=
  ∀ (s : State) (chip : Nat) (i : Instr) (reg : Byte), (i = .xread chip ∧ reg = 0x00 ∨ i = .xgetinv chip ∧ reg = 0x02) →
    Config.params.expBase + chip ≤ 0x7F → s.Ready → s.owned = true → NoChips s → ClockFree s 166 →
    WriteThenReadFree s 0 1 1 →
    ∃ t, exec i s = .next t ∧ Completed s t ∧
      (s.BusIdle → masterFrames s t = writeThenReadFrame (BitVec.ofNat 7 (Config.params.expBase + chip)) [reg] 1) ∧
      durationBetween s t = 155 ∧ t.res = (byteAt s 119).setWidth 16 ∧ t.ackf = ackAt s 82 ∧ t.BusIdle ∧
      SameModes s t ∧ SameButRes s t ∧ SameHostSide s t

/-- XWRITE, XCONFIG and XSETINV: the register write of `EXP_BASE + chip` with pointer 0x01, 0x03 and 0x02. -/
def Obligations.ExpanderWritesComplete : Prop :=
  ∀ (s : State) (chip : Nat) (v : Byte) (i : Instr) (reg : Byte),
    (i = .xwrite chip v ∧ reg = 0x01 ∨ i = .xconfig chip v ∧ reg = 0x03 ∨ i = .xsetinv chip v ∧ reg = 0x02) →
    Config.params.expBase + chip ≤ 0x7F → s.Ready → s.owned = true → NoChips s → ClockFree s 118 → WriteFree s 0 2 →
    ∃ t, exec i s = .next t ∧ Completed s t ∧
      (s.BusIdle → masterFrames s t = writeFrame (BitVec.ofNat 7 (Config.params.expBase + chip)) [reg, v]) ∧
      durationBetween s t = 115 ∧ t.ackf = ackAt s 78 ∧ t.BusIdle ∧ SameModes s t ∧ SameResults s t ∧
      SameHostSide s t

/-! ### Layer L3 (44_panel.md) -/

/-- PINIT: the eight register writes of `panel_init()` in its own master, whatever the acknowledgements. -/
def Obligations.PinitCompletes : Prop :=
  ∀ s : State, s.Ready → s.owned = false → NoChips s → ClockFree s 944 → (∀ k < 8, WriteFree s (118 * k) 2) →
    ∃ t, exec .pinit s = .next t ∧ Completed s t ∧ masterFrames s t = initFrames ∧ durationBetween s t = 920 ∧
      t.ackf = ackAt s 904 ∧ t.Released ∧ SameResults s t ∧ SameHostSide s t

/-- PCHECK: read chip 2's Polarity-Invert register, write it back with the test bit toggled, read it again; alive iff all
8 bits match; `panel_init()` runs iff alive now and not before. The four rows of R211 are its four cases. -/
def Obligations.PcheckCompletes : Prop :=
  ∀ s : State, s.Ready → s.owned = false → NoChips s →
    let written := byteAt s 119 ^^^ Config.params.aliveTestMask
    let alive := byteAt s 403 == written
    let reinit := alive && !s.wasAlive
    ClockFree s (if reinit then 1394 else 450) → WriteThenReadFree s 0 1 1 → WriteFree s 166 2 →
    WriteThenReadFree s 284 1 1 → (reinit = true → ∀ k < 8, WriteFree s (450 + 118 * k) 2) →
    ∃ t, exec .pcheck s = .next t ∧ Completed s t ∧
      masterFrames s t = chipReadFrame 2 0x02 ++ chipWriteFrame 2 0x02 written ++ chipReadFrame 2 0x02 ++
        (if reinit then initFrames else []) ∧
      durationBetween s t = (if reinit then 1345 else 425) ∧ t.wasAlive = alive ∧ t.res = (if alive then 1 else 0) ∧
      t.ackf = ackAt s (if reinit then 1354 else 366) ∧ t.Released ∧ SameButProbe s t ∧ SameHostSide s t

/-- PBUTTONS: the Input registers of chip 0, then chip 2; `RES` is `i2[6] ++ i2[3] ++ i2[0] ++ i0[6] ++ i0[5]`. -/
def Obligations.PbuttonsCompletes : Prop :=
  ∀ s : State, s.Ready → s.owned = false → NoChips s → ClockFree s 332 → WriteThenReadFree s 0 1 1 →
    WriteThenReadFree s 166 1 1 →
    let i0 := byteAt s 119
    let i2 := byteAt s 285
    ∃ t, exec .pbuttons s = .next t ∧ Completed s t ∧
      masterFrames s t = chipReadFrame 0 0x00 ++ chipReadFrame 2 0x00 ∧ durationBetween s t = 310 ∧
      t.res.getLsbD 4 = i2.getLsbD 6 ∧ t.res.getLsbD 3 = i2.getLsbD 3 ∧ t.res.getLsbD 2 = i2.getLsbD 0 ∧
      t.res.getLsbD 1 = i0.getLsbD 6 ∧ t.res.getLsbD 0 = i0.getLsbD 5 ∧ t.res.toNat < 32 ∧
      t.ackf = ackAt s 248 ∧ t.Released ∧ SameButRes s t ∧ SameHostSide s t

/-- PKNOB: the Input registers of chip 0, then chip 1; `RES` is `(i1 << 4) | (i0 & 0x0F)`. -/
def Obligations.PknobCompletes : Prop :=
  ∀ s : State, s.Ready → s.owned = false → NoChips s → ClockFree s 332 → WriteThenReadFree s 0 1 1 →
    WriteThenReadFree s 166 1 1 →
    ∃ t, exec .pknob s = .next t ∧ Completed s t ∧
      masterFrames s t = chipReadFrame 0 0x00 ++ chipReadFrame 1 0x00 ∧ durationBetween s t = 310 ∧
      t.res = ((byteAt s 285).setWidth 16 <<< 4 ||| (byteAt s 119 &&& 0x0F).setWidth 16) ∧
      t.ackf = ackAt s 248 ∧ t.Released ∧ SameButRes s t ∧ SameHostSide s t

/-- PLEDS: the Output registers of chip 0, then chip 2, with the values `led_regs` gives. -/
def Obligations.PledsCompletes : Prop :=
  ∀ (s : State) (m : Mask5), s.Ready → s.owned = false → NoChips s → ClockFree s 236 → WriteFree s 0 2 →
    WriteFree s 118 2 →
    ∃ t, exec (.pleds m) s = .next t ∧ Completed s t ∧ masterFrames s t = ledFrames m ∧ durationBetween s t = 230 ∧
      t.ackf = ackAt s 196 ∧ t.Released ∧ SameResults s t ∧ SameHostSide s t

/-- PLEDTICK: compare, write as PLEDS does, then advance the counter modulo its period. -/
def Obligations.PledtickCompletes : Prop :=
  ∀ (s : State) (m : Mask5), s.Ready → s.owned = false → NoChips s → ClockFree s 236 → WriteFree s 0 2 →
    WriteFree s 118 2 →
    let onBase := decide (s.pwmCnt < Config.params.pwmBaseThresh)
    let onPressed := decide (s.pwmCnt < Config.params.pwmPressedThresh)
    ∃ t, exec (.pledtick m) s = .next t ∧ Completed s t ∧
      masterFrames s t = ledFrames ((if onBase then 0b11111 else 0b00000) ||| (if onPressed then m else 0b00000)) ∧
      durationBetween s t = 230 ∧ t.pwmCnt = (s.pwmCnt + 1) % Config.params.pwmPeriod ∧
      t.ackf = ackAt s 196 ∧ t.Released ∧ SameButPwm s t ∧ SameHostSide s t

/-! ### Rules about the whole machine -/

/-- R22: only the commands that return a value write `RES`, zero-extended to the width of what they return. -/
def Obligations.ResWrittenOnlyByReturningCommands : Prop :=
  (∀ (i : Instr) (s t : State), exec i s = .next t → i.writesRes = false → t.res = s.res) ∧
  (∀ (i : Instr) (s t : State), exec i s = .next t → (i = .rbit ∨ i = .pcheck) → t.res = s.res ∨ t.res.toNat < 2) ∧
  (∀ (i : Instr) (s t : State), exec i s = .next t → i = .pbuttons → t.res = s.res ∨ t.res.toNat < 32) ∧
  (∀ (i : Instr) (s t : State), exec i s = .next t → i = .pknob → t.res = s.res ∨ t.res.toNat < 4096) ∧
  (∀ (i : Instr) (s t : State), exec i s = .next t →
    ((∃ ack, i = .rbyte ack) ∨ (∃ a r, i = .readreg a r) ∨ (∃ c, i = .xread c) ∨ ∃ c, i = .xgetinv c) →
      t.res = s.res ∨ t.res.toNat < 256) ∧
  State.reset.res = 0

/-- A command that sends no byte leaves `ACKF` alone (R24). -/
def Obligations.AckfWrittenOnlyByByteWrites : Prop :=
  ∀ (i : Instr) (s t : State), exec i s = .next t → i.sendsNoByte = true → t.ackf = s.ackf

/-- `WAS_ALIVE` is written only by PCHECK, `PWM_CNT` only by PLEDTICK, `RXBUF` only by the two commands that read into it and
only below their count, `TXBUF` by no command (R28, R30, R31, R68). -/
def Obligations.PersistentStateWrittenOnlyByItsCommands : Prop :=
  ∀ (i : Instr) (s t : State), exec i s = .next t →
    (i ≠ .pcheck → t.wasAlive = s.wasAlive) ∧
    ((∀ m, i ≠ .pledtick m) → t.pwmCnt = s.pwmCnt) ∧
    (∀ a ≥ i.rxCount, readCell t.rxbuf a = readCell s.rxbuf a) ∧
    SameHostSide s t

/-- Commands of L1 and L2 leave the ownership of the lines as they find it; CONSTRUCT takes it, DESTROY and every panel
command give it up (R118), where the command does not hang and was not refused. -/
def Obligations.OwnershipAfterCommand : Prop :=
  ∀ (i : Instr) (s t : State), s.Ready → exec i s = .next t → t.hung = false → t.err = 0 →
    t.owned = (match i with
      | .construct => true
      | .destroy | .pinit | .pcheck | .pbuttons | .pknob | .pleds _ | .pledtick _ => false
      | _ => s.owned)

/-- R280: the count of `Q()`s of every command that runs to its end, whatever the environment does and whatever is on the
lines; a refused command has none. The counts of the wire rows are the model's (log entry 8). -/
def Obligations.DurationsAreTheTable : Prop :=
  ∀ (i : Instr) (s t : State), s.Ready → exec i s = .next t → t.hung = false →
    (t.err ≠ 0 → durationBetween s t = 0) ∧
    (t.err = 0 → ∀ n, quartersOf i = some n → durationBetween s t = n) ∧
    (t.err = 0 → i = .pcheck → durationBetween s t = if s.wasAlive = false ∧ t.wasAlive = true then 1345 else 425)

/-- R161 and R143: what the master drives does not depend on the environment: not on an acknowledgement, not on whether
any device is there. Two runs of one command from like states of the block, on buses that have nothing in common,
drive the same waveform if both run to their end. PCHECK is left out: it sends back a byte it has read. -/
def Obligations.WaveformDoesNotDependOnEnvironment : Prop :=
  ∀ (i : Instr) (s s' t t' : State), i ≠ .pcheck → s.Ready → s'.Ready → SameLatches s s' → SameModes s s' →
    (∀ k, s'.txByte k = s.txByte k) → s'.pwmCnt = s.pwmCnt →
    exec i s = .next t → exec i s' = .next t' → t.hung = false → t'.hung = false →
    latchWave (traceSince s' t') = latchWave (traceSince s t)

/-- On a bus nobody holds (the ideal pull-up alone) every command ends: none hangs, in any state of the lines. -/
def Obligations.NothingHangsOnFreeBus : Prop :=
  ∀ (i : Instr) (s : State), s.hung = false → s.upc = .idle → s.budget = none → NoChips s →
    (∀ n < observationsOf i, s.levelAt n = ⟨true, true⟩) → ∃ t, exec i s = .next t ∧ t.hung = false ∧ t.upc = .idle

/-- With the ideal pull-up and no device (R62), every command that is not refused completes; no byte sent is acknowledged,
every byte read is 0xFF, whether it goes to `RES` or to `RXBUF`, every bit read is 1, and the probe of PCHECK finds no panel
(R212). Of PCHECK's observations only the 450 of the probe count, since no initialisation follows. -/
def Obligations.AbsentDeviceReadsOnes : Prop :=
  ∀ (i : Instr) (s : State), s.Ready → NoChips s → Accepted i s →
    (∀ n < (if i = .pcheck then 450 else observationsOf i), s.levelAt n = ⟨true, true⟩) →
    ∃ t, exec i s = .next t ∧ Completed s t ∧ (i.sendsNoByte = false → t.ackf = false) ∧
      (i.returnsByte = true → t.res = 0x00FF) ∧ (∀ k < i.rxCount, k < 256 → readCell t.rxbuf k = some 0xFF) ∧
      (i = .rbit → t.res = 1) ∧ (i = .pbuttons → t.res = 0x001F) ∧ (i = .pknob → t.res = 0x0FFF) ∧
      (i = .pcheck → t.res = 0 ∧ t.wasAlive = false)

/-- Every step keeps the invariant. -/
def Obligations.StepKeepsInvariant : Prop := ∀ s t : State, s.Inv → step s = .next t → t.Inv

/-- The reset state meets the invariant. -/
def Obligations.ResetMeetsInvariant : Prop := State.reset.Inv

/-! ### The reference expander (20_memory.md R61, informative) -/

/-- WRITEREG to a reference expander at rest stores the value in the register the pointer selects, and is acknowledged. The
chip's behaviour is general knowledge (R61), how it follows the wires is the model's (log entry 12), and so is what it does
with a pointer above 0x03 (U6; log entry 16). -/
def Obligations.WriteregReachesReferenceExpander : Prop :=
  ∀ (s : State) (c : Chip) (reg value : Byte), s.Ready → s.owned = true → s.BusIdle → OnlyChip s c 118 206 → c.AtRest →
    ∃ t c', exec (.writereg c.addr reg value) s = .next t ∧ Completed s t ∧ t.ackf = true ∧ t.chips = [c'] ∧
      c'.AtRest ∧ c'.addr = c.addr ∧ c'.ext = c.ext ∧ c'.ptr = reg.extractLsb' 0 2 ∧
      c'.out = (if reg.extractLsb' 0 2 = 1 then value else c.out) ∧
      c'.inv = (if reg.extractLsb' 0 2 = 2 then value else c.inv) ∧
      c'.cfg = (if reg.extractLsb' 0 2 = 3 then value else c.cfg)

/-- READREG of a reference expander at rest returns the register the pointer selects, and changes no register. The chip's
behaviour is general knowledge (R61), how it follows the wires is the model's (log entry 12), and so is what it does with a
pointer above 0x03 (U6; log entry 16). -/
def Obligations.ReadregReadsReferenceExpander : Prop :=
  ∀ (s : State) (c : Chip) (reg : Byte), s.Ready → s.owned = true → s.BusIdle → OnlyChip s c 166 285 → c.AtRest →
    ∃ t c', exec (.readreg c.addr reg) s = .next t ∧ Completed s t ∧ t.ackf = true ∧ t.chips = [c'] ∧ c'.AtRest ∧
      c'.addr = c.addr ∧ c'.ext = c.ext ∧ SameRegisters c c' ∧ c'.ptr = reg.extractLsb' 0 2 ∧
      t.res = (if reg.extractLsb' 0 2 = 0 then ((c.out &&& ~~~c.cfg) ||| (c.ext &&& c.cfg)) ^^^ c.inv
               else if reg.extractLsb' 0 2 = 1 then c.out else if reg.extractLsb' 0 2 = 2 then c.inv
               else c.cfg).setWidth 16

/-- R189 against the reference expander: after `XCONFIG k, cfg`, `XSETINV k, inv`, `XWRITE k, v`, the command `XREAD k`
returns `((v & ~cfg) | (ext & cfg)) ^ inv`. The chip's behaviour is general knowledge (R61), and how it follows the wires is the
model's (log entry 12). -/
def Obligations.ExpanderRoundTrip : Prop :=
  ∀ (s : State) (c : Chip) (k : Nat) (cfg inv v : Byte), Config.params.expBase + k ≤ 0x7F →
    c.addr = BitVec.ofNat 7 (Config.params.expBase + k) → s.Ready → s.owned = true → s.BusIdle → OnlyChip s c 520 903 →
    c.AtRest →
    ∃ s1 s2 s3 t, exec (.xconfig k cfg) s = .next s1 ∧ exec (.xsetinv k inv) s1 = .next s2 ∧
      exec (.xwrite k v) s2 = .next s3 ∧ exec (.xread k) s3 = .next t ∧ Completed s t ∧
      t.res = (((v &&& ~~~cfg) ||| (c.ext &&& cfg)) ^^^ inv).setWidth 16

end
end

