-- ==== Sys2Proof/Laws/State.lean ====
section
/-! SUPPORT. One lemma per field and per update of State, so that no later proof unfolds a record update. -/

namespace Sys2Proof.Machine

/-! ### `record` -/

@[simp] theorem record_cmd (e : BusEvent) (s : State) : (record e s).cmd = s.cmd := rfl
@[simp] theorem record_res (e : BusEvent) (s : State) : (record e s).res = s.res := rfl
@[simp] theorem record_upc (e : BusEvent) (s : State) : (record e s).upc = s.upc := rfl
@[simp] theorem record_ackf (e : BusEvent) (s : State) : (record e s).ackf = s.ackf := rfl
@[simp] theorem record_sclOut (e : BusEvent) (s : State) : (record e s).sclOut = s.sclOut := rfl
@[simp] theorem record_sdaOut (e : BusEvent) (s : State) : (record e s).sdaOut = s.sdaOut := rfl
@[simp] theorem record_sclMode (e : BusEvent) (s : State) : (record e s).sclMode = s.sclMode := rfl
@[simp] theorem record_sdaMode (e : BusEvent) (s : State) : (record e s).sdaMode = s.sdaMode := rfl
@[simp] theorem record_wasAlive (e : BusEvent) (s : State) : (record e s).wasAlive = s.wasAlive := rfl
@[simp] theorem record_err (e : BusEvent) (s : State) : (record e s).err = s.err := rfl
@[simp] theorem record_txbuf (e : BusEvent) (s : State) : (record e s).txbuf = s.txbuf := rfl
@[simp] theorem record_rxbuf (e : BusEvent) (s : State) : (record e s).rxbuf = s.rxbuf := rfl
@[simp] theorem record_pwmCnt (e : BusEvent) (s : State) : (record e s).pwmCnt = s.pwmCnt := rfl
@[simp] theorem record_hung (e : BusEvent) (s : State) : (record e s).hung = s.hung := rfl
@[simp] theorem record_envScl (e : BusEvent) (s : State) : (record e s).envScl = s.envScl := rfl
@[simp] theorem record_envSda (e : BusEvent) (s : State) : (record e s).envSda = s.envSda := rfl
@[simp] theorem record_envScript (e : BusEvent) (s : State) : (record e s).envScript = s.envScript := rfl
@[simp] theorem record_envDraws (e : BusEvent) (s : State) : (record e s).envDraws = s.envDraws := rfl
@[simp] theorem record_envActs (e : BusEvent) (s : State) : (record e s).envActs = s.envActs := rfl
@[simp] theorem record_envTurns (e : BusEvent) (s : State) : (record e s).envTurns = s.envTurns := rfl
@[simp] theorem record_chips (e : BusEvent) (s : State) : (record e s).chips = s.chips := rfl
@[simp] theorem record_inputs (e : BusEvent) (s : State) : (record e s).inputs = s.inputs := rfl
@[simp] theorem record_hostData (e : BusEvent) (s : State) : (record e s).hostData = s.hostData := rfl
@[simp] theorem record_trace (e : BusEvent) (s : State) : (record e s).trace = e :: s.trace := rfl
@[simp] theorem record_budget (e : BusEvent) (s : State) : (record e s).budget = s.budget := rfl

/-! ### `settle` -/

@[simp] theorem settle_cmd (s : State) : (settle s).cmd = s.cmd := rfl
@[simp] theorem settle_res (s : State) : (settle s).res = s.res := rfl
@[simp] theorem settle_upc (s : State) : (settle s).upc = s.upc := rfl
@[simp] theorem settle_ackf (s : State) : (settle s).ackf = s.ackf := rfl
@[simp] theorem settle_sclOut (s : State) : (settle s).sclOut = s.sclOut := rfl
@[simp] theorem settle_sdaOut (s : State) : (settle s).sdaOut = s.sdaOut := rfl
@[simp] theorem settle_sclMode (s : State) : (settle s).sclMode = s.sclMode := rfl
@[simp] theorem settle_sdaMode (s : State) : (settle s).sdaMode = s.sdaMode := rfl
@[simp] theorem settle_wasAlive (s : State) : (settle s).wasAlive = s.wasAlive := rfl
@[simp] theorem settle_err (s : State) : (settle s).err = s.err := rfl
@[simp] theorem settle_txbuf (s : State) : (settle s).txbuf = s.txbuf := rfl
@[simp] theorem settle_rxbuf (s : State) : (settle s).rxbuf = s.rxbuf := rfl
@[simp] theorem settle_pwmCnt (s : State) : (settle s).pwmCnt = s.pwmCnt := rfl
@[simp] theorem settle_hung (s : State) : (settle s).hung = s.hung := rfl
@[simp] theorem settle_envScl (s : State) : (settle s).envScl = s.envScl := rfl
@[simp] theorem settle_envSda (s : State) : (settle s).envSda = s.envSda := rfl
@[simp] theorem settle_envScript (s : State) : (settle s).envScript = s.envScript := rfl
@[simp] theorem settle_envDraws (s : State) : (settle s).envDraws = s.envDraws := rfl
@[simp] theorem settle_envActs (s : State) : (settle s).envActs = s.envActs := rfl
@[simp] theorem settle_envTurns (s : State) : (settle s).envTurns = s.envTurns := rfl
@[simp] theorem settle_chips (s : State) : (settle s).chips = s.chips.map (Chip.observe s.sclLine s.sdaLine) := rfl
@[simp] theorem settle_inputs (s : State) : (settle s).inputs = s.inputs := rfl
@[simp] theorem settle_hostData (s : State) : (settle s).hostData = s.hostData := rfl
@[simp] theorem settle_trace (s : State) : (settle s).trace = s.trace := rfl
@[simp] theorem settle_budget (s : State) : (settle s).budget = s.budget := rfl

/-! ### `environmentMoves` -/

@[simp] theorem environmentMoves_cmd (s : State) : (environmentMoves s).cmd = s.cmd := rfl
@[simp] theorem environmentMoves_res (s : State) : (environmentMoves s).res = s.res := rfl
@[simp] theorem environmentMoves_upc (s : State) : (environmentMoves s).upc = s.upc := rfl
@[simp] theorem environmentMoves_ackf (s : State) : (environmentMoves s).ackf = s.ackf := rfl
@[simp] theorem environmentMoves_sclOut (s : State) : (environmentMoves s).sclOut = s.sclOut := rfl
@[simp] theorem environmentMoves_sdaOut (s : State) : (environmentMoves s).sdaOut = s.sdaOut := rfl
@[simp] theorem environmentMoves_sclMode (s : State) : (environmentMoves s).sclMode = s.sclMode := rfl
@[simp] theorem environmentMoves_sdaMode (s : State) : (environmentMoves s).sdaMode = s.sdaMode := rfl
@[simp] theorem environmentMoves_wasAlive (s : State) : (environmentMoves s).wasAlive = s.wasAlive := rfl
@[simp] theorem environmentMoves_err (s : State) : (environmentMoves s).err = s.err := rfl
@[simp] theorem environmentMoves_txbuf (s : State) : (environmentMoves s).txbuf = s.txbuf := rfl
@[simp] theorem environmentMoves_rxbuf (s : State) : (environmentMoves s).rxbuf = s.rxbuf := rfl
@[simp] theorem environmentMoves_pwmCnt (s : State) : (environmentMoves s).pwmCnt = s.pwmCnt := rfl
@[simp] theorem environmentMoves_hung (s : State) : (environmentMoves s).hung = s.hung := rfl
@[simp] theorem environmentMoves_envScl (s : State) : (environmentMoves s).envScl = s.nextLevels.scl := rfl
@[simp] theorem environmentMoves_envSda (s : State) : (environmentMoves s).envSda = s.nextLevels.sda := rfl
@[simp] theorem environmentMoves_envScript (s : State) : (environmentMoves s).envScript = s.envScript.tail := rfl
@[simp] theorem environmentMoves_envDraws (s : State) : (environmentMoves s).envDraws = s.envDraws + 1 := rfl
@[simp] theorem environmentMoves_envActs (s : State) : (environmentMoves s).envActs = s.envActs := rfl
@[simp] theorem environmentMoves_envTurns (s : State) : (environmentMoves s).envTurns = s.envTurns := rfl
@[simp] theorem environmentMoves_inputs (s : State) : (environmentMoves s).inputs = s.inputs := rfl
@[simp] theorem environmentMoves_hostData (s : State) : (environmentMoves s).hostData = s.hostData := rfl
@[simp] theorem environmentMoves_trace (s : State) : (environmentMoves s).trace = s.trace := rfl
@[simp] theorem environmentMoves_budget (s : State) : (environmentMoves s).budget = s.budget := rfl

/-! ### `environmentTurn` -/

@[simp] theorem environmentTurn_cmd (s : State) : (environmentTurn s).cmd = s.cmd := rfl
@[simp] theorem environmentTurn_res (s : State) : (environmentTurn s).res = s.res := rfl
@[simp] theorem environmentTurn_upc (s : State) : (environmentTurn s).upc = s.upc := rfl
@[simp] theorem environmentTurn_ackf (s : State) : (environmentTurn s).ackf = s.ackf := rfl
@[simp] theorem environmentTurn_sclOut (s : State) : (environmentTurn s).sclOut = s.sclOut := rfl
@[simp] theorem environmentTurn_sdaOut (s : State) : (environmentTurn s).sdaOut = s.sdaOut := rfl
@[simp] theorem environmentTurn_sclMode (s : State) : (environmentTurn s).sclMode = s.sclMode := rfl
@[simp] theorem environmentTurn_sdaMode (s : State) : (environmentTurn s).sdaMode = s.sdaMode := rfl
@[simp] theorem environmentTurn_wasAlive (s : State) : (environmentTurn s).wasAlive = s.wasAlive := rfl
@[simp] theorem environmentTurn_err (s : State) : (environmentTurn s).err = s.err := rfl
@[simp] theorem environmentTurn_txbuf (s : State) : (environmentTurn s).txbuf = s.txbuf := rfl
@[simp] theorem environmentTurn_rxbuf (s : State) : (environmentTurn s).rxbuf = s.rxbuf := rfl
@[simp] theorem environmentTurn_pwmCnt (s : State) : (environmentTurn s).pwmCnt = s.pwmCnt := rfl
@[simp] theorem environmentTurn_hung (s : State) : (environmentTurn s).hung = s.hung := rfl
@[simp] theorem environmentTurn_envScript (s : State) : (environmentTurn s).envScript = s.envScript := rfl
@[simp] theorem environmentTurn_envDraws (s : State) : (environmentTurn s).envDraws = s.envDraws := rfl
@[simp] theorem environmentTurn_envActs (s : State) : (environmentTurn s).envActs = s.envActs.tail := rfl
@[simp] theorem environmentTurn_envTurns (s : State) : (environmentTurn s).envTurns = s.envTurns + 1 := rfl
@[simp] theorem environmentTurn_inputs (s : State) : (environmentTurn s).inputs = s.inputs := rfl
@[simp] theorem environmentTurn_hostData (s : State) : (environmentTurn s).hostData = s.hostData := rfl
@[simp] theorem environmentTurn_trace (s : State) : (environmentTurn s).trace = s.trace := rfl
@[simp] theorem environmentTurn_budget (s : State) : (environmentTurn s).budget = s.budget := rfl

/-! ### `raiseBusHang` -/

@[simp] theorem raiseBusHang_cmd (s : State) : (raiseBusHang s).cmd = s.cmd := rfl
@[simp] theorem raiseBusHang_res (s : State) : (raiseBusHang s).res = s.res := rfl
@[simp] theorem raiseBusHang_upc (s : State) : (raiseBusHang s).upc = s.upc := rfl
@[simp] theorem raiseBusHang_ackf (s : State) : (raiseBusHang s).ackf = s.ackf := rfl
@[simp] theorem raiseBusHang_sclOut (s : State) : (raiseBusHang s).sclOut = s.sclOut := rfl
@[simp] theorem raiseBusHang_sdaOut (s : State) : (raiseBusHang s).sdaOut = s.sdaOut := rfl
@[simp] theorem raiseBusHang_sclMode (s : State) : (raiseBusHang s).sclMode = s.sclMode := rfl
@[simp] theorem raiseBusHang_sdaMode (s : State) : (raiseBusHang s).sdaMode = s.sdaMode := rfl
@[simp] theorem raiseBusHang_wasAlive (s : State) : (raiseBusHang s).wasAlive = s.wasAlive := rfl
@[simp] theorem raiseBusHang_err (s : State) : (raiseBusHang s).err = s.err := rfl
@[simp] theorem raiseBusHang_txbuf (s : State) : (raiseBusHang s).txbuf = s.txbuf := rfl
@[simp] theorem raiseBusHang_rxbuf (s : State) : (raiseBusHang s).rxbuf = s.rxbuf := rfl
@[simp] theorem raiseBusHang_pwmCnt (s : State) : (raiseBusHang s).pwmCnt = s.pwmCnt := rfl
@[simp] theorem raiseBusHang_hung (s : State) : (raiseBusHang s).hung = true := rfl
@[simp] theorem raiseBusHang_envScl (s : State) : (raiseBusHang s).envScl = s.envScl := rfl
@[simp] theorem raiseBusHang_envSda (s : State) : (raiseBusHang s).envSda = s.envSda := rfl
@[simp] theorem raiseBusHang_envScript (s : State) : (raiseBusHang s).envScript = s.envScript := rfl
@[simp] theorem raiseBusHang_envDraws (s : State) : (raiseBusHang s).envDraws = s.envDraws := rfl
@[simp] theorem raiseBusHang_envActs (s : State) : (raiseBusHang s).envActs = s.envActs := rfl
@[simp] theorem raiseBusHang_envTurns (s : State) : (raiseBusHang s).envTurns = s.envTurns := rfl
@[simp] theorem raiseBusHang_chips (s : State) : (raiseBusHang s).chips = s.chips := rfl
@[simp] theorem raiseBusHang_inputs (s : State) : (raiseBusHang s).inputs = s.inputs := rfl
@[simp] theorem raiseBusHang_hostData (s : State) : (raiseBusHang s).hostData = s.hostData := rfl
@[simp] theorem raiseBusHang_trace (s : State) : (raiseBusHang s).trace = s.trace := rfl
@[simp] theorem raiseBusHang_budget (s : State) : (raiseBusHang s).budget = s.budget := rfl

/-! ### `beginCommand` -/

@[simp] theorem beginCommand_cmd (i : Instr) (s : State) : (beginCommand i s).cmd = s.cmd := rfl
@[simp] theorem beginCommand_res (i : Instr) (s : State) : (beginCommand i s).res = s.res := rfl
@[simp] theorem beginCommand_upc (i : Instr) (s : State) : (beginCommand i s).upc = .at i 0 := rfl
@[simp] theorem beginCommand_ackf (i : Instr) (s : State) : (beginCommand i s).ackf = s.ackf := rfl
@[simp] theorem beginCommand_sclOut (i : Instr) (s : State) : (beginCommand i s).sclOut = s.sclOut := rfl
@[simp] theorem beginCommand_sdaOut (i : Instr) (s : State) : (beginCommand i s).sdaOut = s.sdaOut := rfl
@[simp] theorem beginCommand_sclMode (i : Instr) (s : State) : (beginCommand i s).sclMode = s.sclMode := rfl
@[simp] theorem beginCommand_sdaMode (i : Instr) (s : State) : (beginCommand i s).sdaMode = s.sdaMode := rfl
@[simp] theorem beginCommand_wasAlive (i : Instr) (s : State) : (beginCommand i s).wasAlive = s.wasAlive := rfl
@[simp] theorem beginCommand_err (i : Instr) (s : State) : (beginCommand i s).err = s.err := rfl
@[simp] theorem beginCommand_txbuf (i : Instr) (s : State) : (beginCommand i s).txbuf = s.txbuf := rfl
@[simp] theorem beginCommand_rxbuf (i : Instr) (s : State) : (beginCommand i s).rxbuf = s.rxbuf := rfl
@[simp] theorem beginCommand_pwmCnt (i : Instr) (s : State) : (beginCommand i s).pwmCnt = s.pwmCnt := rfl
@[simp] theorem beginCommand_hung (i : Instr) (s : State) : (beginCommand i s).hung = s.hung := rfl
@[simp] theorem beginCommand_envScl (i : Instr) (s : State) : (beginCommand i s).envScl = s.envScl := rfl
@[simp] theorem beginCommand_envSda (i : Instr) (s : State) : (beginCommand i s).envSda = s.envSda := rfl
@[simp] theorem beginCommand_envScript (i : Instr) (s : State) : (beginCommand i s).envScript = s.envScript := rfl
@[simp] theorem beginCommand_envDraws (i : Instr) (s : State) : (beginCommand i s).envDraws = s.envDraws := rfl
@[simp] theorem beginCommand_envActs (i : Instr) (s : State) : (beginCommand i s).envActs = s.envActs := rfl
@[simp] theorem beginCommand_envTurns (i : Instr) (s : State) : (beginCommand i s).envTurns = s.envTurns := rfl
@[simp] theorem beginCommand_chips (i : Instr) (s : State) : (beginCommand i s).chips = s.chips := rfl
@[simp] theorem beginCommand_inputs (i : Instr) (s : State) : (beginCommand i s).inputs = s.inputs := rfl
@[simp] theorem beginCommand_hostData (i : Instr) (s : State) : (beginCommand i s).hostData = s.hostData := rfl
@[simp] theorem beginCommand_trace (i : Instr) (s : State) : (beginCommand i s).trace = s.trace := rfl
@[simp] theorem beginCommand_budget (i : Instr) (s : State) : (beginCommand i s).budget = s.budget := rfl

/-! ### `becomeIdle` -/

@[simp] theorem becomeIdle_cmd (s : State) : (becomeIdle s).cmd = none := rfl
@[simp] theorem becomeIdle_res (s : State) : (becomeIdle s).res = s.res := rfl
@[simp] theorem becomeIdle_upc (s : State) : (becomeIdle s).upc = .idle := rfl
@[simp] theorem becomeIdle_ackf (s : State) : (becomeIdle s).ackf = s.ackf := rfl
@[simp] theorem becomeIdle_sclOut (s : State) : (becomeIdle s).sclOut = s.sclOut := rfl
@[simp] theorem becomeIdle_sdaOut (s : State) : (becomeIdle s).sdaOut = s.sdaOut := rfl
@[simp] theorem becomeIdle_sclMode (s : State) : (becomeIdle s).sclMode = s.sclMode := rfl
@[simp] theorem becomeIdle_sdaMode (s : State) : (becomeIdle s).sdaMode = s.sdaMode := rfl
@[simp] theorem becomeIdle_wasAlive (s : State) : (becomeIdle s).wasAlive = s.wasAlive := rfl
@[simp] theorem becomeIdle_err (s : State) : (becomeIdle s).err = s.err := rfl
@[simp] theorem becomeIdle_txbuf (s : State) : (becomeIdle s).txbuf = s.txbuf := rfl
@[simp] theorem becomeIdle_rxbuf (s : State) : (becomeIdle s).rxbuf = s.rxbuf := rfl
@[simp] theorem becomeIdle_pwmCnt (s : State) : (becomeIdle s).pwmCnt = s.pwmCnt := rfl
@[simp] theorem becomeIdle_hung (s : State) : (becomeIdle s).hung = s.hung := rfl
@[simp] theorem becomeIdle_envScl (s : State) : (becomeIdle s).envScl = s.envScl := rfl
@[simp] theorem becomeIdle_envSda (s : State) : (becomeIdle s).envSda = s.envSda := rfl
@[simp] theorem becomeIdle_envScript (s : State) : (becomeIdle s).envScript = s.envScript := rfl
@[simp] theorem becomeIdle_envDraws (s : State) : (becomeIdle s).envDraws = s.envDraws := rfl
@[simp] theorem becomeIdle_envActs (s : State) : (becomeIdle s).envActs = s.envActs := rfl
@[simp] theorem becomeIdle_envTurns (s : State) : (becomeIdle s).envTurns = s.envTurns := rfl
@[simp] theorem becomeIdle_chips (s : State) : (becomeIdle s).chips = s.chips := rfl
@[simp] theorem becomeIdle_inputs (s : State) : (becomeIdle s).inputs = s.inputs := rfl
@[simp] theorem becomeIdle_hostData (s : State) : (becomeIdle s).hostData = s.hostData := rfl
@[simp] theorem becomeIdle_trace (s : State) : (becomeIdle s).trace = s.trace := rfl
@[simp] theorem becomeIdle_budget (s : State) : (becomeIdle s).budget = s.budget := rfl

/-! ### `refused` -/

@[simp] theorem refused_cmd (c : ErrCode) (s : State) : (refused c s).cmd = none := rfl
@[simp] theorem refused_res (c : ErrCode) (s : State) : (refused c s).res = s.res := rfl
@[simp] theorem refused_upc (c : ErrCode) (s : State) : (refused c s).upc = .idle := rfl
@[simp] theorem refused_ackf (c : ErrCode) (s : State) : (refused c s).ackf = s.ackf := rfl
@[simp] theorem refused_sclOut (c : ErrCode) (s : State) : (refused c s).sclOut = s.sclOut := rfl
@[simp] theorem refused_sdaOut (c : ErrCode) (s : State) : (refused c s).sdaOut = s.sdaOut := rfl
@[simp] theorem refused_sclMode (c : ErrCode) (s : State) : (refused c s).sclMode = s.sclMode := rfl
@[simp] theorem refused_sdaMode (c : ErrCode) (s : State) : (refused c s).sdaMode = s.sdaMode := rfl
@[simp] theorem refused_wasAlive (c : ErrCode) (s : State) : (refused c s).wasAlive = s.wasAlive := rfl
@[simp] theorem refused_err (c : ErrCode) (s : State) : (refused c s).err = c.code := rfl
@[simp] theorem refused_txbuf (c : ErrCode) (s : State) : (refused c s).txbuf = s.txbuf := rfl
@[simp] theorem refused_rxbuf (c : ErrCode) (s : State) : (refused c s).rxbuf = s.rxbuf := rfl
@[simp] theorem refused_pwmCnt (c : ErrCode) (s : State) : (refused c s).pwmCnt = s.pwmCnt := rfl
@[simp] theorem refused_hung (c : ErrCode) (s : State) : (refused c s).hung = s.hung := rfl
@[simp] theorem refused_envScl (c : ErrCode) (s : State) : (refused c s).envScl = s.envScl := rfl
@[simp] theorem refused_envSda (c : ErrCode) (s : State) : (refused c s).envSda = s.envSda := rfl
@[simp] theorem refused_envScript (c : ErrCode) (s : State) : (refused c s).envScript = s.envScript := rfl
@[simp] theorem refused_envDraws (c : ErrCode) (s : State) : (refused c s).envDraws = s.envDraws := rfl
@[simp] theorem refused_envActs (c : ErrCode) (s : State) : (refused c s).envActs = s.envActs := rfl
@[simp] theorem refused_envTurns (c : ErrCode) (s : State) : (refused c s).envTurns = s.envTurns := rfl
@[simp] theorem refused_chips (c : ErrCode) (s : State) : (refused c s).chips = s.chips := rfl
@[simp] theorem refused_inputs (c : ErrCode) (s : State) : (refused c s).inputs = s.inputs := rfl
@[simp] theorem refused_hostData (c : ErrCode) (s : State) : (refused c s).hostData = s.hostData := rfl
@[simp] theorem refused_trace (c : ErrCode) (s : State) : (refused c s).trace = s.trace := rfl
@[simp] theorem refused_budget (c : ErrCode) (s : State) : (refused c s).budget = s.budget := rfl

/-! ### Reset -/

@[simp] theorem blockReset_cmd (s : State) : (blockReset s).cmd = none := rfl
@[simp] theorem blockReset_res (s : State) : (blockReset s).res = 0 := rfl
@[simp] theorem blockReset_upc (s : State) : (blockReset s).upc = .idle := rfl
@[simp] theorem blockReset_ackf (s : State) : (blockReset s).ackf = false := rfl
@[simp] theorem blockReset_sclOut (s : State) : (blockReset s).sclOut = true := rfl
@[simp] theorem blockReset_sdaOut (s : State) : (blockReset s).sdaOut = true := rfl
@[simp] theorem blockReset_sclMode (s : State) : (blockReset s).sclMode = .input := rfl
@[simp] theorem blockReset_sdaMode (s : State) : (blockReset s).sdaMode = .input := rfl
@[simp] theorem blockReset_wasAlive (s : State) : (blockReset s).wasAlive = false := rfl
@[simp] theorem blockReset_err (s : State) : (blockReset s).err = 0 := rfl
@[simp] theorem blockReset_txbuf (s : State) : (blockReset s).txbuf = [] := rfl
@[simp] theorem blockReset_rxbuf (s : State) : (blockReset s).rxbuf = [] := rfl
@[simp] theorem blockReset_pwmCnt (s : State) : (blockReset s).pwmCnt = 0 := rfl
@[simp] theorem blockReset_hung (s : State) : (blockReset s).hung = false := rfl
@[simp] theorem blockReset_envScl (s : State) : (blockReset s).envScl = s.envScl := rfl
@[simp] theorem blockReset_envSda (s : State) : (blockReset s).envSda = s.envSda := rfl
@[simp] theorem blockReset_envScript (s : State) : (blockReset s).envScript = s.envScript := rfl
@[simp] theorem blockReset_envDraws (s : State) : (blockReset s).envDraws = s.envDraws := rfl
@[simp] theorem blockReset_envActs (s : State) : (blockReset s).envActs = s.envActs := rfl
@[simp] theorem blockReset_envTurns (s : State) : (blockReset s).envTurns = s.envTurns := rfl
@[simp] theorem blockReset_inputs (s : State) : (blockReset s).inputs = s.inputs := rfl
@[simp] theorem blockReset_hostData (s : State) : (blockReset s).hostData = s.hostData := rfl
@[simp] theorem blockReset_trace (s : State) : (blockReset s).trace = s.trace := rfl
@[simp] theorem blockReset_budget (s : State) : (blockReset s).budget = none := rfl

end Sys2Proof.Machine
end

