-- ==== Sys2Proof/Laws/Micro.lean ====
section
/-! SUPPORT. What a micro-operation can do, said once: what it keeps whatever happens (`Kept`), and what it has done if the
sequencer is still running afterwards (`Ran`). -/

namespace Sys2Proof.Machine

/-! ### Registers no micro-operation touches -/

/-- The registers that change only by a `note`, never by a micro-operation. -/
structure Kept (s t : State) : Prop where
  cmd : t.cmd = s.cmd
  res : t.res = s.res
  wasAlive : t.wasAlive = s.wasAlive
  err : t.err = s.err
  txbuf : t.txbuf = s.txbuf
  rxbuf : t.rxbuf = s.rxbuf
  pwmCnt : t.pwmCnt = s.pwmCnt
  inputs : t.inputs = s.inputs
  hostData : t.hostData = s.hostData

theorem Kept.refl (s : State) : Kept s s := ⟨rfl, rfl, rfl, rfl, rfl, rfl, rfl, rfl, rfl⟩

theorem Kept.trans {s t u : State} (h : Kept s t) (k : Kept t u) : Kept s u :=
  ⟨k.cmd.trans h.cmd, k.res.trans h.res, k.wasAlive.trans h.wasAlive, k.err.trans h.err, k.txbuf.trans h.txbuf,
    k.rxbuf.trans h.rxbuf, k.pwmCnt.trans h.pwmCnt, k.inputs.trans h.inputs, k.hostData.trans h.hostData⟩

/-- An effect that keeps a property of two states keeps it as a micro-operation too, after the environment's turn, if
position and budget do not matter to it. -/
theorem act_induction {R : State → State → Prop} {f : State → State} (s : State) (refl : R s s)
    (h : R s (f (environmentTurn s))) (blind : ∀ t u b, R s t → R s { t with upc := u, budget := b }) : R s (act f s) := by
  unfold act
  split
  · exact refl
  · exact blind _ _ _ h

theorem kept_record (e : BusEvent) {s t : State} (h : Kept s t) : Kept s (record e t) :=
  ⟨h.1, h.2, h.3, h.4, h.5, h.6, h.7, h.8, h.9⟩

theorem kept_settle {s t : State} (h : Kept s t) : Kept s (settle t) :=
  ⟨h.1, h.2, h.3, h.4, h.5, h.6, h.7, h.8, h.9⟩

theorem kept_environmentTurn (s : State) : Kept s (environmentTurn s) := ⟨rfl, rfl, rfl, rfl, rfl, rfl, rfl, rfl, rfl⟩

theorem kept_environmentMoves (s : State) : Kept s (environmentMoves s) := ⟨rfl, rfl, rfl, rfl, rfl, rfl, rfl, rfl, rfl⟩

theorem kept_act {f : State → State} (s : State) (h : ∀ t, Kept t (f t)) : Kept s (act f s) :=
  act_induction (R := Kept) s (.refl s) ((kept_environmentTurn s).trans (h _)) fun _ _ _ h =>
    ⟨h.1, h.2, h.3, h.4, h.5, h.6, h.7, h.8, h.9⟩

theorem kept_setScl (v : Bool) (s : State) : Kept s (setScl v s) :=
  kept_act s fun _ => ⟨rfl, rfl, rfl, rfl, rfl, rfl, rfl, rfl, rfl⟩

theorem kept_setSda (v : Bool) (s : State) : Kept s (setSda v s) :=
  kept_act s fun _ => ⟨rfl, rfl, rfl, rfl, rfl, rfl, rfl, rfl, rfl⟩

theorem kept_setSclMode (m : LineMode) (s : State) : Kept s (setSclMode m s) :=
  kept_act s fun _ => ⟨rfl, rfl, rfl, rfl, rfl, rfl, rfl, rfl, rfl⟩

theorem kept_setSdaMode (m : LineMode) (s : State) : Kept s (setSdaMode m s) :=
  kept_act s fun _ => ⟨rfl, rfl, rfl, rfl, rfl, rfl, rfl, rfl, rfl⟩

/-- What a `Q()` does before its check. -/
def quarterEffect (s : State) : State :=
  let t := environmentMoves s
  record (.quarter t.sclOut t.sdaOut t.sclLine t.sdaLine) t

theorem quarter_eq (c : QuarterCheck) :
    quarter c = act fun s => if busHangs c (quarterEffect s) then raiseBusHang (quarterEffect s) else quarterEffect s :=
  rfl

/-- A property every effect of a `Q()` has, hanging or not, is a property of the `Q()`'s whole effect. -/
theorem quarter_effects {P : State → Prop} (c : QuarterCheck) (s : State) (effect : P (quarterEffect s))
    (hang : P (raiseBusHang (quarterEffect s))) :
    P (if busHangs c (quarterEffect s) then raiseBusHang (quarterEffect s) else quarterEffect s) := by
  split
  · exact hang
  · exact effect

theorem kept_quarterEffect (s : State) : Kept s (quarterEffect s) := kept_record _ (kept_environmentMoves s)

theorem kept_quarter (c : QuarterCheck) (s : State) : Kept s (quarter c s) := by
  rw [quarter_eq]
  refine kept_act s fun t => quarter_effects (P := Kept t) c t (kept_quarterEffect t) ?_
  obtain ⟨h1, h2, h3, h4, h5, h6, h7, h8, h9⟩ := kept_quarterEffect t
  exact ⟨h1, h2, h3, h4, h5, h6, h7, h8, h9⟩

/-- What a sample does to the state. -/
def sampleEffect (s : State) : State := record (.sample (environmentMoves s).sdaLine) (environmentMoves s)

theorem sample_state (s : State) : (sampleSda s).2 = act sampleEffect s := rfl

theorem kept_sample (s : State) : Kept s (sampleSda s).2 :=
  kept_act (f := sampleEffect) s fun t => kept_record _ (kept_environmentMoves t)

/-! ### Latches, modes and `ACKF` -/

/-- The modes and `ACKF`, which no line write, `Q()` or sample touches. -/
structure KeptLines (s t : State) : Prop where
  sclMode : t.sclMode = s.sclMode
  sdaMode : t.sdaMode = s.sdaMode
  ackf : t.ackf = s.ackf

theorem KeptLines.refl (s : State) : KeptLines s s := ⟨rfl, rfl, rfl⟩

theorem KeptLines.trans {s t u : State} (h : KeptLines s t) (k : KeptLines t u) : KeptLines s u :=
  ⟨k.sclMode.trans h.sclMode, k.sdaMode.trans h.sdaMode, k.ackf.trans h.ackf⟩

theorem KeptLines.modes {s t : State} (h : KeptLines s t) : SameModes s t := ⟨h.sclMode, h.sdaMode⟩

theorem KeptLines.owned {s t : State} (h : KeptLines s t) : t.owned = s.owned := by
  simp [State.owned, h.sclMode, h.sdaMode]

theorem keptLines_environmentTurn (s : State) : KeptLines s (environmentTurn s) := ⟨rfl, rfl, rfl⟩

theorem keptLines_act {f : State → State} (s : State) (h : ∀ t, KeptLines t (f t)) : KeptLines s (act f s) :=
  act_induction (R := KeptLines) s (.refl s) ((keptLines_environmentTurn s).trans (h _)) fun _ _ _ h => ⟨h.1, h.2, h.3⟩

theorem keptLines_setScl (v : Bool) (s : State) : KeptLines s (setScl v s) := keptLines_act s fun _ => ⟨rfl, rfl, rfl⟩

theorem keptLines_setSda (v : Bool) (s : State) : KeptLines s (setSda v s) := keptLines_act s fun _ => ⟨rfl, rfl, rfl⟩

theorem keptLines_quarter (c : QuarterCheck) (s : State) : KeptLines s (quarter c s) := by
  rw [quarter_eq]
  exact keptLines_act s fun t => quarter_effects (P := KeptLines t) c t ⟨rfl, rfl, rfl⟩ ⟨rfl, rfl, rfl⟩

theorem keptLines_sample (s : State) : KeptLines s (sampleSda s).2 :=
  keptLines_act (f := sampleEffect) s fun _ => ⟨rfl, rfl, rfl⟩

/-- An effect that leaves the latches alone leaves them alone as a micro-operation. -/
theorem act_latches {f : State → State} (s : State) (h : ∀ t, (f t).sclOut = t.sclOut ∧ (f t).sdaOut = t.sdaOut) :
    (act f s).sclOut = s.sclOut ∧ (act f s).sdaOut = s.sdaOut :=
  act_induction (R := fun s t => t.sclOut = s.sclOut ∧ t.sdaOut = s.sdaOut) s ⟨rfl, rfl⟩ (h (environmentTurn s))
    fun _ _ _ h => h

theorem quarter_latches (c : QuarterCheck) (s : State) :
    (quarter c s).sclOut = s.sclOut ∧ (quarter c s).sdaOut = s.sdaOut := by
  rw [quarter_eq]
  exact act_latches s fun t => quarter_effects
    (P := fun u => u.sclOut = t.sclOut ∧ u.sdaOut = t.sdaOut) c t ⟨rfl, rfl⟩ ⟨rfl, rfl⟩

theorem sample_latches (s : State) :
    (sampleSda s).2.sclOut = s.sclOut ∧ (sampleSda s).2.sdaOut = s.sdaOut :=
  act_latches (f := sampleEffect) s fun _ => ⟨rfl, rfl⟩

/-- A mode write leaves the latches and `ACKF` alone. -/
theorem setSclMode_lines (m : LineMode) (s : State) :
    (setSclMode m s).sclOut = s.sclOut ∧ (setSclMode m s).sdaOut = s.sdaOut ∧ (setSclMode m s).ackf = s.ackf :=
  act_induction (R := fun s t => t.sclOut = s.sclOut ∧ t.sdaOut = s.sdaOut ∧ t.ackf = s.ackf) s ⟨rfl, rfl, rfl⟩
    ⟨rfl, rfl, rfl⟩ fun _ _ _ h => h

theorem setSdaMode_lines (m : LineMode) (s : State) :
    (setSdaMode m s).sclOut = s.sclOut ∧ (setSdaMode m s).sdaOut = s.sdaOut ∧ (setSdaMode m s).ackf = s.ackf :=
  act_induction (R := fun s t => t.sclOut = s.sclOut ∧ t.sdaOut = s.sdaOut ∧ t.ackf = s.ackf) s ⟨rfl, rfl, rfl⟩
    ⟨rfl, rfl, rfl⟩ fun _ _ _ h => h

/-! ### Running and stopping -/

/-- The sequencer runs: not hung, no cut-off in sight. -/
structure Live (s : State) : Prop where
  hung : s.hung = false
  budget : s.budget = none

theorem Live.frozen {s : State} (h : Live s) : s.frozen = false := by simp [State.frozen, h.hung, h.budget]

theorem act_of_live {f : State → State} {s : State} (h : Live s) :
    act f s = { f (environmentTurn s) with
                upc := if (f (environmentTurn s)).hung then s.upc else s.upc.advance, budget := none } := by
  simp [act, h.frozen, h.budget]

theorem note_of_live {f : State → State} {s : State} (h : Live s) : note f s = f s := by simp [note, h.frozen]

/-- Nothing is executed any more once hung (60_exceptions.md R243). -/
theorem act_of_hung {f : State → State} {s : State} (h : s.hung = true) : act f s = s := by simp [act, State.frozen, h]

theorem note_of_hung {f : State → State} {s : State} (h : s.hung = true) : note f s = s := by
  simp [note, State.frozen, h]

/-- An operation that leaves a hung state alone: what runs after it was running before it. -/
theorem running_before {op : State → State} (h : ∀ s, s.hung = true → op s = s) {s : State}
    (hr : (op s).hung = false) : s.hung = false := by
  cases hs : s.hung with
  | false => rfl
  | true => rw [h s hs] at hr; exact absurd hr (by simp [hs])

theorem setScl_of_hung (v : Bool) {s : State} (h : s.hung = true) : setScl v s = s := act_of_hung h
theorem setSda_of_hung (v : Bool) {s : State} (h : s.hung = true) : setSda v s = s := act_of_hung h
theorem setSclMode_of_hung (m : LineMode) {s : State} (h : s.hung = true) : setSclMode m s = s := act_of_hung h
theorem setSdaMode_of_hung (m : LineMode) {s : State} (h : s.hung = true) : setSdaMode m s = s := act_of_hung h
theorem quarter_of_hung (c : QuarterCheck) {s : State} (h : s.hung = true) : quarter c s = s := act_of_hung h
theorem sample_of_hung {s : State} (h : s.hung = true) : (sampleSda s).2 = s :=
  act_of_hung (f := sampleEffect) h

/-! ### What has happened if the sequencer still runs -/

/-- `t` is reached from `s` by micro-operations that made `n` observations of the environment and drove the latch
waveform `wave`, one pair per `Q()`, and the sequencer still runs. -/
structure Ran (s t : State) (n : Nat) (wave : List (Bool × Bool)) : Prop where
  live : Live t
  levels : ∀ m, t.levelAt m = s.levelAt (n + m)
  trace : ∃ new, t.trace = new ++ s.trace ∧ latchWave new = wave

theorem Ran.refl {s : State} (h : Live s) : Ran s s 0 [] := ⟨h, fun m => by rw [Nat.zero_add], [], rfl, rfl⟩

theorem latchWave_append (xs ys : List BusEvent) : latchWave (xs ++ ys) = latchWave ys ++ latchWave xs := by
  simp [latchWave]

theorem Ran.trans {s t u : State} {n m : Nat} {w v : List (Bool × Bool)} (h : Ran s t n w) (k : Ran t u m v) :
    Ran s u (n + m) (w ++ v) := by
  obtain ⟨new, hn, hw⟩ := h.trace
  obtain ⟨new', hn', hw'⟩ := k.trace
  refine ⟨k.live, fun j => ?_, new' ++ new, ?_, ?_⟩
  · rw [k.levels, h.levels, Nat.add_assoc]
  · rw [hn', hn, List.append_assoc]
  · rw [latchWave_append, hw, hw']

theorem levelAt_zero (s : State) : s.levelAt 0 = s.nextLevels := by
  unfold State.levelAt State.nextLevels
  cases s.envScript <;> simp

theorem levelAt_of_script {s t : State} {n : Nat} (hs : t.envScript = s.envScript.drop n)
    (hd : t.envDraws = s.envDraws + n) (m : Nat) : t.levelAt m = s.levelAt (n + m) := by
  unfold State.levelAt
  rw [hs, hd, List.getElem?_drop, Nat.add_assoc]

theorem actsAt_zero (s : State) : s.actsAt 0 = s.nextActs := by
  unfold State.actsAt State.nextActs
  cases s.envActs <;> simp

/-- Every micro-operation takes one turn of the environment. -/
theorem actsAt_environmentTurn (s : State) (n : Nat) : (environmentTurn s).actsAt n = s.actsAt (n + 1) := by
  unfold State.actsAt
  simp [Nat.add_comm, Nat.add_left_comm]

/-- A turn in which the environment does nothing only passes. -/
theorem environmentTurn_still {s : State} (h : s.nextActs = []) :
    environmentTurn s = { s with envActs := s.envActs.tail, envTurns := s.envTurns + 1 } := by
  unfold environmentTurn
  rw [h]
  rfl

/-- A micro-operation whose effect keeps the environment's script and is seen by the monitor as one event. -/
theorem ran_act {f : State → State} {s : State} (hl : Live s) (hh : (act f s).hung = false) {n : Nat} {e : BusEvent}
    (hscript : (f (environmentTurn s)).envScript = s.envScript.drop n)
    (hdraws : (f (environmentTurn s)).envDraws = s.envDraws + n)
    (htrace : (f (environmentTurn s)).trace = e :: s.trace) : Ran s (act f s) n (latchWave [e]) := by
  rw [act_of_live hl] at hh ⊢
  exact ⟨⟨hh, rfl⟩, fun m => levelAt_of_script hscript hdraws m, [e], htrace, rfl⟩

theorem setScl_live {v : Bool} {s : State} (h : Live s) : Live (setScl v s) := by
  unfold setScl; rw [act_of_live h]; exact ⟨h.hung, rfl⟩

theorem setSda_live {v : Bool} {s : State} (h : Live s) : Live (setSda v s) := by
  unfold setSda; rw [act_of_live h]; exact ⟨h.hung, rfl⟩

theorem ran_setScl (v : Bool) {s : State} (h : Live s) :
    Ran s (setScl v s) 0 [] ∧ (setScl v s).sclOut = v ∧ (setScl v s).sdaOut = s.sdaOut := by
  refine ⟨ran_act (e := .setScl v) h (setScl_live h).hung rfl rfl rfl, ?_, ?_⟩ <;>
    (unfold setScl; rw [act_of_live h]; rfl)

theorem ran_setSda (v : Bool) {s : State} (h : Live s) :
    Ran s (setSda v s) 0 [] ∧ (setSda v s).sclOut = s.sclOut ∧ (setSda v s).sdaOut = v := by
  refine ⟨ran_act (e := .setSda v) h (setSda_live h).hung rfl rfl rfl, ?_, ?_⟩ <;>
    (unfold setSda; rw [act_of_live h]; rfl)

theorem setSclMode_live {m : LineMode} {s : State} (h : Live s) : Live (setSclMode m s) := by
  unfold setSclMode; rw [act_of_live h]; exact ⟨h.hung, rfl⟩

theorem setSdaMode_live {m : LineMode} {s : State} (h : Live s) : Live (setSdaMode m s) := by
  unfold setSdaMode; rw [act_of_live h]; exact ⟨h.hung, rfl⟩

theorem ran_setSclMode (m : LineMode) {s : State} (h : Live s) :
    Ran s (setSclMode m s) 0 [] ∧ (setSclMode m s).sclMode = m ∧ (setSclMode m s).sdaMode = s.sdaMode := by
  refine ⟨ran_act (e := .setSclMode m) h (setSclMode_live h).hung rfl rfl rfl, ?_, ?_⟩ <;>
    (unfold setSclMode; rw [act_of_live h]; rfl)

theorem ran_setSdaMode (m : LineMode) {s : State} (h : Live s) :
    Ran s (setSdaMode m s) 0 [] ∧ (setSdaMode m s).sclMode = s.sclMode ∧ (setSdaMode m s).sdaMode = m := by
  refine ⟨ran_act (e := .setSdaMode m) h (setSdaMode_live h).hung rfl rfl rfl, ?_, ?_⟩ <;>
    (unfold setSdaMode; rw [act_of_live h]; rfl)

/-- A `Q()` hangs exactly under R243's condition. -/
theorem quarter_hung (c : QuarterCheck) {s : State} (h : Live s) :
    (quarter c s).hung = busHangs c (quarterEffect (environmentTurn s)) := by
  rw [quarter_eq, act_of_live h]
  dsimp only
  cases busHangs c (quarterEffect (environmentTurn s))
  · simpa [quarterEffect] using h.hung
  · rfl

theorem ran_quarter (c : QuarterCheck) {s : State} (h : Live s) (hh : (quarter c s).hung = false) :
    Ran s (quarter c s) 1 [(s.sclOut, s.sdaOut)] := by
  have hb : busHangs c (quarterEffect (environmentTurn s)) = false := by rw [← quarter_hung c h, hh]
  rw [quarter_eq] at hh ⊢
  have he : (if busHangs c (quarterEffect (environmentTurn s)) then raiseBusHang (quarterEffect (environmentTurn s))
      else quarterEffect (environmentTurn s)) = quarterEffect (environmentTurn s) := by simp [hb]
  exact ran_act (n := 1) (e := .quarter s.sclOut s.sdaOut (environmentMoves (environmentTurn s)).sclLine
    (environmentMoves (environmentTurn s)).sdaLine) h hh
    (by rw [he]; simp [quarterEffect]) (by rw [he]; rfl) (by rw [he]; rfl)

theorem ran_sample {s : State} (h : Live s) : Ran s (sampleSda s).2 1 [] := by
  rw [sample_state]
  have hh : (act sampleEffect s).hung = false := by rw [act_of_live h]; exact h.hung
  exact ran_act (n := 1) (e := .sample (environmentMoves (environmentTurn s)).sdaLine) h hh
    (by simp [sampleEffect]) rfl rfl

/-- The wire levels after the environment has moved (40_line_control.md R114). -/
theorem sclLine_environmentMoves (s : State) :
    (environmentMoves s).sclLine = (lineContribution s.sclMode s.sclOut && (s.levelAt 0).scl) := by
  simp [State.sclLine, levelAt_zero]

theorem sdaLine_noChips {s : State} (h : NoChips s) :
    s.sdaLine = (lineContribution s.sdaMode s.sdaOut && s.envSda) := by
  unfold NoChips at h
  simp [State.sdaLine, h]

/-! ### Chips that are not there stay away -/

theorem noChips_settle {s : State} (h : NoChips s) : NoChips (settle s) := by
  unfold NoChips at h ⊢; simp [h]

/-- The environment brings no chip. -/
theorem noChips_environmentAct (a : EnvAct) {s : State} (h : NoChips s) : NoChips (environmentAct a s) := by
  unfold NoChips at h ⊢
  cases a <;> simp [environmentAct, changeChips, h]

theorem noChips_environmentTurn {s : State} (h : NoChips s) : NoChips (environmentTurn s) := by
  show (s.nextActs.foldl (fun s a => environmentAct a s) s).chips = []
  generalize s.nextActs = as
  induction as generalizing s with
  | nil => exact h
  | cons a as ih => exact ih (noChips_environmentAct a h)

theorem noChips_act {f : State → State} {s : State} (h : NoChips s) (hf : ∀ t, NoChips t → NoChips (f t)) :
    NoChips (act f s) :=
  act_induction (R := fun _ t => NoChips t) s h (hf _ (noChips_environmentTurn h)) fun _ _ _ h => h

theorem noChips_environmentMoves {s : State} (h : NoChips s) : NoChips (environmentMoves s) := by
  unfold environmentMoves; exact noChips_settle h

theorem noChips_setScl (v : Bool) {s : State} (h : NoChips s) : NoChips (setScl v s) :=
  noChips_act h fun t k => noChips_settle (s := { t with sclOut := v }) k

theorem noChips_setSda (v : Bool) {s : State} (h : NoChips s) : NoChips (setSda v s) :=
  noChips_act h fun t k => noChips_settle (s := { t with sdaOut := v }) k

theorem noChips_setSclMode (m : LineMode) {s : State} (h : NoChips s) : NoChips (setSclMode m s) := by
  refine noChips_act h fun t k => ?_
  show (if t.clockEdgeSeen then (settle { t with sclMode := m }).chips else t.chips) = []
  split
  · exact noChips_settle (s := { t with sclMode := m }) k
  · exact k

theorem noChips_setSdaMode (m : LineMode) {s : State} (h : NoChips s) : NoChips (setSdaMode m s) :=
  noChips_act h fun t k => noChips_settle (s := { t with sdaMode := m }) k

theorem noChips_quarter (c : QuarterCheck) {s : State} (h : NoChips s) : NoChips (quarter c s) := by
  refine noChips_act h fun t k => ?_
  dsimp only
  split <;> exact noChips_environmentMoves k

theorem noChips_sample {s : State} (h : NoChips s) : NoChips (sampleSda s).2 :=
  noChips_act (f := sampleEffect) h fun _ k => noChips_environmentMoves k

/-- The value sampled with the data line released and no chip attached is what the other devices let through. -/
theorem sample_value {s : State} (h : Live s) (hc : NoChips s) (ho : s.sdaOut = true) :
    (sampleSda s).1 = (s.levelAt 0).sda := by
  have hc' : NoChips (sampleSda s).2 := noChips_sample hc
  show (sampleSda s).2.sdaLine = _
  rw [sdaLine_noChips hc']
  have hl : (sampleSda s).2.sdaOut = true := (sample_latches s).2.trans ho
  have he : (sampleSda s).2.envSda = (s.levelAt 0).sda := by
    rw [sample_state, act_of_live h, levelAt_zero]; rfl
  rw [hl, he]
  cases (sampleSda s).2.sdaMode <;> simp [lineContribution]

/-! ### When a `Q()` does not hang -/

theorem levelAt_environmentTurn (s : State) (n : Nat) : (environmentTurn s).levelAt n = s.levelAt n := rfl

theorem busHangs_plain (s : State) : busHangs .plain (quarterEffect s) =
    (s.owned && (s.sclOut && !(lineContribution s.sclMode s.sclOut && (s.levelAt 0).scl))) := by
  simp [busHangs, quarterEffect, State.sclLine, State.owned, levelAt_zero]

/-- A plain `Q()` goes on if the clock is not held low. -/
theorem quarter_plain_running {s : State} (h : Live s) (hc : (s.levelAt 0).scl = true) :
    (quarter .plain s).hung = false := by
  rw [quarter_hung _ h, busHangs_plain, levelAt_environmentTurn, hc]
  cases hs : s.sclOut <;> cases hm : s.sclMode <;> simp [lineContribution, State.owned, hs, hm]

/-- No cause of a hang where neither line is held low and the data latch is released. -/
theorem busHangs_free (c : QuarterCheck) {s : State} (hn : NoChips s) (ho : s.sdaOut = true)
    (hc : (s.levelAt 0).scl = true) (hd : (s.levelAt 0).sda = true) : busHangs c (quarterEffect s) = false := by
  have hn' : NoChips (quarterEffect s) := noChips_environmentMoves hn
  have hsda : (quarterEffect s).sdaLine = true := by
    rw [sdaLine_noChips hn']
    simp only [quarterEffect, record_sdaMode, record_sdaOut, record_envSda, environmentMoves_sdaMode,
      environmentMoves_sdaOut, environmentMoves_envSda, ho, ← levelAt_zero, hd]
    cases s.sdaMode <;> rfl
  have hscl : (s.sclOut && !(quarterEffect s).sclLine) = false := by
    simp only [quarterEffect, State.sclLine, record_sclMode, record_sclOut, record_envScl, environmentMoves_sclMode,
      environmentMoves_sclOut, environmentMoves_envScl, ← levelAt_zero, hc]
    cases s.sclOut <;> cases s.sclMode <;> rfl
  have : (quarterEffect s).sclOut = s.sclOut := rfl
  simp [busHangs, hsda, this, hscl]

/-- A `Q()` that checks the data line goes on if neither line is held low and the data latch is released. -/
theorem quarter_checked_running (c : QuarterCheck) {s : State} (h : Live s) (hn : NoChips s) (ho : s.sdaOut = true)
    (hc : (s.levelAt 0).scl = true) (hd : (s.levelAt 0).sda = true) : (quarter c s).hung = false := by
  rw [quarter_hung _ h]
  exact busHangs_free c (noChips_environmentTurn hn) ho hc hd

end Sys2Proof.Machine
end

