-- ==== Sys2Proof/Laws/Procedure.lean ====
section
/-! SUPPORT. Sequences of micro-operations, said once and composed: `Op` states what a procedure keeps, how many
observations it makes, the waveform it drives, the latches it leaves and when it runs to its end. -/

namespace Sys2Proof.Machine

/-- Both latches: clock, data. -/
def State.latches (s : State) : Bool × Bool := (s.sclOut, s.sdaOut)

/-- What is true of a procedure `op` whatever the environment does (`kept`, `ofHung`, `noChips`), what it has done if the
sequencer still runs (`ran`), and when it does still run (`smooth`): it makes `n` observations, of which those in `free`
must find the data line let go; entered with latches `l` it drives `wave l` and leaves `out l`. -/
structure Op (op : State → State) (n : Nat) (free : List Nat) (out : Bool × Bool → Bool × Bool)
    (wave : Bool × Bool → List (Bool × Bool)) (pre : Bool × Bool → Bool) : Prop where
  kept : ∀ s, Kept s (op s)
  ofHung : ∀ s, s.hung = true → op s = s
  noChips : ∀ s, NoChips s → NoChips (op s)
  ran : ∀ s, Live s → (op s).hung = false → Ran s (op s) n (wave s.latches) ∧ (op s).latches = out s.latches
  smooth : ∀ s, Live s → NoChips s → pre s.latches = true → ClockFree s n → (∀ k ∈ free, DataFree s k) →
    (op s).hung = false

/-- One procedure after another. -/
theorem Op.comp {f g : State → State} {n m : Nat} {F G : List Nat} {o o' : Bool × Bool → Bool × Bool}
    {w w' : Bool × Bool → List (Bool × Bool)} {p p' : Bool × Bool → Bool} (hf : Op f n F o w p) (hg : Op g m G o' w' p') :
    Op (fun s => g (f s)) (n + m) (F ++ G.map (n + ·)) (fun l => o' (o l)) (fun l => w l ++ w' (o l))
      (fun l => p l && p' (o l)) where
  kept s := (hf.kept s).trans (hg.kept _)
  ofHung s h := by rw [hf.ofHung s h, hg.ofHung s h]
  noChips s h := hg.noChips _ (hf.noChips s h)
  ran s hl hr := by
    have hfr : (f s).hung = false := running_before (op := g) hg.ofHung hr
    obtain ⟨h1, h2⟩ := hf.ran s hl hfr
    obtain ⟨h3, h4⟩ := hg.ran _ h1.live hr
    rw [h2] at h3 h4
    exact ⟨h1.trans h3, h4⟩
  smooth s hl hn hp hc hd := by
    rw [Bool.and_eq_true] at hp
    have h1 : (f s).hung = false :=
      hf.smooth s hl hn hp.1 (fun k hk => hc k (by omega)) fun k hk => hd k (by simp [hk])
    obtain ⟨h2, h3⟩ := hf.ran s hl h1
    refine hg.smooth _ h2.live (hf.noChips s hn) (by rw [h3]; exact hp.2) (fun k hk => ?_) fun k hk => ?_
    · rw [h2.levels]; exact hc _ (by omega)
    · unfold DataFree; rw [h2.levels]; exact hd _ (by simp [hk])

/-- The same facts about a procedure under other names of its parts. -/
theorem Op.cast {op op' : State → State} {n n' : Nat} {F F' : List Nat} {o o' : Bool × Bool → Bool × Bool}
    {w w' : Bool × Bool → List (Bool × Bool)} {p p' : Bool × Bool → Bool} (h : Op op n F o w p) (hop : op' = op)
    (hn : n' = n) (hF : F' = F) (ho : ∀ l, o' l = o l) (hw : ∀ l, w' l = w l) (hp : ∀ l, p' l = p l) :
    Op op' n' F' o' w' p' := by
  obtain rfl := funext ho
  obtain rfl := funext hw
  obtain rfl := funext hp
  subst hop hn hF
  exact h

theorem Op.id : Op (fun s => s) 0 [] (fun l => l) (fun _ => []) (fun _ => true) where
  kept := Kept.refl
  ofHung _ _ := rfl
  noChips _ h := h
  ran _ hl _ := ⟨.refl hl, rfl⟩
  smooth _ hl _ _ _ _ := hl.hung

theorem Op.setScl (v : Bool) : Op (setScl v) 0 [] (fun l => (v, l.2)) (fun _ => []) (fun _ => true) where
  kept := kept_setScl v
  ofHung _ := setScl_of_hung v
  noChips _ := noChips_setScl v
  ran s hl _ := by
    obtain ⟨h1, h2, h3⟩ := ran_setScl v hl
    exact ⟨h1, by simp [State.latches, h2, h3]⟩
  smooth _ hl _ _ _ _ := (setScl_live hl).hung

theorem Op.setSda (v : Bool) : Op (setSda v) 0 [] (fun l => (l.1, v)) (fun _ => []) (fun _ => true) where
  kept := kept_setSda v
  ofHung _ := setSda_of_hung v
  noChips _ := noChips_setSda v
  ran s hl _ := by
    obtain ⟨h1, h2, h3⟩ := ran_setSda v hl
    exact ⟨h1, by simp [State.latches, h2, h3]⟩
  smooth _ hl _ _ _ _ := (setSda_live hl).hung

theorem quarter_ran_latches (c : QuarterCheck) (s : State) (hl : Live s) (hr : (quarter c s).hung = false) :
    Ran s (quarter c s) 1 [s.latches] ∧ (quarter c s).latches = s.latches := by
  refine ⟨ran_quarter c hl hr, ?_⟩
  simp [State.latches, quarter_latches c s]

theorem Op.quarter : Op (quarter .plain) 1 [] (fun l => l) (fun l => [l]) (fun _ => true) where
  kept := kept_quarter _
  ofHung _ := quarter_of_hung _
  noChips _ := noChips_quarter _
  ran := quarter_ran_latches _
  smooth _ hl _ _ hc _ := quarter_plain_running hl (hc 0 (by omega))

theorem Op.quarterChecked (c : QuarterCheck) : Op (Machine.quarter c) 1 [0] (fun l => l) (fun l => [l]) (fun l => l.2) where
  kept := kept_quarter _
  ofHung _ := quarter_of_hung _
  noChips _ := noChips_quarter _
  ran := quarter_ran_latches _
  smooth _ hl hn hp hc hd := quarter_checked_running c hl hn hp (hc 0 (by omega)) (hd 0 (by simp))

theorem Op.sample : Op (fun s => (sampleSda s).2) 1 [] (fun l => l) (fun _ => []) (fun _ => true) where
  kept := kept_sample
  ofHung _ := sample_of_hung
  noChips _ := noChips_sample
  ran s hl _ := ⟨ran_sample hl, by simp [State.latches, sample_latches s]⟩
  smooth _ hl _ _ _ _ := (ran_sample hl).live.hung

/-! ### The procedures of layers L0 and L1 -/

theorem op_start : Op start 4 [1] (fun _ => (false, false))
    (fun l => [(l.1, true), (true, true), (true, false), (false, false)]) (fun _ => true) :=
  (((((((Op.setSda true).comp .quarter).comp (.setScl true)).comp (.quarterChecked .startSecond)).comp
    (.setSda false)).comp .quarter).comp (.setScl false)).comp .quarter |>.cast rfl rfl rfl (fun _ => rfl) (fun _ => rfl)
    fun _ => rfl

theorem op_stop : Op stop 3 [2] (fun _ => (true, true))
    (fun l => [(l.1, false), (true, false), (true, true)]) (fun _ => true) :=
  (((((Op.setSda false).comp .quarter).comp (.setScl true)).comp .quarter).comp (.setSda true)).comp
    (.quarterChecked .stopThird) |>.cast rfl rfl rfl (fun _ => rfl) (fun _ => rfl) fun _ => rfl

/-- The waveform of `wbit(b)` entered with the clock latch at `c` (41_i2c_primitives.md R134). -/
def bitWave (c b : Bool) : List (Bool × Bool) := [(c, b), (true, b), (false, b), (false, b)]

theorem op_wbit (b : Bool) : Op (wbit b) 4 [] (fun _ => (false, b)) (fun l => bitWave l.1 b) (fun _ => true) :=
  ((((((Op.setSda b).comp .quarter).comp (.setScl true)).comp .quarter).comp (.setScl false)).comp .quarter).comp .quarter
    |>.cast rfl rfl rfl (fun _ => rfl) (fun _ => rfl) fun _ => rfl

/-- What `rbit()` does up to its sample. -/
def rbitLead (s : State) : State := s |> setSda true |> quarter .plain |> setScl true |> quarter .plain |> quarter .plain

theorem op_rbitLead : Op rbitLead 3 [] (fun _ => (true, true)) (fun l => [(l.1, true), (true, true), (true, true)])
    (fun _ => true) :=
  ((((Op.setSda true).comp .quarter).comp (.setScl true)).comp .quarter).comp .quarter
    |>.cast rfl rfl rfl (fun _ => rfl) (fun _ => rfl) fun _ => rfl

/-- The waveform of `rbit()` entered with the clock latch at `c` (R136). -/
def readWave (c : Bool) : List (Bool × Bool) := [(c, true), (true, true), (true, true), (false, true)]

theorem op_rbit : Op (fun s => (rbit s).2) 5 [] (fun _ => (false, true)) (fun l => readWave l.1) (fun _ => true) :=
  ((op_rbitLead.comp .sample).comp (.setScl false)).comp .quarter |>.cast rfl rfl rfl (fun _ => rfl) (fun _ => rfl)
    fun _ => rfl

/-- The bit read is what the environment lets through at the fourth observation (R136). -/
theorem rbit_value {s : State} (hl : Live s) (hn : NoChips s) (hr : (rbit s).2.hung = false) :
    (rbit s).1 = (s.levelAt 3).sda := by
  have h1 : (rbitLead s).hung = false :=
    running_before (op := fun s => quarter .plain (setScl false (sampleSda s).2))
      (((Op.sample.comp (.setScl false)).comp .quarter).ofHung) hr
  obtain ⟨h2, h3⟩ := op_rbitLead.ran s hl h1
  have := sample_value h2.live (op_rbitLead.noChips s hn) (congrArg Prod.snd h3)
  rw [h2.levels] at this
  exact this

/-- The waveform of bits written one after the other. -/
def bitsWave : Bool → List Bool → List (Bool × Bool)
  | _, [] => []
  | c, b :: bs => bitWave c b ++ bitsWave false bs

theorem op_wbits (bs : List Bool) : Op (wbits bs) (4 * bs.length) []
    (fun l => if bs = [] then l else (false, bs.getLastD false)) (fun l => bitsWave l.1 bs) (fun _ => true) := by
  induction bs with
  | nil => exact Op.id
  | cons b bs ih =>
    refine (op_wbit b).comp ih |>.cast rfl (by simp; omega) rfl (fun l => ?_) (fun _ => rfl) fun _ => rfl
    cases bs with
    | nil => rfl
    | cons c cs => simp

theorem op_setAckf (a : Bool) : Op (setAckf a) 0 [] (fun l => l) (fun _ => []) (fun _ => true) where
  kept s := by unfold setAckf note; split <;> exact ⟨rfl, rfl, rfl, rfl, rfl, rfl, rfl, rfl, rfl⟩
  ofHung _ := note_of_hung
  noChips s h := by unfold setAckf note; split <;> exact h
  ran s hl _ := by
    unfold setAckf
    rw [note_of_live hl]
    exact ⟨⟨⟨hl.hung, hl.budget⟩, fun m => by rw [Nat.zero_add]; rfl, [], rfl, rfl⟩, rfl⟩
  smooth s hl _ _ _ _ := by unfold setAckf; rw [note_of_live hl]; exact hl.hung

/-- The waveform of `wbyte(v)` entered with the clock latch at `c`: eight bits and the released acknowledge bit (R138). -/
def byteWave (c : Bool) (v : Byte) : List (Bool × Bool) := bitsWave c (bitsMsbFirst v) ++ readWave false

theorem op_wbyte (v : Byte) : Op (wbyte v) 37 [] (fun _ => (false, true)) (fun l => byteWave l.1 v) (fun _ => true) := by
  have h := (op_wbits (bitsMsbFirst v)).comp op_rbit
  refine
    { kept := fun s => (h.kept s).trans ((op_setAckf _).kept _)
      ofHung := fun s hs => ?_
      noChips := fun s hs => (op_setAckf _).noChips _ (h.noChips s hs)
      ran := fun s hl hr => ?_
      smooth := fun s hl hn _ hc hd => ?_ }
  · have := h.ofHung s hs
    show setAckf _ (rbit (wbits (bitsMsbFirst v) s)).2 = s
    rw [show (rbit (wbits (bitsMsbFirst v) s)).2 = s from this]
    exact note_of_hung hs
  · have hr' := running_before (op := setAckf (rbit (wbits (bitsMsbFirst v) s)).1) (op_setAckf _).ofHung hr
    obtain ⟨h1, h2⟩ := h.ran s hl hr'
    obtain ⟨h3, h4⟩ := (op_setAckf (rbit (wbits (bitsMsbFirst v) s)).1).ran _ h1.live hr
    have h5 := h1.trans h3
    rw [List.append_nil] at h5
    exact ⟨h5, h4.trans h2⟩
  · have h1 := h.smooth s hl hn rfl hc (by simp)
    obtain ⟨h2, _⟩ := h.ran s hl h1
    exact (op_setAckf _).smooth _ h2.live (h.noChips s hn) rfl (by intro k hk; omega) (by simp)

/-- The acknowledgement a byte write leaves in `ACKF` (R138). -/
theorem wbyte_ackf (v : Byte) {s : State} (hl : Live s) (hn : NoChips s) (hr : (wbyte v s).hung = false) :
    (wbyte v s).ackf = ackAt s 0 := by
  have hr1 : (rbit (wbits (bitsMsbFirst v) s)).2.hung = false := running_before (op_setAckf _).ofHung hr
  have hr2 : (wbits (bitsMsbFirst v) s).hung = false := running_before (op := fun s => (rbit s).2) op_rbit.ofHung hr1
  obtain ⟨h1, _⟩ := (op_wbits (bitsMsbFirst v)).ran s hl hr2
  have h2 := rbit_value h1.live ((op_wbits _).noChips s hn) hr1
  obtain ⟨h3, _⟩ := op_rbit.ran _ h1.live hr1
  show (setAckf _ _).ackf = _
  unfold setAckf
  rw [note_of_live h3.live, h2, h1.levels]
  rfl

theorem op_rbits (n : Nat) (v : Byte) : Op (fun s => (rbits n v s).2) (5 * n) [] (fun l => if n = 0 then l else (false, true))
    (fun l => match n with
      | 0 => []
      | n + 1 => readWave l.1 ++ (List.replicate n (readWave false)).flatten) (fun _ => true) := by
  suffices h : ∀ (n : Nat), ∃ w : Bool × Bool → List (Bool × Bool),
      (∀ l, w l = match n with
        | 0 => []
        | n + 1 => readWave l.1 ++ (List.replicate n (readWave false)).flatten) ∧
      (∀ v, (∀ s, Kept s (rbits n v s).2) ∧ (∀ s, s.hung = true → (rbits n v s).2 = s) ∧
        (∀ s, NoChips s → NoChips (rbits n v s).2) ∧
        (∀ s, Live s → (rbits n v s).2.hung = false → Ran s (rbits n v s).2 (5 * n) (w s.latches) ∧
          (rbits n v s).2.latches = if n = 0 then s.latches else (false, true)) ∧
        (∀ s, Live s → NoChips s → ClockFree s (5 * n) → (rbits n v s).2.hung = false)) by
    obtain ⟨w, hw, hv⟩ := h n
    obtain ⟨h1, h2, h3, h4, h5⟩ := hv v
    exact ⟨h1, h2, h3, fun s hl hr => by rw [← hw]; exact h4 s hl hr, fun s hl hn _ hc _ => h5 s hl hn hc⟩
  intro n
  induction n with
  | zero =>
    refine ⟨fun _ => [], fun _ => rfl, fun v => ⟨Kept.refl, fun _ _ => rfl, fun _ h => h, fun s hl _ => ⟨.refl hl, rfl⟩,
      fun s hl _ _ => hl.hung⟩⟩
  | succ n ih =>
    obtain ⟨w, hw, hv⟩ := ih
    refine ⟨fun l => readWave l.1 ++ w (false, true), fun l => ?_, fun v => ⟨fun s => ?_, fun s h => ?_, fun s h => ?_,
      fun s hl hr => ?_, fun s hl hn hc => ?_⟩⟩
    · rw [hw]; cases n <;> simp [List.replicate_succ]
    · exact (op_rbit.kept s).trans ((hv _).1 _)
    · show (rbits n (shiftIn v (rbit s).1) (rbit s).2).2 = s
      rw [(hv _).2.1 _ (by rw [op_rbit.ofHung s h]; exact h)]
      exact op_rbit.ofHung s h
    · exact (hv _).2.2.1 _ (op_rbit.noChips s h)
    · have hr1 : (rbit s).2.hung = false := running_before ((hv (shiftIn v (rbit s).1)).2.1) hr
      obtain ⟨h1, h2⟩ := op_rbit.ran s hl hr1
      obtain ⟨h3, h4⟩ := (hv (shiftIn v (rbit s).1)).2.2.2.1 _ h1.live hr
      rw [h2] at h3 h4
      refine ⟨(by rw [show 5 * (n + 1) = 5 + 5 * n by omega]; exact h1.trans h3), h4.trans ?_⟩
      simp
    · have hr1 := op_rbit.smooth s hl hn rfl (fun k hk => hc k (by omega)) (by simp)
      obtain ⟨h1, _⟩ := op_rbit.ran s hl hr1
      exact (hv _).2.2.2.2 _ h1.live (op_rbit.noChips s hn) fun k hk => by rw [h1.levels]; exact hc _ (by omega)

/-- The bits read one after the other. -/
theorem rbits_value (n : Nat) (v : Byte) {s : State} (hl : Live s) (hn : NoChips s) (hr : (rbits n v s).2.hung = false) :
    (rbits n v s).1 = ((List.range n).map fun j => (s.levelAt (5 * j + 3)).sda).foldl shiftIn v := by
  induction n generalizing v s with
  | zero => rfl
  | succ n ih =>
    have hr1 : (rbit s).2.hung = false := running_before (op := fun s => (rbits n (shiftIn v (rbit _).1) s).2)
      ((op_rbits n _).ofHung) hr
    obtain ⟨h1, _⟩ := op_rbit.ran s hl hr1
    have h2 := ih (shiftIn v (rbit s).1) h1.live (op_rbit.noChips s hn) hr
    show (rbits n (shiftIn v (rbit s).1) (rbit s).2).1 = _
    rw [h2, rbit_value hl hn hr1, List.range_succ_eq_map]
    simp only [List.map_cons, List.map_map, List.foldl_cons, Nat.mul_zero, Nat.zero_add]
    congr 1
    apply List.map_congr_left
    intro j _
    rw [h1.levels]
    show (s.levelAt (5 + (5 * j + 3))).sda = (s.levelAt (5 * (j + 1) + 3)).sda
    rw [show 5 + (5 * j + 3) = 5 * (j + 1) + 3 by omega]

/-- The waveform of `rbyte(ack)` entered with the clock latch at `c`: eight bit reads and the master's answer (R140). -/
def byteReadWave (c ack : Bool) : List (Bool × Bool) :=
  readWave c ++ (List.replicate 7 (readWave false)).flatten ++ bitWave false (!ack)

theorem rbyte_state (ack : Bool) (s : State) : (rbyte ack s).2 = wbit (!ack) (rbits 8 0 s).2 := by
  dsimp only [rbyte]

theorem rbyte_byte (ack : Bool) (s : State) : (rbyte ack s).1 = (rbits 8 0 s).1 := by
  dsimp only [rbyte]

theorem op_rbyte (ack : Bool) : Op (fun s => (rbyte ack s).2) 44 [] (fun _ => (false, !ack))
    (fun l => byteReadWave l.1 ack) (fun _ => true) := by
  have h := (op_rbits 8 0).comp (op_wbit (!ack))
  refine h.cast ?_ (by decide) rfl (fun _ => by simp) (fun l => ?_) fun _ => rfl
  · funext s
    rw [rbyte_state]
  · simp [byteReadWave]

/-- The byte read is the environment's (R140). -/
theorem rbyte_value (ack : Bool) {s : State} (hl : Live s) (hn : NoChips s) (hr : (rbyte ack s).2.hung = false) :
    (rbyte ack s).1 = byteAt s 0 := by
  rw [rbyte_state] at hr
  have hr1 : (rbits 8 0 s).2.hung = false := running_before (op := wbit (!ack)) (op_wbit _).ofHung hr
  rw [rbyte_byte, rbits_value 8 0 hl hn hr1]
  simp only [byteAt, byteOfMsbFirst, Nat.zero_add]
  rfl

/-! ### Modes and `ACKF` -/

theorem keptLines_start (s : State) : KeptLines s (start s) :=
  (keptLines_setSda _ _).trans <| (keptLines_quarter _ _).trans <| (keptLines_setScl _ _).trans <|
    (keptLines_quarter _ _).trans <| (keptLines_setSda _ _).trans <| (keptLines_quarter _ _).trans <|
    (keptLines_setScl _ _).trans (keptLines_quarter _ _)

theorem keptLines_stop (s : State) : KeptLines s (stop s) :=
  (keptLines_setSda _ _).trans <| (keptLines_quarter _ _).trans <| (keptLines_setScl _ _).trans <|
    (keptLines_quarter _ _).trans <| (keptLines_setSda _ _).trans (keptLines_quarter _ _)

theorem keptLines_wbit (b : Bool) (s : State) : KeptLines s (wbit b s) :=
  (keptLines_setSda _ _).trans <| (keptLines_quarter _ _).trans <| (keptLines_setScl _ _).trans <|
    (keptLines_quarter _ _).trans <| (keptLines_setScl _ _).trans <| (keptLines_quarter _ _).trans (keptLines_quarter _ _)

theorem keptLines_rbit (s : State) : KeptLines s (rbit s).2 :=
  (keptLines_setSda _ _).trans <| (keptLines_quarter _ _).trans <| (keptLines_setScl _ _).trans <|
    (keptLines_quarter _ _).trans <| (keptLines_quarter _ _).trans <| (keptLines_sample _).trans <|
    (keptLines_setScl _ _).trans (keptLines_quarter _ _)

theorem keptLines_wbits (bs : List Bool) (s : State) : KeptLines s (wbits bs s) := by
  induction bs generalizing s with
  | nil => exact .refl s
  | cons b bs ih => exact (keptLines_wbit b s).trans (ih _)

theorem keptLines_rbits (n : Nat) (v : Byte) (s : State) : KeptLines s (rbits n v s).2 := by
  induction n generalizing v s with
  | zero => exact .refl s
  | succ n ih => exact (keptLines_rbit s).trans (ih _ _)

theorem keptLines_rbyte (ack : Bool) (s : State) : KeptLines s (rbyte ack s).2 := by
  rw [rbyte_state]
  exact (keptLines_rbits 8 0 s).trans (keptLines_wbit _ _)

theorem SameModes.trans {s t u : State} (h : SameModes s t) (k : SameModes t u) : SameModes s u :=
  ⟨k.1.trans h.1, k.2.trans h.2⟩

theorem sameModes_setAckf (a : Bool) (s : State) : SameModes s (setAckf a s) := by
  unfold setAckf note; split <;> exact ⟨rfl, rfl⟩

theorem sameModes_wbyte (v : Byte) (s : State) : SameModes s (wbyte v s) :=
  ((keptLines_wbits _ _).trans (keptLines_rbit _)).modes.trans (sameModes_setAckf _ _)

end Sys2Proof.Machine
end

