-- ==== Sys2Proof/Laws/Transaction.lean ====
section
/-! SUPPORT. The transactions of 42_i2c_transactions.md as `Op`s, the bytes they read and the acknowledgement they leave. -/

namespace Sys2Proof.Machine

/-- Observations of the environment after a procedure are the later ones before it. -/
theorem byteAt_ran {s t : State} {n : Nat} {w : List (Bool × Bool)} (h : Ran s t n w) (o : Nat) :
    byteAt t o = byteAt s (n + o) := by
  unfold byteAt
  congr 1
  apply List.map_congr_left
  intro j _
  rw [h.levels]
  congr 2
  omega

theorem ackAt_ran {s t : State} {n : Nat} {w : List (Bool × Bool)} (h : Ran s t n w) (o : Nat) :
    ackAt t o = ackAt s (n + o) := by
  unfold ackAt
  rw [h.levels]
  congr 3

/-! ### Bytes written and read in a row -/

theorem wbytes_nil (s : State) : wbytes [] s = s := by dsimp only [wbytes]

theorem wbytes_cons (v : Byte) (vs : List Byte) (s : State) : wbytes (v :: vs) s = wbytes vs (wbyte v s) := by
  dsimp only [wbytes]

theorem rbytes_zero (s : State) : rbytes 0 s = ([], s) := by dsimp only [rbytes]

theorem rbytes_succ (n : Nat) (s : State) :
    rbytes (n + 1) s =
      ((rbyte (n != 0) s).1 :: (rbytes n (rbyte (n != 0) s).2).1, (rbytes n (rbyte (n != 0) s).2).2) := by
  dsimp only [rbytes]

/-- The waveform of bytes written one after the other. -/
def bytesWave : Bool → List Byte → List (Bool × Bool)
  | _, [] => []
  | c, v :: vs => byteWave c v ++ bytesWave false vs

theorem op_wbytes (vs : List Byte) : Op (wbytes vs) (37 * vs.length) []
    (fun l => if vs = [] then l else (false, true)) (fun l => bytesWave l.1 vs) (fun _ => true) := by
  induction vs with
  | nil => exact Op.id
  | cons v vs ih =>
    refine (op_wbyte v).comp ih |>.cast rfl (by simp; omega) rfl (fun l => ?_) (fun _ => rfl) fun _ => rfl
    cases vs <;> simp

theorem sameModes_wbytes (vs : List Byte) (s : State) : SameModes s (wbytes vs s) := by
  induction vs generalizing s with
  | nil => exact ⟨rfl, rfl⟩
  | cons v vs ih => exact (sameModes_wbyte v s).trans (ih _)

/-- The acknowledgement of the last of some bytes written (R161: "left at the last sample"). -/
theorem wbytes_ackf (v : Byte) (vs : List Byte) {s : State} (hl : Live s) (hn : NoChips s)
    (hr : (wbytes (v :: vs) s).hung = false) : (wbytes (v :: vs) s).ackf = ackAt s (37 * vs.length) := by
  induction vs generalizing v s with
  | nil =>
    rw [wbytes_cons, wbytes_nil] at hr ⊢
    rw [List.length_nil, Nat.mul_zero]
    exact wbyte_ackf v hl hn hr
  | cons v' vs ih =>
    rw [wbytes_cons] at hr ⊢
    have hr1 : (wbyte v s).hung = false := running_before (op := wbytes (v' :: vs)) (op_wbytes _).ofHung hr
    obtain ⟨h1, _⟩ := (op_wbyte v).ran s hl hr1
    rw [ih v' h1.live ((op_wbyte v).noChips s hn) hr, ackAt_ran h1, List.length_cons,
      show 37 + 37 * vs.length = 37 * (vs.length + 1) by omega]

/-- The waveform of `n` bytes read, all but the last acknowledged (R163). -/
def bytesReadWave : Bool → Nat → List (Bool × Bool)
  | _, 0 => []
  | c, n + 1 => byteReadWave c (n != 0) ++ bytesReadWave (false) n

theorem op_rbytes (n : Nat) : Op (fun s => (rbytes n s).2) (44 * n) []
    (fun l => if n = 0 then l else (false, true)) (fun l => bytesReadWave l.1 n) (fun _ => true) := by
  induction n with
  | zero => exact Op.id
  | succ n ih =>
    refine (op_rbyte (n != 0)).comp ih |>.cast rfl (by omega) rfl (fun l => ?_) (fun _ => rfl) fun _ => rfl
    cases n <;> simp

theorem keptLines_rbytes (n : Nat) (s : State) : KeptLines s (rbytes n s).2 := by
  induction n generalizing s with
  | zero => exact .refl s
  | succ n ih => exact (keptLines_rbyte _ s).trans (ih _)

/-- The bytes read are the environment's. -/
theorem rbytes_value (n : Nat) {s : State} (hl : Live s) (hn : NoChips s) (hr : (rbytes n s).2.hung = false) :
    (rbytes n s).1 = (List.range n).map fun k => byteAt s (44 * k) := by
  induction n generalizing s with
  | zero => rfl
  | succ n ih =>
    rw [rbytes_succ] at hr
    have hr1 : (rbyte (n != 0) s).2.hung = false :=
      running_before (op := fun s => (rbytes n s).2) (op_rbytes n).ofHung hr
    obtain ⟨h1, _⟩ := (op_rbyte (n != 0)).ran s hl hr1
    rw [rbytes_succ]
    dsimp only
    rw [rbyte_value _ hl hn hr1, ih h1.live ((op_rbyte _).noChips s hn) hr, List.range_succ_eq_map]
    simp only [List.map_cons, List.map_map, Nat.mul_zero]
    refine congrArg (List.cons _) (List.map_congr_left fun k _ => ?_)
    rw [byteAt_ran h1, Function.comp_apply, show 44 + 44 * k = 44 * (k + 1) by omega]

theorem rbytes_length (n : Nat) (s : State) : (rbytes n s).1.length = n := by
  induction n generalizing s with
  | zero => rfl
  | succ n ih => exact congrArg Nat.succ (ih _)

/-! ### Whole transactions -/

/-- The waveform of `start()` entered with the clock latch at `c` (41_i2c_primitives.md R131). -/
def startWave (c : Bool) : List (Bool × Bool) := [(c, true), (true, true), (true, false), (false, false)]

/-- The waveform of `stop()` entered with the clock latch at `c` (R132). -/
def stopWave (c : Bool) : List (Bool × Bool) := [(c, false), (true, false), (true, true)]

/-- The waveform of `write_bytes` (42_i2c_transactions.md R162). -/
def writeWave (c : Bool) (addr7 : Addr7) (bytes : List Byte) : List (Bool × Bool) :=
  startWave c ++ byteWave false (addrByte addr7 false) ++ bytesWave false bytes ++ stopWave false

theorem op_writeBytes (addr7 : Addr7) (bytes : List Byte) :
    Op (writeBytes addr7 bytes) (writeDraws bytes.length) [1, 43 + 37 * bytes.length] (fun _ => (true, true))
      (fun l => writeWave l.1 addr7 bytes) (fun _ => true) := by
  have h := ((op_start.comp (op_wbyte (addrByte addr7 false))).comp (op_wbytes bytes)).comp op_stop
  refine h.cast rfl (by unfold writeDraws; omega) ?_ (fun _ => rfl) (fun l => ?_) fun _ => rfl
  · simp; omega
  · cases bytes <;> rfl

/-- The waveform of `read_bytes` (R163). -/
def readBytesWave (c : Bool) (addr7 : Addr7) (count : Nat) : List (Bool × Bool) :=
  startWave c ++ byteWave false (addrByte addr7 true) ++ bytesReadWave false count ++ stopWave false

theorem readBytes_state (addr7 : Addr7) (count : Nat) (s : State) :
    (readBytes addr7 count s).2 = stop (rbytes count (wbyte (addrByte addr7 true) (start s))).2 := rfl

theorem op_readBytes (addr7 : Addr7) (count : Nat) :
    Op (fun s => (readBytes addr7 count s).2) (readDraws count) [1, 43 + 44 * count] (fun _ => (true, true))
      (fun l => readBytesWave l.1 addr7 count) (fun _ => true) := by
  have h := ((op_start.comp (op_wbyte (addrByte addr7 true))).comp (op_rbytes count)).comp op_stop
  refine h.cast rfl (by unfold readDraws; omega) ?_ (fun _ => rfl) (fun l => ?_) fun _ => rfl
  · simp; omega
  · cases count <;> rfl

/-- The waveform of `write_then_read` (R165). -/
def writeThenReadWave (c : Bool) (addr7 : Addr7) (bytes : List Byte) (rcount : Nat) : List (Bool × Bool) :=
  startWave c ++ byteWave false (addrByte addr7 false) ++ bytesWave false bytes ++ startWave false ++
    byteWave false (addrByte addr7 true) ++ bytesReadWave false rcount ++ stopWave false

theorem writeThenRead_state (addr7 : Addr7) (bytes : List Byte) (rcount : Nat) (s : State) :
    (writeThenRead addr7 bytes rcount s).2 = stop (rbytes rcount (wbyte (addrByte addr7 true)
      (start (wbytes bytes (wbyte (addrByte addr7 false) (start s)))))).2 := rfl

theorem op_writeThenRead (addr7 : Addr7) (bytes : List Byte) (rcount : Nat) :
    Op (fun s => (writeThenRead addr7 bytes rcount s).2) (writeThenReadDraws bytes.length rcount)
      [1, 42 + 37 * bytes.length, 84 + 37 * bytes.length + 44 * rcount] (fun _ => (true, true))
      (fun l => writeThenReadWave l.1 addr7 bytes rcount) (fun _ => true) := by
  have h := (((((op_start.comp (op_wbyte (addrByte addr7 false))).comp (op_wbytes bytes)).comp op_start).comp
    (op_wbyte (addrByte addr7 true))).comp (op_rbytes rcount)).comp op_stop
  refine h.cast rfl (by unfold writeThenReadDraws; omega) ?_ (fun _ => rfl) (fun l => ?_) fun _ => rfl
  · simp; omega
  · cases bytes <;> cases rcount <;> rfl

theorem sameModes_writeBytes (addr7 : Addr7) (bytes : List Byte) (s : State) :
    SameModes s (writeBytes addr7 bytes s) :=
  (keptLines_start s).modes.trans <| (sameModes_wbyte _ _).trans <| (sameModes_wbytes _ _).trans
    (keptLines_stop _).modes

theorem sameModes_readBytes (addr7 : Addr7) (count : Nat) (s : State) : SameModes s (readBytes addr7 count s).2 := by
  rw [readBytes_state]
  exact (keptLines_start s).modes.trans <| (sameModes_wbyte _ _).trans <| (keptLines_rbytes _ _).modes.trans
    (keptLines_stop _).modes

theorem sameModes_writeThenRead (addr7 : Addr7) (bytes : List Byte) (rcount : Nat) (s : State) :
    SameModes s (writeThenRead addr7 bytes rcount s).2 := by
  rw [writeThenRead_state]
  exact (keptLines_start s).modes.trans <| (sameModes_wbyte _ _).trans <| (sameModes_wbytes _ _).trans <|
    (keptLines_start _).modes.trans <| (sameModes_wbyte _ _).trans <| (keptLines_rbytes _ _).modes.trans
    (keptLines_stop _).modes

/-- `write_bytes` leaves the acknowledgement of the last byte written, the address byte's where there is no other
(R162). -/
theorem writeBytes_ackf (addr7 : Addr7) (bytes : List Byte) {s : State} (hl : Live s) (hn : NoChips s)
    (hr : (writeBytes addr7 bytes s).hung = false) :
    (writeBytes addr7 bytes s).ackf = ackAt s (4 + 37 * bytes.length) := by
  have hr1 : (wbytes (addrByte addr7 false :: bytes) (start s)).hung = false :=
    running_before (op := stop) op_stop.ofHung hr
  have hr2 : (start s).hung = false :=
    running_before (op := wbytes (addrByte addr7 false :: bytes)) (op_wbytes _).ofHung hr1
  obtain ⟨h1, _⟩ := op_start.ran s hl hr2
  rw [show writeBytes addr7 bytes s = stop (wbytes (addrByte addr7 false :: bytes) (start s)) from rfl,
    (keptLines_stop _).ackf, wbytes_ackf _ _ h1.live (op_start.noChips s hn) hr1, ackAt_ran h1]

/-- `read_bytes` returns the environment's bytes and leaves the acknowledgement of the address byte (R163, R164). -/
theorem readBytes_value (addr7 : Addr7) (count : Nat) {s : State} (hl : Live s) (hn : NoChips s)
    (hr : (readBytes addr7 count s).2.hung = false) :
    (readBytes addr7 count s).1 = ((List.range count).map fun k => byteAt s (41 + 44 * k)) ∧
      (readBytes addr7 count s).2.ackf = ackAt s 4 := by
  rw [readBytes_state] at hr
  have hr1 := running_before (op := stop) op_stop.ofHung hr
  have hr2 := running_before (op := fun s => (rbytes count s).2) (op_rbytes count).ofHung hr1
  have hr3 := running_before (op := wbyte (addrByte addr7 true)) (op_wbyte _).ofHung hr2
  obtain ⟨h1, _⟩ := op_start.ran s hl hr3
  obtain ⟨h2, _⟩ := (op_wbyte (addrByte addr7 true)).ran _ h1.live hr2
  have hn2 := (op_wbyte (addrByte addr7 true)).noChips _ (op_start.noChips s hn)
  refine ⟨?_, ?_⟩
  · show (rbytes count (wbyte (addrByte addr7 true) (start s))).1 = _
    rw [rbytes_value count h2.live hn2 hr1]
    apply List.map_congr_left
    intro k _
    rw [byteAt_ran h2, byteAt_ran h1, show 4 + (37 + 44 * k) = 41 + 44 * k by omega]
  · rw [readBytes_state, (keptLines_stop _).ackf, (keptLines_rbytes _ _).ackf,
      wbyte_ackf _ h1.live (op_start.noChips s hn) hr2, ackAt_ran h1]

/-- `write_then_read` returns the environment's bytes and leaves the acknowledgement of the read phase's address byte
(R165, R166). -/
theorem writeThenRead_value (addr7 : Addr7) (bytes : List Byte) (rcount : Nat) {s : State} (hl : Live s) (hn : NoChips s)
    (hr : (writeThenRead addr7 bytes rcount s).2.hung = false) :
    (writeThenRead addr7 bytes rcount s).1 =
        ((List.range rcount).map fun k => byteAt s (82 + 37 * bytes.length + 44 * k)) ∧
      (writeThenRead addr7 bytes rcount s).2.ackf = ackAt s (45 + 37 * bytes.length) := by
  rw [writeThenRead_state] at hr
  have hr1 := running_before (op := stop) op_stop.ofHung hr
  have hr2 := running_before (op := fun s => (rbytes rcount s).2) (op_rbytes rcount).ofHung hr1
  have hr3 := running_before (op := wbyte (addrByte addr7 true)) (op_wbyte _).ofHung hr2
  have lead := ((op_start.comp (op_wbyte (addrByte addr7 false))).comp (op_wbytes bytes)).comp op_start
  obtain ⟨h1, _⟩ := lead.ran s hl hr3
  obtain ⟨h2, _⟩ := (op_wbyte (addrByte addr7 true)).ran _ h1.live hr2
  have hn1 := lead.noChips s hn
  have hn2 := (op_wbyte (addrByte addr7 true)).noChips _ hn1
  refine ⟨?_, ?_⟩
  · show (rbytes rcount (wbyte (addrByte addr7 true)
      (start (wbytes bytes (wbyte (addrByte addr7 false) (start s)))))).1 = _
    rw [rbytes_value rcount h2.live hn2 hr1]
    apply List.map_congr_left
    intro k _
    rw [byteAt_ran h2, byteAt_ran h1]
    rw [show 4 + 37 + 37 * bytes.length + 4 + (37 + 44 * k) = 82 + 37 * bytes.length + 44 * k by omega]
  · rw [writeThenRead_state, (keptLines_stop _).ackf, (keptLines_rbytes _ _).ackf,
      wbyte_ackf _ h1.live hn1 hr2, ackAt_ran h1]
    rw [show 4 + 37 + 37 * bytes.length + 4 + 0 = 45 + 37 * bytes.length by omega]

/-! ### Register access -/

theorem op_writeRegister (addr7 : Addr7) (reg value : Byte) :
    Op (writeRegister addr7 reg value) 118 [1, 117] (fun _ => (true, true))
      (fun l => writeWave l.1 addr7 [reg, value]) (fun _ => true) :=
  (op_writeBytes addr7 [reg, value]).cast (by funext s; dsimp only [writeRegister]) (by simp [writeDraws]) (by simp)
    (fun _ => Eq.refl _) (fun _ => Eq.refl _) fun _ => Eq.refl _

theorem readRegister_state (addr7 : Addr7) (reg : Byte) (s : State) :
    (readRegister addr7 reg s).2 = (writeThenRead addr7 [reg] 1 s).2 := by dsimp only [readRegister]

theorem readRegister_byte (addr7 : Addr7) (reg : Byte) (s : State) :
    (readRegister addr7 reg s).1 = (writeThenRead addr7 [reg] 1 s).1.headD 0 := by dsimp only [readRegister]

theorem op_readRegister (addr7 : Addr7) (reg : Byte) :
    Op (fun s => (readRegister addr7 reg s).2) 166 [1, 79, 165] (fun _ => (true, true))
      (fun l => writeThenReadWave l.1 addr7 [reg] 1) (fun _ => true) :=
  (op_writeThenRead addr7 [reg] 1).cast (by funext s; rw [readRegister_state]) (by simp [writeThenReadDraws]) (by simp)
    (fun _ => Eq.refl _) (fun _ => Eq.refl _) fun _ => Eq.refl _

theorem sameModes_writeRegister (addr7 : Addr7) (reg value : Byte) (s : State) :
    SameModes s (writeRegister addr7 reg value s) := by
  dsimp only [writeRegister]
  exact sameModes_writeBytes addr7 [reg, value] s

theorem sameModes_readRegister (addr7 : Addr7) (reg : Byte) (s : State) : SameModes s (readRegister addr7 reg s).2 := by
  rw [readRegister_state]
  exact sameModes_writeThenRead addr7 [reg] 1 s

theorem writeRegister_ackf (addr7 : Addr7) (reg value : Byte) {s : State} (hl : Live s) (hn : NoChips s)
    (hr : (writeRegister addr7 reg value s).hung = false) : (writeRegister addr7 reg value s).ackf = ackAt s 78 := by
  dsimp only [writeRegister] at hr ⊢
  rw [writeBytes_ackf addr7 [reg, value] hl hn hr, List.length_cons, List.length_singleton]

theorem readRegister_value (addr7 : Addr7) (reg : Byte) {s : State} (hl : Live s) (hn : NoChips s)
    (hr : (readRegister addr7 reg s).2.hung = false) :
    (readRegister addr7 reg s).1 = byteAt s 119 ∧ (readRegister addr7 reg s).2.ackf = ackAt s 82 := by
  rw [readRegister_state] at hr ⊢
  obtain ⟨h1, h2⟩ := writeThenRead_value addr7 [reg] 1 hl hn hr
  rw [readRegister_byte, h1, h2, List.length_singleton]
  exact ⟨Eq.refl _, Eq.refl _⟩

/-! ### `construct()` and `destroy()` -/

theorem kept_construct (s : State) : Kept s (construct s) :=
  (kept_setScl _ _).trans <| (kept_setSda _ _).trans <| (kept_setSclMode _ _).trans (kept_setSdaMode _ _)

theorem construct_of_hung {s : State} (h : s.hung = true) : construct s = s := by
  unfold construct
  rw [setScl_of_hung _ h, setSda_of_hung _ h, setSclMode_of_hung _ h, setSdaMode_of_hung _ h]

theorem destroy_of_hung {s : State} (h : s.hung = true) : destroy s = s := by
  unfold destroy
  rw [setSclMode_of_hung _ h, setSdaMode_of_hung _ h]

theorem kept_destroy (s : State) : Kept s (destroy s) := (kept_setSclMode _ _).trans (kept_setSdaMode _ _)

theorem noChips_construct {s : State} (h : NoChips s) : NoChips (construct s) :=
  noChips_setSdaMode _ (noChips_setSclMode _ (noChips_setSda _ (noChips_setScl _ h)))

theorem noChips_destroy {s : State} (h : NoChips s) : NoChips (destroy s) :=
  noChips_setSdaMode _ (noChips_setSclMode _ h)

/-- CONSTRUCT's procedure (40_line_control.md R116): latches 1, modes OD_OUT, no observation, no `Q()`. -/
theorem construct_ran {s : State} (h : Live s) :
    Ran s (construct s) 0 [] ∧ (construct s).latches = (true, true) ∧ (construct s).sclMode = .odOut ∧
      (construct s).sdaMode = .odOut ∧ (construct s).ackf = s.ackf := by
  unfold construct
  have h1 := setScl_live (v := true) h
  have h2 := setSda_live (v := true) h1
  have h3 := setSclMode_live (m := .odOut) h2
  obtain ⟨r1, a1, b1⟩ := ran_setScl true h
  obtain ⟨r2, a2, b2⟩ := ran_setSda true h1
  obtain ⟨r3, a3, b3⟩ := ran_setSclMode .odOut h2
  obtain ⟨r4, a4, b4⟩ := ran_setSdaMode .odOut h3
  have k := (keptLines_setScl true s).trans (keptLines_setSda true _)
  obtain ⟨c3, d3, e3⟩ := setSclMode_lines .odOut (setSda true (setScl true s))
  obtain ⟨c4, d4, e4⟩ := setSdaMode_lines .odOut (setSclMode .odOut (setSda true (setScl true s)))
  refine ⟨((r1.trans r2).trans r3).trans r4, ?_, a4.trans a3, b4, e4.trans (e3.trans k.ackf)⟩
  simp [State.latches, c4, d4, c3, d3, a2, b2, a1]

/-- DESTROY's procedure (R117): modes INPUT, latches kept. -/
theorem destroy_ran {s : State} (h : Live s) :
    Ran s (destroy s) 0 [] ∧ (destroy s).latches = s.latches ∧ (destroy s).sclMode = .input ∧
      (destroy s).sdaMode = .input ∧ (destroy s).ackf = s.ackf := by
  unfold destroy
  have h1 := setSclMode_live (m := .input) h
  obtain ⟨r1, a1, b1⟩ := ran_setSclMode .input h
  obtain ⟨r2, a2, b2⟩ := ran_setSdaMode .input h1
  obtain ⟨c1, d1, e1⟩ := setSclMode_lines .input s
  obtain ⟨c2, d2, e2⟩ := setSdaMode_lines .input (setSclMode .input s)
  refine ⟨r1.trans r2, ?_, a2.trans a1, b2, e2.trans e1⟩
  simp [State.latches, c2, d2, c1, d1]

end Sys2Proof.Machine
end

