-- ==== Sys2Proof/Laws/Command.lean ====
section
/-! SUPPORT. What a command can answer (`runCommand_next`), and what a command that runs to its end leaves, given what
its procedure does (`Op`). -/

namespace Sys2Proof.Machine

/-! ### The frame of a command -/

theorem runCommand_ready {i : Instr} {ownership operands : Option ErrCode} {body : State → State} {s : State}
    (h : s.Ready) (ho : ownership = none) (hp : operands = none) :
    runCommand i ownership operands body s = .next (endCommand (body (beginCommand i s))) := by
  obtain ⟨h1, h2, _, h4⟩ := h
  simp [runCommand, State.busy, h1, h2, h4, ho, hp]

/-- The refusal of R241, for a block whose latch is clear. -/
theorem refuse_eq {code : ErrCode} {s : State} (h : s.err = 0) : refuse code s = refused code s := by
  simp [refuse, refused, becomeIdle, h]

theorem runCommand_refused {i : Instr} {ownership operands : Option ErrCode} {body : State → State} {s : State}
    {code : ErrCode} (h : s.Ready) (hc : ownership = some code ∨ ownership = none ∧ operands = some code) :
    runCommand i ownership operands body s = .next (refused code s) := by
  obtain ⟨h1, h2, _, h4⟩ := h
  rcases hc with rfl | ⟨rfl, rfl⟩ <;> simp [runCommand, State.busy, h1, h2, h4, refuse_eq h4]

/-- Everything a command can answer with a next state: it is refused, by the latch or by a check, or it runs. -/
theorem runCommand_next {i : Instr} {ownership operands : Option ErrCode} {body : State → State} {s t : State}
    (h : runCommand i ownership operands body s = .next t) :
    s.hung = false ∧ s.upc = .idle ∧
      ((s.err ≠ 0 ∧ t = becomeIdle s) ∨
       (s.err = 0 ∧ ∃ code, (ownership = some code ∨ ownership = none ∧ operands = some code) ∧ t = refused code s) ∨
       (s.err = 0 ∧ ownership = none ∧ operands = none ∧ t = endCommand (body (beginCommand i s)))) := by
  unfold runCommand at h
  split at h
  · cases h
  · rename_i hh
    split at h
    · cases h
    · rename_i hb
      refine ⟨by simpa using hh, by simpa [State.busy] using hb, ?_⟩
      split at h
      · rename_i he
        cases h
        exact .inl ⟨he, rfl⟩
      · rename_i he
        have he : s.err = 0 := by simpa using he
        split at h <;> cases h
        · exact .inr (.inl ⟨he, _, .inl rfl, refuse_eq he⟩)
        · exact .inr (.inl ⟨he, _, .inr ⟨rfl, rfl⟩, refuse_eq he⟩)
        · exact .inr (.inr ⟨he, rfl, rfl, rfl⟩)

theorem live_beginCommand {i : Instr} {s : State} (h : s.Ready) : Live (beginCommand i s) := ⟨h.2.1, h.2.2.1⟩

theorem endCommand_of_live {s : State} (h : Live s) : endCommand s = becomeIdle s := by
  simp [endCommand, h.frozen]

/-- A procedure that keeps what micro-operations keep, still running at its end, completes its command. -/
theorem completed_of_live {i : Instr} {s u : State} (hk : Kept (beginCommand i s) u) (hl : Live u) :
    Completed s (endCommand u) := by
  rw [endCommand_of_live hl]
  exact ⟨rfl, hl.hung, hl.budget, rfl, hk.err⟩

theorem traceSince_of_append {s t : State} {new : List BusEvent} (h : t.trace = new ++ s.trace) :
    traceSince s t = new := by
  simp [traceSince, h]

theorem Ran.wave {s t : State} {n : Nat} {w : List (Bool × Bool)} (h : Ran s t n w) :
    latchWave (traceSince s t) = w := by
  obtain ⟨new, hn, hw⟩ := h.trace
  rw [traceSince_of_append hn, hw]

theorem Ran.duration {s t : State} {n : Nat} {w : List (Bool × Bool)} (h : Ran s t n w) :
    durationBetween s t = w.length := by
  rw [durationBetween, quarterCount, h.wave]

/-! ### Values written at the end of a command -/

theorem setRes_of_live {v : BitVec 16} {s : State} (h : Live s) : setRes v s = { s with res := v } := note_of_live h

theorem storeRxbuf_of_live {bytes : List Byte} {s : State} (h : Live s) :
    storeRxbuf bytes s = { s with rxbuf := writeCells s.rxbuf 0 bytes } := note_of_live h

theorem setWasAlive_of_live {alive : Bool} {s : State} (h : Live s) :
    setWasAlive alive s = { s with wasAlive := alive } := note_of_live h

theorem advancePwm_of_live {P : Params} {s : State} (h : Live s) :
    advancePwm P s = { s with pwmCnt := (s.pwmCnt + 1) % P.pwmPeriod } := note_of_live h

theorem endCommand_setRes {v : BitVec 16} {s : State} (h : Live s) :
    endCommand (setRes v s) = { becomeIdle s with res := v } := by
  have hl : Live { s with res := v } := ⟨h.hung, h.budget⟩
  rw [setRes_of_live h, endCommand_of_live hl]
  rfl

theorem endCommand_storeRxbuf {bytes : List Byte} {s : State} (h : Live s) :
    endCommand (storeRxbuf bytes s) = { becomeIdle s with rxbuf := writeCells s.rxbuf 0 bytes } := by
  have hl : Live { s with rxbuf := writeCells s.rxbuf 0 bytes } := ⟨h.hung, h.budget⟩
  rw [storeRxbuf_of_live h, endCommand_of_live hl]
  rfl

theorem endCommand_advancePwm {P : Params} {s : State} (h : Live s) :
    endCommand (advancePwm P s) = { becomeIdle s with pwmCnt := (s.pwmCnt + 1) % P.pwmPeriod } := by
  have hl : Live { s with pwmCnt := (s.pwmCnt + 1) % P.pwmPeriod } := ⟨h.hung, h.budget⟩
  rw [advancePwm_of_live h, endCommand_of_live hl]
  rfl

theorem endCommand_setAlive {alive : Bool} {v : BitVec 16} {s : State} (h : Live s) :
    endCommand (setRes v (setWasAlive alive s)) = { becomeIdle s with wasAlive := alive, res := v } := by
  have hl : Live { s with wasAlive := alive } := ⟨h.hung, h.budget⟩
  rw [setWasAlive_of_live h, endCommand_setRes hl]
  rfl

/-! ### A whole command -/

/-- A command whose body is one procedure runs to its end when nobody holds the bus, and then has done what the
procedure does. -/
theorem op_command {op : State → State} {n : Nat} {F : List Nat} {o : Bool × Bool → Bool × Bool}
    {w : Bool × Bool → List (Bool × Bool)} {p : Bool × Bool → Bool} (h : Op op n F o w p) (i : Instr) {s : State}
    (hr : s.Ready) (hn : NoChips s) (hp : p s.latches = true) (hc : ClockFree s n) (hd : ∀ k ∈ F, DataFree s k) :
    Ran s (op (beginCommand i s)) n (w s.latches) ∧ (op (beginCommand i s)).latches = o s.latches ∧
      Kept s (op (beginCommand i s)) := by
  have hl := live_beginCommand (i := i) hr
  have hk := h.kept (beginCommand i s)
  obtain ⟨h1, h2⟩ := h.ran _ hl (h.smooth _ hl hn hp hc hd)
  exact ⟨⟨h1.live, h1.levels, h1.trace⟩, h2, ⟨hk.1, hk.2, hk.3, hk.4, hk.5, hk.6, hk.7, hk.8, hk.9⟩⟩

theorem needsOwned_of {s : State} (h : s.owned = true) : needsOwned s = none := by simp [needsOwned, h]

theorem needsFree_of {s : State} (h : s.owned = false) : needsFree s = none := by simp [needsFree, h]

theorem checkCount_of {n : Nat} (h : 0 < n) : checkCount n = none := by
  rw [checkCount, if_neg (Nat.ne_of_gt h)]

theorem levelAt_beginCommand (i : Instr) (s : State) (n : Nat) : (beginCommand i s).levelAt n = s.levelAt n := rfl

theorem byteAt_beginCommand (i : Instr) (s : State) (n : Nat) : byteAt (beginCommand i s) n = byteAt s n := rfl

theorem ackAt_beginCommand (i : Instr) (s : State) (n : Nat) : ackAt (beginCommand i s) n = ackAt s n := rfl

/-! ### Writing samples nothing (41_i2c_primitives.md R134) -/

/-- Between the two states the data line was not sampled. -/
def Unsampled (s t : State) : Prop := ∃ new, t.trace = new ++ s.trace ∧ ∀ v, BusEvent.sample v ∉ new

theorem Unsampled.refl (s : State) : Unsampled s s := ⟨[], rfl, by simp⟩

theorem Unsampled.trans {s t u : State} (h : Unsampled s t) (k : Unsampled t u) : Unsampled s u := by
  obtain ⟨n, hn, hs⟩ := h
  obtain ⟨m, hm, ks⟩ := k
  exact ⟨m ++ n, by rw [hm, hn, List.append_assoc], fun v hv => (List.mem_append.mp hv).elim (ks v) (hs v)⟩

theorem Unsampled.traceSince {s t : State} (h : Unsampled s t) (v : Bool) : .sample v ∉ traceSince s t := by
  obtain ⟨n, hn, hs⟩ := h
  rw [traceSince_of_append hn]
  exact hs v

/-- A micro-operation that the monitor sees as anything but a sample. -/
theorem unsampled_act {f : State → State} (s : State)
    (h : ∀ t, ∃ e, (f t).trace = e :: t.trace ∧ ∀ v, e ≠ .sample v) : Unsampled s (act f s) := by
  obtain ⟨e, he, hv⟩ := h (environmentTurn s)
  exact act_induction (R := Unsampled) s (.refl s) ⟨[e], he, fun v hm => hv v (List.mem_singleton.mp hm).symm⟩
    fun _ _ _ h => h

theorem unsampled_setScl (v : Bool) (s : State) : Unsampled s (setScl v s) :=
  unsampled_act s fun _ => ⟨_, rfl, fun _ h => nomatch h⟩

theorem unsampled_setSda (v : Bool) (s : State) : Unsampled s (setSda v s) :=
  unsampled_act s fun _ => ⟨_, rfl, fun _ h => nomatch h⟩

theorem unsampled_quarter (c : QuarterCheck) (s : State) : Unsampled s (quarter c s) := by
  rw [quarter_eq]
  exact unsampled_act s fun t => quarter_effects (P := fun u => ∃ e, u.trace = e :: t.trace ∧ ∀ v, e ≠ .sample v) c t
    ⟨_, rfl, fun _ h => nomatch h⟩ ⟨_, rfl, fun _ h => nomatch h⟩

theorem unsampled_wbit (b : Bool) (s : State) : Unsampled s (wbit b s) :=
  (unsampled_setSda _ _).trans <| (unsampled_quarter _ _).trans <| (unsampled_setScl _ _).trans <|
    (unsampled_quarter _ _).trans <| (unsampled_setScl _ _).trans <| (unsampled_quarter _ _).trans (unsampled_quarter _ _)

/-! ### The end of a command -/

theorem traceSince_congr {s t u : State} (h : t.trace = u.trace) : traceSince s t = traceSince s u := by
  simp [traceSince, h]

theorem durationBetween_congr {s t u : State} (h : t.trace = u.trace) : durationBetween s t = durationBetween s u := by
  simp [durationBetween, traceSince_congr h]

/-- What the end of a running command leaves. -/
theorem endCommand_facts {s u : State} (hk : Kept s u) (hl : Live u) :
    Completed s (endCommand u) ∧ SameResults s (endCommand u) ∧ SameHostSide s (endCommand u) ∧
      SameModes u (endCommand u) ∧ (endCommand u).latches = u.latches ∧ (endCommand u).ackf = u.ackf ∧
      (endCommand u).trace = u.trace := by
  rw [endCommand_of_live hl]
  exact ⟨⟨rfl, hl.hung, hl.budget, rfl, hk.err⟩, ⟨hk.res, hk.rxbuf, hk.wasAlive, hk.pwmCnt⟩,
    ⟨hk.txbuf, hk.inputs, hk.hostData⟩, ⟨rfl, rfl⟩, rfl, rfl, rfl⟩

section Whole

variable {op : State → State} {n : Nat} {F : List Nat} {o : Bool × Bool → Bool × Bool}
  {w : Bool × Bool → List (Bool × Bool)} {p : Bool × Bool → Bool} {i : Instr} {own opr : Option ErrCode} {s : State}

/-- A command whose body is one procedure and that nobody disturbs: it completes, and everything it leaves. -/
theorem command_completes (h : Op op n F o w p) (hr : s.Ready) (ho : own = none) (hq : opr = none) (hn : NoChips s)
    (hp : p s.latches = true) (hc : ClockFree s n) (hd : ∀ k ∈ F, DataFree s k) :
    ∃ t, runCommand i own opr op s = .next t ∧ Completed s t ∧ SameResults s t ∧ SameHostSide s t ∧
      latchWave (traceSince s t) = w s.latches ∧ t.latches = o s.latches ∧
      durationBetween s t = (w s.latches).length ∧ SameModes (op (beginCommand i s)) t ∧
      t.ackf = (op (beginCommand i s)).ackf ∧ (op (beginCommand i s)).hung = false := by
  obtain ⟨h1, h2, h3⟩ := op_command h i hr hn hp hc hd
  obtain ⟨a, b, c, d, e, f, g⟩ := endCommand_facts h3 h1.live
  refine ⟨_, runCommand_ready hr ho hq, a, b, c, ?_, e.trans h2, ?_, d, f, h1.live.hung⟩
  · rw [traceSince_congr g, h1.wave]
  · rw [durationBetween_congr g, h1.duration]

/-- The same for a command that then writes `RES`. -/
theorem command_completes_res {v : State → BitVec 16} (h : Op op n F o w p) (hr : s.Ready) (ho : own = none)
    (hq : opr = none) (hn : NoChips s) (hp : p s.latches = true) (hc : ClockFree s n) (hd : ∀ k ∈ F, DataFree s k) :
    ∃ t, runCommand i own opr (fun u => setRes (v u) (op u)) s = .next t ∧ Completed s t ∧ SameButRes s t ∧
      SameHostSide s t ∧ latchWave (traceSince s t) = w s.latches ∧ t.latches = o s.latches ∧
      durationBetween s t = (w s.latches).length ∧ SameModes (op (beginCommand i s)) t ∧
      t.ackf = (op (beginCommand i s)).ackf ∧ (op (beginCommand i s)).hung = false ∧
      t.res = v (beginCommand i s) := by
  obtain ⟨h1, h2, h3⟩ := op_command h i hr hn hp hc hd
  refine ⟨endCommand (setRes (v (beginCommand i s)) (op (beginCommand i s))), runCommand_ready hr ho hq, ?_⟩
  rw [endCommand_setRes h1.live]
  exact ⟨⟨rfl, h1.live.hung, h1.live.budget, rfl, h3.err⟩, ⟨h3.rxbuf, h3.wasAlive, h3.pwmCnt⟩,
    ⟨h3.txbuf, h3.inputs, h3.hostData⟩, h1.wave, h2, h1.duration, ⟨rfl, rfl⟩, rfl, h1.live.hung, rfl⟩

/-- The same for a command that then writes `RXBUF`. -/
theorem command_completes_rxbuf {v : State → List Byte} (h : Op op n F o w p) (hr : s.Ready) (ho : own = none)
    (hq : opr = none) (hn : NoChips s) (hp : p s.latches = true) (hc : ClockFree s n) (hd : ∀ k ∈ F, DataFree s k) :
    ∃ t, runCommand i own opr (fun u => storeRxbuf (v u) (op u)) s = .next t ∧ Completed s t ∧ SameButRxbuf s t ∧
      SameHostSide s t ∧ latchWave (traceSince s t) = w s.latches ∧ t.latches = o s.latches ∧
      durationBetween s t = (w s.latches).length ∧ SameModes (op (beginCommand i s)) t ∧
      t.ackf = (op (beginCommand i s)).ackf ∧ (op (beginCommand i s)).hung = false ∧
      t.rxbuf = writeCells s.rxbuf 0 (v (beginCommand i s)) := by
  obtain ⟨h1, h2, h3⟩ := op_command h i hr hn hp hc hd
  refine ⟨endCommand (storeRxbuf (v (beginCommand i s)) (op (beginCommand i s))), runCommand_ready hr ho hq, ?_⟩
  rw [endCommand_storeRxbuf h1.live]
  exact ⟨⟨rfl, h1.live.hung, h1.live.budget, rfl, h3.err⟩, ⟨h3.res, h3.wasAlive, h3.pwmCnt⟩,
    ⟨h3.txbuf, h3.inputs, h3.hostData⟩, h1.wave, h2, h1.duration, ⟨rfl, rfl⟩, rfl, h1.live.hung, by rw [← h3.rxbuf]⟩

end Whole

end Sys2Proof.Machine
end

