-- ==== Sys2Proof/Laws/Panel.lean ====
section
/-! SUPPORT. The panel procedures of 44_panel.md: one master constructed, a run of register accesses, the master destroyed. -/

namespace Sys2Proof.Machine

/-! ### Register accesses of the panel's chips -/

theorem writeChip_eq (P : Params) (chip : Nat) (reg value : Byte) (s : State) :
    writeChip P chip reg value s = writeRegister (deviceAddr P chip) reg value s := by dsimp only [writeChip]

theorem readChip_eq (P : Params) (chip : Nat) (reg : Byte) (s : State) :
    readChip P chip reg s = readRegister (deviceAddr P chip) reg s := by dsimp only [readChip]

theorem op_writeChip (P : Params) (chip : Nat) (reg value : Byte) :
    Op (writeChip P chip reg value) 118 [1, 117] (fun _ => (true, true))
      (fun l => writeWave l.1 (deviceAddr P chip) [reg, value]) (fun _ => true) :=
  (op_writeRegister (deviceAddr P chip) reg value).cast (by funext s; rw [writeChip_eq]) (Eq.refl _) (Eq.refl _)
    (fun _ => Eq.refl _) (fun _ => Eq.refl _) fun _ => Eq.refl _

theorem op_readChip (P : Params) (chip : Nat) (reg : Byte) :
    Op (fun s => (readChip P chip reg s).2) 166 [1, 79, 165] (fun _ => (true, true))
      (fun l => writeThenReadWave l.1 (deviceAddr P chip) [reg] 1) (fun _ => true) :=
  (op_readRegister (deviceAddr P chip) reg).cast (by funext s; rw [readChip_eq]) (Eq.refl _) (Eq.refl _)
    (fun _ => Eq.refl _) (fun _ => Eq.refl _) fun _ => Eq.refl _

theorem sameModes_writeChip (P : Params) (chip : Nat) (reg value : Byte) (s : State) :
    SameModes s (writeChip P chip reg value s) := by rw [writeChip_eq]; exact sameModes_writeRegister _ _ _ _

theorem sameModes_readChip (P : Params) (chip : Nat) (reg : Byte) (s : State) :
    SameModes s (readChip P chip reg s).2 := by rw [readChip_eq]; exact sameModes_readRegister _ _ _

/-! ### `construct()` and `destroy()` as procedures -/

theorem op_construct : Op construct 0 [] (fun _ => (true, true)) (fun _ => []) (fun _ => true) where
  kept := kept_construct
  ofHung _ := construct_of_hung
  noChips _ := noChips_construct
  ran _ hl _ := ⟨(construct_ran hl).1, (construct_ran hl).2.1⟩
  smooth _ hl _ _ _ _ := (construct_ran hl).1.live.hung

theorem op_destroy : Op destroy 0 [] (fun l => l) (fun _ => []) (fun _ => true) where
  kept := kept_destroy
  ofHung _ := destroy_of_hung
  noChips _ := noChips_destroy
  ran _ hl _ := ⟨(destroy_ran hl).1, (destroy_ran hl).2.1⟩
  smooth _ hl _ _ _ _ := (destroy_ran hl).1.live.hung

/-! ### `panel_init()` and `panel_leds()` -/

/-- The eight register writes of `panel_init()` (44_panel.md R203), in order: chip, register, value. -/
def initWrites : List (Nat × Byte × Byte) :=
  [(0, REG_POLINV, 0x00), (1, REG_POLINV, 0x00), (2, REG_POLINV, 0x00), (0, REG_CONFIG, configMask 0),
   (1, REG_CONFIG, configMask 1), (2, REG_CONFIG, configMask 2), (0, REG_OUTPUT, 0x00), (2, REG_OUTPUT, 0x00)]

/-- Register writes one after the other. -/
def writeChips (P : Params) : List (Nat × Byte × Byte) → State → State
  | [], s => s
  | w :: ws, s => writeChips P ws (writeChip P w.1 w.2.1 w.2.2 s)

theorem panelInit_eq (P : Params) (s : State) : panelInit P s = destroy (writeChips P initWrites (construct s)) := by
  dsimp only [panelInit, initWrites, writeChips]

theorem panelLeds_eq (P : Params) (m : Mask5) (s : State) : panelLeds P m s =
    destroy (writeChips P [(0, REG_OUTPUT, ledOutput 0 m), (2, REG_OUTPUT, ledOutput 2 m)] (construct s)) := by
  dsimp only [panelLeds, writeChips]

/-- The waveform of register writes that begin and end on an idle bus. -/
def writesWave (P : Params) (ws : List (Nat × Byte × Byte)) : List (Bool × Bool) :=
  ws.flatMap fun w => writeWave true (deviceAddr P w.1) [w.2.1, w.2.2]

/-- The observations at which a run of register writes needs the data line let go. -/
def writesFree : Nat → List Nat
  | 0 => []
  | n + 1 => [1, 117] ++ (writesFree n).map (118 + ·)

theorem op_writeChips (P : Params) (ws : List (Nat × Byte × Byte)) :
    Op (writeChips P ws) (118 * ws.length) (writesFree ws.length) (fun l => if ws = [] then l else (true, true))
      (fun l => match ws with
        | [] => []
        | w :: ws => writeWave l.1 (deviceAddr P w.1) [w.2.1, w.2.2] ++ writesWave P ws) (fun _ => true) := by
  induction ws with
  | nil => exact Op.id
  | cons w ws ih =>
    refine ((op_writeChip P w.1 w.2.1 w.2.2).comp ih).cast (by funext s; dsimp only [writeChips])
      (by rw [List.length_cons]; omega) (Eq.refl _) (fun l => ?_) (fun l => ?_) fun _ => Eq.refl _
    · cases ws <;> simp
    · cases ws with
      | nil => simp [writesWave]
      | cons v vs => simp [writesWave]

theorem sameModes_writeChips (P : Params) (ws : List (Nat × Byte × Byte)) (s : State) :
    SameModes s (writeChips P ws s) := by
  induction ws generalizing s with
  | nil => exact ⟨rfl, rfl⟩
  | cons w ws ih => exact (sameModes_writeChip P w.1 w.2.1 w.2.2 s).trans (ih _)

/-- A run of register writes inside a master of its own. -/
theorem op_ownWrites (P : Params) (w : Nat × Byte × Byte) (ws : List (Nat × Byte × Byte)) :
    Op (fun s => destroy (writeChips P (w :: ws) (construct s))) (118 * (ws.length + 1)) (writesFree (ws.length + 1))
      (fun _ => (true, true)) (fun _ => writesWave P (w :: ws)) (fun _ => true) := by
  refine ((op_construct.comp (op_writeChips P (w :: ws))).comp op_destroy).cast (Eq.refl _)
    (by rw [List.length_cons]; omega) (by simp) (fun _ => by simp) (fun _ => by simp [writesWave]) fun _ => by simp

theorem op_panelInit (P : Params) : Op (panelInit P) 944 (writesFree 8) (fun _ => (true, true))
    (fun _ => writesWave P initWrites) (fun _ => true) :=
  (op_ownWrites P (0, REG_POLINV, 0x00) initWrites.tail).cast (by funext s; rw [panelInit_eq]; dsimp only [initWrites, List.tail])
    (by decide) (by decide) (fun _ => Eq.refl _) (fun _ => by dsimp only [initWrites, List.tail]) fun _ => Eq.refl _

theorem op_panelLeds (P : Params) (m : Mask5) : Op (panelLeds P m) 236 [1, 117, 119, 235] (fun _ => (true, true))
    (fun _ => writesWave P [(0, REG_OUTPUT, ledOutput 0 m), (2, REG_OUTPUT, ledOutput 2 m)]) (fun _ => true) :=
  (op_ownWrites P (0, REG_OUTPUT, ledOutput 0 m) [(2, REG_OUTPUT, ledOutput 2 m)]).cast
    (by funext s; rw [panelLeds_eq]) (by simp) (by simp [writesFree]) (fun _ => Eq.refl _) (fun _ => Eq.refl _)
    fun _ => Eq.refl _

/-- After `destroy()` of a running block both lines are in INPUT (40_line_control.md R117). -/
theorem destroy_modes {s : State} (h : Live s) : (destroy s).sclMode = .input ∧ (destroy s).sdaMode = .input :=
  ⟨(destroy_ran h).2.2.1, (destroy_ran h).2.2.2.1⟩

/-! ### The probe of PCHECK (44_panel.md R210) -/

/-- The byte the probe writes back: `r0 ^ ALIVE_TEST_MASK`. -/
def probeWord (P : Params) (s : State) : Byte := (readChip P 2 REG_POLINV (construct s)).1 ^^^ P.aliveTestMask

theorem panelProbe_state (P : Params) (s : State) : (panelProbe P s).2 =
    destroy (readChip P 2 REG_POLINV
      (writeRegister (deviceAddr P 2) REG_POLINV (probeWord P s) (readChip P 2 REG_POLINV (construct s)).2)).2 := by
  dsimp only [panelProbe, probeWord, writeChip]

theorem panelProbe_alive (P : Params) (s : State) : (panelProbe P s).1 =
    ((readChip P 2 REG_POLINV
      (writeRegister (deviceAddr P 2) REG_POLINV (probeWord P s) (readChip P 2 REG_POLINV (construct s)).2)).1 ==
      probeWord P s) := by
  dsimp only [panelProbe, probeWord, writeChip]

theorem panelCheck_eq (P : Params) (s : State) : panelCheck P s =
    setRes ((BitVec.ofBool (panelProbe P s).1).setWidth 16) (setWasAlive (panelProbe P s).1
      (if (panelProbe P s).1 && !(panelProbe P s).2.wasAlive then panelInit P (panelProbe P s).2
       else (panelProbe P s).2)) := by
  dsimp only [panelCheck]

/-! ### The button and knob reads -/

/-- Two Input registers read inside a master of its own: the state it leaves. -/
def readTwo (P : Params) (chip chip' : Nat) (s : State) : State :=
  destroy (readChip P chip' REG_INPUT (readChip P chip REG_INPUT (construct s)).2).2

theorem op_readTwo (P : Params) (chip chip' : Nat) :
    Op (readTwo P chip chip') 332 [1, 79, 165, 167, 245, 331] (fun _ => (true, true))
      (fun _ => writeThenReadWave true (deviceAddr P chip) [REG_INPUT] 1 ++
        writeThenReadWave true (deviceAddr P chip') [REG_INPUT] 1) (fun _ => true) := by
  refine (((op_construct.comp (op_readChip P chip REG_INPUT)).comp (op_readChip P chip' REG_INPUT)).comp op_destroy).cast
    (by funext s; dsimp only [readTwo]) (by simp) (by simp) (fun _ => Eq.refl _) (fun _ => ?_) fun _ => Eq.refl _
  rw [List.nil_append, List.append_nil]

theorem panelButtons_eq (P : Params) (s : State) : panelButtons P s =
    setRes ((packButtons (readChip P 0 REG_INPUT (construct s)).1
      (readChip P 2 REG_INPUT (readChip P 0 REG_INPUT (construct s)).2).1).setWidth 16) (readTwo P 0 2 s) := by
  dsimp only [panelButtons, readTwo]

theorem panelKnob_eq (P : Params) (s : State) : panelKnob P s =
    setRes ((packKnob (readChip P 0 REG_INPUT (construct s)).1
      (readChip P 1 REG_INPUT (readChip P 0 REG_INPUT (construct s)).2).1).setWidth 16) (readTwo P 0 1 s) := by
  dsimp only [panelKnob, readTwo]

/-! ### Acknowledgements, modes and bytes read -/

/-- What `destroy()` leaves of a running block. -/
theorem destroy_tail {s : State} (h : Live s) :
    (destroy s).sclMode = .input ∧ (destroy s).sdaMode = .input ∧ (destroy s).ackf = s.ackf :=
  ⟨(destroy_ran h).2.2.1, (destroy_ran h).2.2.2.1, (destroy_ran h).2.2.2.2⟩

theorem readChip_value (P : Params) (chip : Nat) (reg : Byte) {s : State} (hl : Live s) (hn : NoChips s)
    (hr : (readChip P chip reg s).2.hung = false) :
    (readChip P chip reg s).1 = byteAt s 119 ∧ (readChip P chip reg s).2.ackf = ackAt s 82 := by
  rw [readChip_eq] at hr ⊢
  exact readRegister_value _ _ hl hn hr

theorem writeChips_ackf (P : Params) (ws : List (Nat × Byte × Byte)) (w : Nat × Byte × Byte) {s : State} (hl : Live s)
    (hn : NoChips s) (hr : (writeChips P (ws ++ [w]) s).hung = false) :
    (writeChips P (ws ++ [w]) s).ackf = ackAt s (118 * ws.length + 78) := by
  induction ws generalizing s with
  | nil =>
    dsimp only [List.nil_append, writeChips] at hr ⊢
    rw [writeChip_eq] at hr ⊢
    rw [writeRegister_ackf _ _ _ hl hn hr]
    rfl
  | cons v ws ih =>
    dsimp only [List.cons_append, writeChips] at hr ⊢
    have h1 := running_before (op := writeChips P (ws ++ [w])) (op_writeChips P _).ofHung hr
    obtain ⟨h2, _⟩ := (op_writeChip P v.1 v.2.1 v.2.2).ran s hl h1
    rw [ih h2.live ((op_writeChip P v.1 v.2.1 v.2.2).noChips s hn) hr, ackAt_ran h2, List.length_cons,
      show 118 + (118 * ws.length + 78) = 118 * (ws.length + 1) + 78 by omega]

/-- What a run of register writes in a master of its own leaves of the modes and of `ACKF`. -/
theorem ownWrites_tail (P : Params) (ws : List (Nat × Byte × Byte)) (w : Nat × Byte × Byte) {s : State} (hl : Live s)
    (hn : NoChips s) (hr : (destroy (writeChips P (ws ++ [w]) (construct s))).hung = false) :
    (destroy (writeChips P (ws ++ [w]) (construct s))).sclMode = .input ∧
    (destroy (writeChips P (ws ++ [w]) (construct s))).sdaMode = .input ∧
    (destroy (writeChips P (ws ++ [w]) (construct s))).ackf = ackAt s (118 * ws.length + 78) := by
  have h1 := running_before (op := destroy) (fun _ => destroy_of_hung) hr
  obtain ⟨h2, _⟩ := construct_ran hl
  obtain ⟨h3, _⟩ := (op_writeChips P (ws ++ [w])).ran _ h2.live h1
  obtain ⟨a, b, c⟩ := destroy_tail h3.live
  refine ⟨a, b, ?_⟩
  rw [c, writeChips_ackf P ws w h2.live (noChips_construct hn) h1, ackAt_ran h2, Nat.zero_add]

theorem panelLeds_tail (P : Params) (m : Mask5) {s : State} (hl : Live s) (hn : NoChips s)
    (hr : (panelLeds P m s).hung = false) :
    (panelLeds P m s).sclMode = .input ∧ (panelLeds P m s).sdaMode = .input ∧
      (panelLeds P m s).ackf = ackAt s 196 := by
  rw [panelLeds_eq] at hr ⊢
  exact ownWrites_tail P [(0, REG_OUTPUT, ledOutput 0 m)] _ hl hn hr

theorem panelInit_tail (P : Params) {s : State} (hl : Live s) (hn : NoChips s) (hr : (panelInit P s).hung = false) :
    (panelInit P s).sclMode = .input ∧ (panelInit P s).sdaMode = .input ∧ (panelInit P s).ackf = ackAt s 904 := by
  rw [panelInit_eq] at hr ⊢
  exact ownWrites_tail P initWrites.dropLast _ hl hn hr

/-- Eight register writes that can all form their start and stop conditions. -/
theorem writesFree_eight {s : State} {o : Nat} (h : ∀ k < 8, WriteFree s (o + 118 * k) 2) :
    ∀ k ∈ writesFree 8, DataFree s (o + k) := by
  have e : writesFree 8 = [1, 117, 119, 235, 237, 353, 355, 471, 473, 589, 591, 707, 709, 825, 827, 943] := by decide
  rw [e]
  intro k hk
  have h0 := h 0 (by omega)
  have h1 := h 1 (by omega)
  have h2 := h 2 (by omega)
  have h3 := h 3 (by omega)
  have h4 := h 4 (by omega)
  have h5 := h 5 (by omega)
  have h6 := h 6 (by omega)
  have h7 := h 7 (by omega)
  simp only [WriteFree, Nat.add_assoc] at h0 h1 h2 h3 h4 h5 h6 h7
  simp only [List.mem_cons, List.not_mem_nil, or_false] at hk
  rcases hk with rfl | rfl | rfl | rfl | rfl | rfl | rfl | rfl | rfl | rfl | rfl | rfl | rfl | rfl | rfl | rfl
  exacts [h0.1, h0.2, h1.1, h1.2, h2.1, h2.2, h3.1, h3.2, h4.1, h4.2, h5.1, h5.2, h6.1, h6.2, h7.1, h7.2]

/-- The two bytes PBUTTONS and PKNOB read, and what they leave. -/
theorem readTwo_facts (P : Params) (c c' : Nat) {s : State} (hl : Live s) (hn : NoChips s)
    (hr : (readTwo P c c' s).hung = false) :
    (readChip P c REG_INPUT (construct s)).1 = byteAt s 119 ∧
    (readChip P c' REG_INPUT (readChip P c REG_INPUT (construct s)).2).1 = byteAt s 285 ∧
    (readTwo P c c' s).ackf = ackAt s 248 ∧ (readTwo P c c' s).sclMode = .input ∧
    (readTwo P c c' s).sdaMode = .input := by
  unfold readTwo at hr ⊢
  have h1 := running_before (op := destroy) (fun _ => destroy_of_hung) hr
  have h2 := running_before (op := fun s => (readChip P c' REG_INPUT s).2) (op_readChip P c' REG_INPUT).ofHung h1
  obtain ⟨h3, _⟩ := construct_ran hl
  obtain ⟨h4, _⟩ := (op_readChip P c REG_INPUT).ran _ h3.live h2
  obtain ⟨h5, _⟩ := (op_readChip P c' REG_INPUT).ran _ h4.live h1
  have n4 := (op_readChip P c REG_INPUT).noChips _ (noChips_construct hn)
  obtain ⟨a, b⟩ := readChip_value P c REG_INPUT h3.live (noChips_construct hn) h2
  obtain ⟨a', b'⟩ := readChip_value P c' REG_INPUT h4.live n4 h1
  obtain ⟨m1, m2, m3⟩ := destroy_tail h5.live
  refine ⟨?_, ?_, ?_, m1, m2⟩
  · rw [a, byteAt_ran h3, Nat.zero_add]
  · rw [a', byteAt_ran h4, byteAt_ran h3, Nat.zero_add]
  · rw [m3, b', ackAt_ran h4, ackAt_ran h3, Nat.zero_add]

/-- The probe of PCHECK on a bus nobody disturbs: its waveform, what it leaves, and its verdict. -/
theorem panelProbe_facts (P : Params) {s : State} (hl : Live s) (hn : NoChips s) (hc : ClockFree s 450)
    (h0 : WriteThenReadFree s 0 1 1) (h1 : WriteFree s 166 2) (h2 : WriteThenReadFree s 284 1 1) :
    Ran s (panelProbe P s).2 450
      (writeThenReadWave true (deviceAddr P 2) [REG_POLINV] 1 ++
        writeWave true (deviceAddr P 2) [REG_POLINV, byteAt s 119 ^^^ P.aliveTestMask] ++
        writeThenReadWave true (deviceAddr P 2) [REG_POLINV] 1) ∧
    (panelProbe P s).2.latches = (true, true) ∧ (panelProbe P s).2.sclMode = .input ∧
    (panelProbe P s).2.sdaMode = .input ∧ (panelProbe P s).2.ackf = ackAt s 366 ∧ NoChips (panelProbe P s).2 ∧
    Kept s (panelProbe P s).2 ∧ (panelProbe P s).1 = (byteAt s 403 == (byteAt s 119 ^^^ P.aliveTestMask)) := by
  have e : probeWord P s = (readChip P 2 REG_POLINV (construct s)).1 ^^^ P.aliveTestMask := by dsimp only [probeWord]
  rw [panelProbe_state, panelProbe_alive, e]
  obtain ⟨c1, c2, -, -, -⟩ := construct_ran hl
  have n1 := noChips_construct hn
  have R := op_readChip P 2 REG_POLINV
  have s1 := R.smooth _ c1.live n1 rfl (fun k hk => by rw [c1.levels, Nat.zero_add]; exact hc k (by omega))
    (by
      intro k hk
      unfold DataFree
      rw [c1.levels, Nat.zero_add]
      simp only [List.mem_cons, List.not_mem_nil, or_false] at hk
      rcases hk with rfl | rfl | rfl
      exacts [h0.1, h0.2.1, h0.2.2])
  obtain ⟨r1, r2⟩ := R.ran _ c1.live s1
  have n2 := R.noChips _ n1
  obtain ⟨v1, -⟩ := readChip_value P 2 REG_POLINV c1.live n1 s1
  rw [byteAt_ran c1, Nat.zero_add] at v1
  have r1' := c1.trans r1
  rw [v1]
  generalize byteAt s 119 ^^^ P.aliveTestMask = w
  have W := op_writeChip P 2 REG_POLINV w
  have s2 := W.smooth _ r1'.live n2 rfl (fun k hk => by rw [r1'.levels]; exact hc _ (by omega))
    (by
      intro k hk
      unfold DataFree
      rw [r1'.levels]
      simp only [List.mem_cons, List.not_mem_nil, or_false] at hk
      rcases hk with rfl | rfl
      exacts [h1.1, h1.2])
  obtain ⟨w1, w2⟩ := W.ran _ r1'.live s2
  have n3 := W.noChips _ n2
  have w1' := r1'.trans w1
  have s3 := R.smooth _ w1'.live n3 rfl (fun k hk => by rw [w1'.levels]; exact hc _ (by omega))
    (by
      intro k hk
      unfold DataFree
      rw [w1'.levels]
      simp only [List.mem_cons, List.not_mem_nil, or_false] at hk
      rcases hk with rfl | rfl | rfl
      exacts [h2.1, h2.2.1, h2.2.2])
  obtain ⟨q1, q2⟩ := R.ran _ w1'.live s3
  have n4 := R.noChips _ n3
  obtain ⟨v3, v4⟩ := readChip_value P 2 REG_POLINV w1'.live n3 s3
  have q1' := w1'.trans q1
  obtain ⟨d1, d2, d3, d4, d5⟩ := destroy_ran q1'.live
  have d1' := q1'.trans d1
  rw [writeChip_eq] at *
  refine ⟨?_, d2.trans q2, d3, d4, ?_, noChips_destroy n4, ?_, ?_⟩
  · rw [r2, w2, c2] at d1'
    simpa using d1'
  · rw [d5, v4, ackAt_ran w1']
  · refine (kept_construct s).trans ((R.kept _).trans (Kept.trans ?_ ((R.kept _).trans (kept_destroy _))))
    have k := W.kept (readChip P 2 REG_POLINV (construct s)).2
    rwa [writeChip_eq] at k
  · rw [v3, byteAt_ran w1']

end Sys2Proof.Machine
end

