-- ==== Sys2Proof/Laws/ChipBus.lean ====
section
/-! SUPPORT. One reference expander alone on the lines (20_memory.md R61): what each micro-operation and each bit cell makes of
it, as functions of the chip and of the two drive latches. -/

namespace Sys2Proof.Machine

/-- What the chip makes of the wires, the block driving the latches `l` and nobody else holding a line. -/
def Chip.see (l : Bool × Bool) (c : Chip) : Chip := c.observe l.1 (l.2 && !c.pull)

/-- The block runs and owns the lines, its latches are `l`, the chip is alone, at the next `k` observations nobody else
holds a line, and in its next `m` turns the environment does nothing. -/
structure OneChip (s : State) (c : Chip) (l : Bool × Bool) (k m : Nat) : Prop where
  live : Live s
  sclMode : s.sclMode = .odOut
  sdaMode : s.sdaMode = .odOut
  sclOut : s.sclOut = l.1
  sdaOut : s.sdaOut = l.2
  chips : s.chips = [c]
  envScl : s.envScl = true
  envSda : s.envSda = true
  free : ∀ n < k, s.levelAt n = ⟨true, true⟩
  still : ∀ n < m, s.actsAt n = []

namespace OneChip

variable {s : State} {c : Chip} {l : Bool × Bool} {k m : Nat}

theorem owned (h : OneChip s c l k m) : s.owned = true := by simp [State.owned, h.sclMode, h.sdaMode]

theorem sclLine (h : OneChip s c l k m) : s.sclLine = l.1 := by
  simp [State.sclLine, h.sclMode, h.envScl, h.sclOut, lineContribution]

theorem sdaLine (h : OneChip s c l k m) : s.sdaLine = (l.2 && !c.pull) := by
  simp [State.sdaLine, h.sdaMode, h.envSda, h.sdaOut, h.chips, lineContribution]

/-- The environment's turn passes. -/
theorem turn (h : OneChip s c l k (m + 1)) : OneChip (environmentTurn s) c l k m := by
  have e : s.nextActs = [] := by rw [← actsAt_zero]; exact h.still 0 (Nat.succ_pos m)
  have t : ∀ n < m, (environmentTurn s).actsAt n = [] := fun n hn => by
    rw [actsAt_environmentTurn]
    exact h.still _ (Nat.succ_lt_succ hn)
  rw [environmentTurn_still e] at t ⊢
  exact ⟨⟨h.live.hung, h.live.budget⟩, h.sclMode, h.sdaMode, h.sclOut, h.sdaOut, h.chips, h.envScl, h.envSda, h.free, t⟩

theorem setScl (h : OneChip s c l k (m + 1)) (v : Bool) : OneChip (setScl v s) (c.see (v, l.2)) (v, l.2) k m := by
  have g := h.turn
  unfold Machine.setScl
  rw [act_of_live h.live]
  generalize environmentTurn s = u at g ⊢
  have h' : OneChip { u with sclOut := v } c (v, l.2) k m :=
    ⟨⟨g.live.hung, g.live.budget⟩, g.sclMode, g.sdaMode, rfl, g.sdaOut, g.chips, g.envScl, g.envSda, g.free, g.still⟩
  refine ⟨⟨g.live.hung, rfl⟩, g.sclMode, g.sdaMode, rfl, g.sdaOut, ?_, g.envScl, g.envSda, g.free, g.still⟩
  show (settle { u with sclOut := v }).chips = _
  rw [settle_chips, h'.sclLine, h'.sdaLine, h'.chips]
  rfl

theorem setSda (h : OneChip s c l k (m + 1)) (v : Bool) : OneChip (setSda v s) (c.see (l.1, v)) (l.1, v) k m := by
  have g := h.turn
  unfold Machine.setSda
  rw [act_of_live h.live]
  generalize environmentTurn s = u at g ⊢
  have h' : OneChip { u with sdaOut := v } c (l.1, v) k m :=
    ⟨⟨g.live.hung, g.live.budget⟩, g.sclMode, g.sdaMode, g.sclOut, rfl, g.chips, g.envScl, g.envSda, g.free, g.still⟩
  refine ⟨⟨g.live.hung, rfl⟩, g.sclMode, g.sdaMode, g.sclOut, rfl, ?_, g.envScl, g.envSda, g.free, g.still⟩
  show (settle { u with sdaOut := v }).chips = _
  rw [settle_chips, h'.sclLine, h'.sdaLine, h'.chips]
  rfl

/-- The next contribution of the other devices taken, before the chip sees it. -/
def moved (s : State) : State :=
  { s with envScl := s.nextLevels.scl, envSda := s.nextLevels.sda, envScript := s.envScript.tail,
           envDraws := s.envDraws + 1 }

/-- The environment lets both lines go, and the chip sees them. -/
theorem moves (h : OneChip s c l (k + 1) m) : OneChip (environmentMoves s) (c.see l) l k m := by
  have e : s.nextLevels = ⟨true, true⟩ := by rw [← levelAt_zero]; exact h.free 0 (Nat.succ_pos k)
  have f : ∀ n < k, (environmentMoves s).levelAt n = ⟨true, true⟩ := by
    intro n hn
    have e := levelAt_of_script (s := s) (t := environmentMoves s) (n := 1)
      (by simp [environmentMoves]) (by simp [environmentMoves]) n
    rw [e]
    exact h.free _ (by omega)
  have h' : OneChip (moved s) c l k m :=
    ⟨⟨h.live.hung, h.live.budget⟩, h.sclMode, h.sdaMode, h.sclOut, h.sdaOut, h.chips, congrArg Levels.scl e,
      congrArg Levels.sda e, f, h.still⟩
  refine ⟨⟨h.live.hung, h.live.budget⟩, h.sclMode, h.sdaMode, h.sclOut, h.sdaOut, ?_, h'.envScl, h'.envSda, f, h.still⟩
  show (settle (moved s)).chips = _
  rw [settle_chips, h'.sclLine, h'.sdaLine, h'.chips]
  rfl

/-- A `Q()` with the wire following the clock latch hangs only where it needs a data line that is low. -/
theorem quarter (h : OneChip s c l (k + 1) (m + 1)) (check : QuarterCheck)
    (hd : check = .plain ∨ (l.2 && !(c.see l).pull) = true) : OneChip (quarter check s) (c.see l) l k m := by
  have g := h.turn.moves
  rw [quarter_eq, act_of_live h.live]
  dsimp only
  generalize environmentTurn s = u at g ⊢
  have hb : busHangs check (environmentMoves u) = false := by
    unfold busHangs
    rw [g.sclOut, g.sclLine, g.sdaLine]
    rcases hd with rfl | hd
    · cases l.1 <;> simp
    · rw [hd]
      cases l.1 <;> simp
  have hb' : busHangs check (quarterEffect u) = false := hb
  have he : (if busHangs check (quarterEffect u) then raiseBusHang (quarterEffect u) else quarterEffect u) =
      quarterEffect u := by rw [hb', if_neg Bool.false_ne_true]
  rw [he]
  exact ⟨⟨g.live.hung, rfl⟩, g.sclMode, g.sdaMode, g.sclOut, g.sdaOut, g.chips, g.envScl, g.envSda, g.free, g.still⟩

theorem sample (h : OneChip s c l (k + 1) (m + 1)) : (sampleSda s).1 = (l.2 && !(c.see l).pull) ∧
    OneChip (sampleSda s).2 (c.see l) l k m := by
  have g := h.turn.moves
  have e : OneChip (sampleSda s).2 (c.see l) l k m := by
    rw [sample_state, act_of_live h.live]
    generalize environmentTurn s = u at g ⊢
    exact ⟨⟨g.live.hung, rfl⟩, g.sclMode, g.sdaMode, g.sclOut, g.sdaOut, g.chips, g.envScl, g.envSda, g.free, g.still⟩
  exact ⟨e.sdaLine, e⟩

end OneChip

/-! ### Bit cells, start and stop conditions -/

/-- The chip after `wbit(b)`, the clock latch low before it. -/
def Chip.afterWbit (b : Bool) (c : Chip) : Chip :=
  c |>.see (false, b) |>.see (false, b) |>.see (true, b) |>.see (true, b) |>.see (false, b) |>.see (false, b)
    |>.see (false, b)

/-- The chip at the sample of `rbit()`, the clock latch low before it. -/
def Chip.atSample (c : Chip) : Chip :=
  c |>.see (false, true) |>.see (false, true) |>.see (true, true) |>.see (true, true) |>.see (true, true)
    |>.see (true, true)

/-- The chip after `rbit()`. -/
def Chip.afterRbit (c : Chip) : Chip := c.atSample |>.see (false, true) |>.see (false, true)

namespace OneChip

variable {s : State} {c : Chip} {d : Bool} {k m : Nat}

theorem wbit (h : OneChip s c (false, d) (k + 4) (m + 7)) (b : Bool) :
    OneChip (Machine.wbit b s) (c.afterWbit b) (false, b) k m :=
  ((((((h.setSda b).quarter .plain (.inl rfl)).setScl true).quarter .plain (.inl rfl)).setScl false).quarter .plain
    (.inl rfl)).quarter .plain (.inl rfl)

theorem rbit (h : OneChip s c (false, d) (k + 5) (m + 8)) :
    (Machine.rbit s).1 = !c.atSample.pull ∧ OneChip (Machine.rbit s).2 c.afterRbit (false, true) k m := by
  obtain ⟨h1, h2⟩ := ((((h.setSda true).quarter .plain (.inl rfl)).setScl true).quarter .plain (.inl rfl)).quarter
    .plain (.inl rfl) |>.sample
  exact ⟨h1, (h2.setScl false).quarter .plain (.inl rfl)⟩

end OneChip

/-! ### One clock pulse as the chip takes it -/

/-- One bit cell, the block letting data go where `b`: the chip takes the wire level at the rise and moves on at the
fall. -/
def Chip.cell (b : Bool) (c : Chip) : Chip :=
  { (c.clockRise (b && !c.pull)).clockFall with
    seenScl := false, seenSda := b && !(c.clockRise (b && !c.pull)).clockFall.pull }

theorem Chip.see_low {c : Chip} (hp : c.powered = true) (hs : c.seenScl = false) (d : Bool) :
    c.see (false, d) = { c with seenScl := false, seenSda := d && !c.pull } := by
  simp [Chip.see, Chip.observe, hp, hs]

theorem Chip.see_rise {c : Chip} (hp : c.powered = true) (hs : c.seenScl = false) (d : Bool) :
    c.see (true, d) = { c.clockRise (d && !c.pull) with seenScl := true, seenSda := d && !c.pull } := by
  simp [Chip.see, Chip.observe, hp, hs]

theorem Chip.see_fall {c : Chip} (hp : c.powered = true) (hs : c.seenScl = true) (d : Bool) :
    c.see (false, d) = { c.clockFall with seenScl := false, seenSda := d && !c.pull } := by
  simp [Chip.see, Chip.observe, hp, hs]

theorem Chip.see_low_seen {c : Chip} (hp : c.powered = true) (x d : Bool) :
    ({ c with seenScl := false, seenSda := x } : Chip).see (false, d) =
      { c with seenScl := false, seenSda := d && !c.pull } := Chip.see_low (by exact hp) rfl d

theorem Chip.see_still {c : Chip} (hp : c.powered = true) (hs : c.seenScl = true) {d : Bool}
    (hd : c.seenSda = (d && !c.pull)) : c.see (true, d) = c := by
  obtain ⟨_, _, _, _, _, _, _, _, _, _, _, pull, _, _⟩ := c
  simp only at hp hs hd
  subst hp hs hd
  cases d <;> cases pull <;> rfl

theorem Chip.clockRise_pull (c : Chip) (d : Bool) : (c.clockRise d).pull = c.pull ∧
    (c.clockRise d).powered = c.powered := by
  unfold Chip.clockRise
  split <;> (try split) <;> exact ⟨rfl, rfl⟩

theorem Chip.clockRise_seen (c : Chip) (d x y : Bool) :
    ({ c with seenScl := x, seenSda := y }).clockRise d = { c.clockRise d with seenScl := x, seenSda := y } := by
  unfold Chip.clockRise
  cases hp : c.phase <;> simp only [hp] <;> (try split) <;> rfl

theorem Chip.clockFall_powered (c : Chip) : c.clockFall.powered = c.powered := by
  unfold Chip.clockFall Chip.store Chip.beginSend
  cases c.phase <;> simp only <;> (repeat' split) <;> rfl

theorem Chip.clockFall_seen (c : Chip) (x y : Bool) :
    ({ c with seenScl := x, seenSda := y }).clockFall = { c.clockFall with seenScl := x, seenSda := y } := by
  unfold Chip.clockFall Chip.store Chip.beginSend Chip.selected Chip.pins
  cases hp : c.phase <;> simp only [hp] <;> (repeat' split) <;> first | rfl | simp_all

theorem Chip.afterWbit_eq {c : Chip} (hp : c.powered = true) (hs : c.seenScl = false) (b : Bool) :
    c.afterWbit b = c.cell b := by
  have r := c.clockRise_pull (b && !c.pull)
  have e1 : c.see (false, b) = { c with seenScl := false, seenSda := b && !c.pull } := Chip.see_low hp hs b
  have e2 : (c.see (false, b)).see (false, b) = c.see (false, b) := by
    rw [e1, Chip.see_low (by exact hp) rfl]
  have e3 : (c.see (false, b)).see (true, b) =
      { c.clockRise (b && !c.pull) with seenScl := true, seenSda := b && !c.pull } := by
    rw [e1, Chip.see_rise (by exact hp) rfl, Chip.clockRise_seen]
  have e4 : ((c.see (false, b)).see (true, b)).see (true, b) = (c.see (false, b)).see (true, b) := by
    rw [e3]
    exact Chip.see_still (by exact r.2.trans hp) rfl (by rw [show
      ({ c.clockRise (b && !c.pull) with seenScl := true, seenSda := b && !c.pull } : Chip).pull = c.pull from r.1])
  have e5 : ((c.see (false, b)).see (true, b)).see (false, b) =
      { (c.clockRise (b && !c.pull)).clockFall with seenScl := false, seenSda := b && !c.pull } := by
    rw [e3, Chip.see_fall (by exact r.2.trans hp) rfl, Chip.clockFall_seen,
      show ({ c.clockRise (b && !c.pull) with seenScl := true, seenSda := b && !c.pull } : Chip).pull = c.pull from r.1]
  have p5 : (c.clockRise (b && !c.pull)).clockFall.powered = true := by
    rw [Chip.clockFall_powered, r.2, hp]
  unfold Chip.afterWbit
  rw [e2, e4, e5, Chip.see_low_seen p5, Chip.see_low_seen p5]
  rfl

theorem Chip.atSample_eq {c : Chip} (hp : c.powered = true) (hs : c.seenScl = false) :
    c.atSample = { c.clockRise (!c.pull) with seenScl := true, seenSda := !c.pull } := by
  have r := c.clockRise_pull (!c.pull)
  have e1 : c.see (false, true) = { c with seenScl := false, seenSda := !c.pull } := by
    simpa using Chip.see_low hp hs true
  have e2 : (c.see (false, true)).see (false, true) = c.see (false, true) := by
    rw [e1, Chip.see_low (by exact hp) rfl]
    simp
  have e3 : (c.see (false, true)).see (true, true) =
      { c.clockRise (!c.pull) with seenScl := true, seenSda := !c.pull } := by
    rw [e1, Chip.see_rise (by exact hp) rfl, Chip.clockRise_seen]
    simp
  have e4 : ((c.see (false, true)).see (true, true)).see (true, true) = (c.see (false, true)).see (true, true) := by
    rw [e3]
    exact Chip.see_still (by exact r.2.trans hp) rfl (by
      rw [show ({ c.clockRise (!c.pull) with seenScl := true, seenSda := !c.pull } : Chip).pull = c.pull from r.1]
      simp)
  unfold Chip.atSample
  rw [e2, e4, e4, e4, e3]

/-- The level sampled is the chip's. -/
theorem Chip.atSample_pull {c : Chip} (hp : c.powered = true) (hs : c.seenScl = false) : c.atSample.pull = c.pull := by
  rw [Chip.atSample_eq hp hs]
  exact (c.clockRise_pull (!c.pull)).1

theorem Chip.afterRbit_eq {c : Chip} (hp : c.powered = true) (hs : c.seenScl = false) : c.afterRbit = c.cell true := by
  have r := c.clockRise_pull (!c.pull)
  have p5 : (c.clockRise (!c.pull)).clockFall.powered = true := by rw [Chip.clockFall_powered, r.2, hp]
  have e : ({ c.clockRise (!c.pull) with seenScl := true, seenSda := !c.pull } : Chip).see (false, true) =
      { (c.clockRise (!c.pull)).clockFall with
        seenScl := false, seenSda := true && !(c.clockRise (!c.pull)).pull } := by
    rw [Chip.see_fall (by exact r.2.trans hp) rfl, Chip.clockFall_seen]
  unfold Chip.afterRbit
  rw [Chip.atSample_eq hp hs, e, Chip.see_low_seen p5]
  simp [Chip.cell]

theorem Chip.cell_state {c : Chip} (b : Bool) (hp : c.powered = true) :
    (c.cell b).powered = true ∧ (c.cell b).seenScl = false := by
  refine ⟨?_, rfl⟩
  show (c.clockRise (b && !c.pull)).clockFall.powered = true
  rw [Chip.clockFall_powered, (c.clockRise_pull _).2, hp]

/-- Bit cells one after the other. -/
def Chip.cells (bs : List Bool) (c : Chip) : Chip := bs.foldl (fun c b => c.cell b) c

namespace OneChip

variable {s : State} {c : Chip} {d : Bool} {k m : Nat}

theorem wbit_cell (h : OneChip s c (false, d) (k + 4) (m + 7)) (hp : c.powered = true) (hs : c.seenScl = false) (b : Bool) :
    OneChip (Machine.wbit b s) (c.cell b) (false, b) k m := by
  rw [← Chip.afterWbit_eq hp hs]
  exact h.wbit b

theorem rbit_cell (h : OneChip s c (false, d) (k + 5) (m + 8)) (hp : c.powered = true) (hs : c.seenScl = false) :
    (Machine.rbit s).1 = !c.pull ∧ OneChip (Machine.rbit s).2 (c.cell true) (false, true) k m := by
  have r := h.rbit
  rwa [Chip.atSample_pull hp hs, Chip.afterRbit_eq hp hs] at r

theorem wbits_cells (bs : List Bool) (h : OneChip s c (false, d) (k + 4 * bs.length) (m + 7 * bs.length)) (hp : c.powered = true)
    (hs : c.seenScl = false) :
    OneChip (Machine.wbits bs s) (c.cells bs) (false, bs.getLastD d) k m ∧ (c.cells bs).powered = true ∧
      (c.cells bs).seenScl = false := by
  induction bs generalizing s c d with
  | nil => exact ⟨h, hp, hs⟩
  | cons b bs ih =>
    have h1 : OneChip s c (false, d) (k + 4 * bs.length + 4) (m + 7 * bs.length + 7) := h
    obtain ⟨p1, p2⟩ := Chip.cell_state b hp
    have h2 := ih (h1.wbit_cell hp hs b) p1 p2
    rwa [List.getLastD_cons]

/-- `wbyte(v)` as the chip takes it: eight cells with the bits, then one with data let go, whose level is the chip's. -/
theorem wbyte_cells (v : Byte) (h : OneChip s c (false, d) (k + 37) (m + 64)) (hp : c.powered = true) (hs : c.seenScl = false) :
    OneChip (Machine.wbyte v s) ((c.cells (bitsMsbFirst v)).cell true) (false, true) k m ∧
      (Machine.wbyte v s).ackf = (c.cells (bitsMsbFirst v)).pull := by
  have l8 : (bitsMsbFirst v).length = 8 := by simp [bitsMsbFirst]
  have h1 : OneChip s c (false, d) (k + 5 + 4 * (bitsMsbFirst v).length) (m + 8 + 7 * (bitsMsbFirst v).length) := by
    rw [l8, show k + 5 + 4 * 8 = k + 37 by omega, show m + 8 + 7 * 8 = m + 64 by omega]
    exact h
  obtain ⟨h2, p2, q2⟩ := h1.wbits_cells _ hp hs
  obtain ⟨h3, h4⟩ := h2.rbit_cell p2 q2
  have e : Machine.wbyte v s = setAckf (Machine.rbit (Machine.wbits (bitsMsbFirst v) s)).1
      (Machine.rbit (Machine.wbits (bitsMsbFirst v) s)).2 := by dsimp only [Machine.wbyte]
  rw [e]
  clear e h h1 h2
  generalize Machine.rbit (Machine.wbits (bitsMsbFirst v) s) = r at h3 h4 ⊢
  generalize c.cells (bitsMsbFirst v) = c' at h3 h4 ⊢
  rw [setAckf, note_of_live h4.live, h3]
  exact ⟨⟨⟨h4.live.hung, h4.live.budget⟩, h4.sclMode, h4.sdaMode, h4.sclOut, h4.sdaOut, h4.chips, h4.envScl, h4.envSda,
    h4.free, h4.still⟩, by simp [ackFlag]⟩

end OneChip

/-! ### Bytes, start and stop conditions as the chip takes them -/

/-- A chip that is receiving: addressed or being addressed, powered, not pulling. -/
structure Chip.Receiving (c : Chip) : Prop where
  powered : c.powered = true
  phase : c.phase = .address ∨ c.phase = .pointer ∨ c.phase = .data
  pull : c.pull = false

/-- A bit taken before the eighth. -/
theorem Chip.cell_receiving {c : Chip} (h : c.Receiving) (b : Bool) (hk : c.clocks < 7) :
    c.cell b = { c with clocks := c.clocks + 1, shift := shiftIn c.shift b, seenScl := false, seenSda := b } := by
  obtain ⟨_, hp, hq⟩ := h
  have h1 : c.clockRise (b && !c.pull) = { c with clocks := c.clocks + 1, shift := shiftIn c.shift b } := by
    unfold Chip.clockRise shiftIn
    rcases hp with hp | hp | hp <;> simp [hp, hq, show c.clocks < 8 by omega]
  have h2 : ({ c with clocks := c.clocks + 1, shift := shiftIn c.shift b } : Chip).clockFall =
      { c with clocks := c.clocks + 1, shift := shiftIn c.shift b } := by
    unfold Chip.clockFall
    rcases hp with hp | hp | hp <;> simp [hp, show c.clocks ≠ 7 by omega, show c.clocks ≠ 8 by omega]
  unfold Chip.cell
  rw [h1, h2]
  simp [hq]

/-- The chip after `start()` from an idle bus, the chip at rest. -/
def Chip.started (c : Chip) : Chip :=
  { c with phase := .address, clocks := 0, shift := 0, pull := false, seenScl := false, seenSda := false }

/-- Up to seven bits. -/
theorem Chip.cells_receiving (bs : List Bool) {c : Chip} (h : c.Receiving) (hs : c.seenScl = false)
    (hk : c.clocks + bs.length ≤ 7) :
    c.cells bs = { c with clocks := c.clocks + bs.length, shift := bs.foldl shiftIn c.shift,
                          seenScl := false, seenSda := bs.getLastD c.seenSda } := by
  induction bs generalizing c with
  | nil =>
    obtain ⟨⟩ := c
    simp only at hs
    subst hs
    rfl
  | cons b bs ih =>
    rw [List.length_cons] at hk
    have e := Chip.cell_receiving h b (by omega)
    have r : (c.cell b).Receiving := by
      rw [e]
      exact ⟨h.powered, h.phase, h.pull⟩
    have i := ih r (by rw [e]) (by rw [e]; show c.clocks + 1 + _ ≤ 7; omega)
    show (c.cell b).cells bs = _
    rw [i, e]
    rw [List.getLastD_cons]
    show ({ c with clocks := c.clocks + 1 + bs.length, shift := bs.foldl shiftIn (shiftIn c.shift b),
                   seenScl := false, seenSda := bs.getLastD b } : Chip) = _
    rw [List.length_cons, show c.clocks + 1 + bs.length = c.clocks + (bs.length + 1) by omega]
    rfl

/-- Eight bits shifted in are the byte they spell (20_memory.md R52). -/
theorem foldl_shiftIn (v : Byte) : (bitsMsbFirst v).foldl shiftIn 0 = v := by
  revert v
  decide

/-- A whole byte received: at the eighth fall the chip acts on it. -/
theorem Chip.cells_byte (v : Byte) {c : Chip} (h : c.Receiving) (hs : c.seenScl = false) (hk : c.clocks = 0)
    (h0 : c.shift = 0) :
    c.cells (bitsMsbFirst v) =
      { ({ c with clocks := 8, shift := v } : Chip).clockFall with
        seenScl := false
        seenSda := v.getLsbD 0 && !({ c with clocks := 8, shift := v } : Chip).clockFall.pull } := by
  have e : bitsMsbFirst v = [7, 6, 5, 4, 3, 2, 1].map v.getLsbD ++ [v.getLsbD 0] := rfl
  have f : shiftIn (([7, 6, 5, 4, 3, 2, 1].map v.getLsbD).foldl shiftIn 0) (v.getLsbD 0) = v := by
    have g := foldl_shiftIn v
    rwa [e, List.foldl_append] at g
  have i := Chip.cells_receiving ([7, 6, 5, 4, 3, 2, 1].map v.getLsbD) h hs (by rw [hk, List.length_map]; decide)
  rw [hk, h0] at i
  have s : c.cells (bitsMsbFirst v) = (c.cells ([7, 6, 5, 4, 3, 2, 1].map v.getLsbD)).cell (v.getLsbD 0) := by
    rw [e, Chip.cells, List.foldl_append]
    rfl
  rw [s, i]
  generalize hw : ([7, 6, 5, 4, 3, 2, 1].map v.getLsbD).foldl shiftIn 0 = w at f ⊢
  generalize v.getLsbD 0 = b at f ⊢
  generalize ([7, 6, 5, 4, 3, 2, 1].map v.getLsbD).getLastD c.seenSda = y
  have r : (({ c with clocks := 7, shift := w, seenScl := false, seenSda := y } : Chip).clockRise (b && !c.pull)) =
      { ({ c with clocks := 8, shift := v } : Chip) with seenScl := false, seenSda := y } := by
    rw [← f, h.pull]
    unfold Chip.clockRise shiftIn
    rcases h.phase with p | p | p <;> simp [p]
  have n : 0 + ([7, 6, 5, 4, 3, 2, 1].map v.getLsbD).length = 7 := rfl
  rw [n]
  show ({ (({ c with clocks := 7, shift := w, seenScl := false, seenSda := y } : Chip).clockRise
      (b && !c.pull)).clockFall with seenScl := false, seenSda := _ } : Chip) = _
  rw [r, Chip.clockFall_seen]

/-! ### What a byte does to the chip, by its place in the frame -/

/-- A chip between two bytes, the clock low: it awaits a byte in the phase it is in. -/
structure Chip.Awaiting (c : Chip) (phase : ChipPhase) : Prop where
  powered : c.powered = true
  phase : c.phase = phase
  pull : c.pull = false
  clocks : c.clocks = 0
  shift : c.shift = 0
  seenScl : c.seenScl = false

theorem addrByte_fields (a : Addr7) (d : Bool) :
    (addrByte a d).extractLsb' 1 7 = a ∧ (addrByte a d).getLsbD 0 = d := by
  revert a d
  decide

/-- The chip's own address for a write: acknowledged, and the register pointer is awaited. -/
theorem Chip.byte_address_write {c : Chip} (h : c.Awaiting .address) :
    (c.cells (bitsMsbFirst (addrByte c.addr false))).pull = true ∧
    (c.cells (bitsMsbFirst (addrByte c.addr false))).cell true = { c with phase := .pointer, seenSda := true } := by
  obtain ⟨f1, f2⟩ := addrByte_fields c.addr false
  rw [Chip.cells_byte _ ⟨h.powered, .inl h.phase, h.pull⟩ h.seenScl h.clocks h.shift]
  generalize addrByte c.addr false = v at f1 f2 ⊢
  obtain ⟨addr, out, inv, cfg, ptr, ext, powered, phase, clocks, shift, more, pull, seenScl, seenSda⟩ := c
  obtain ⟨e1, e2, e3, e4, e5, e6⟩ := h
  simp only at e1 e2 e3 e4 e5 e6 f1
  subst e1 e2 e3 e4 e5 e6 f1
  have f3 : v[0] = false := f2
  constructor <;> simp [Chip.cell, Chip.clockFall, Chip.clockRise, f3]

/-- The chip's own address for a read: acknowledged, and it begins to send the register `ptr` selects. -/
theorem Chip.byte_address_read {c : Chip} (h : c.Awaiting .address) :
    (c.cells (bitsMsbFirst (addrByte c.addr true))).pull = true ∧
    (c.cells (bitsMsbFirst (addrByte c.addr true))).cell true =
      { c with phase := .sending, shift := c.selected, pull := !c.selected.getLsbD 7,
               seenSda := c.selected.getLsbD 7 } := by
  obtain ⟨f1, f2⟩ := addrByte_fields c.addr true
  rw [Chip.cells_byte _ ⟨h.powered, .inl h.phase, h.pull⟩ h.seenScl h.clocks h.shift]
  generalize addrByte c.addr true = v at f1 f2 ⊢
  obtain ⟨addr, out, inv, cfg, ptr, ext, powered, phase, clocks, shift, more, pull, seenScl, seenSda⟩ := c
  obtain ⟨e1, e2, e3, e4, e5, e6⟩ := h
  simp only at e1 e2 e3 e4 e5 e6 f1
  subst e1 e2 e3 e4 e5 e6 f1
  have f3 : v[0] = true := f2
  constructor <;> simp [Chip.cell, Chip.clockFall, Chip.clockRise, Chip.beginSend, Chip.selected, Chip.pins, f3]

/-- The register pointer: its low two bits, acknowledged. -/
theorem Chip.byte_pointer {c : Chip} (h : c.Awaiting .pointer) (v : Byte) :
    (c.cells (bitsMsbFirst v)).pull = true ∧
    (c.cells (bitsMsbFirst v)).cell true = { c with phase := .data, ptr := v.extractLsb' 0 2, seenSda := true } := by
  rw [Chip.cells_byte _ ⟨h.powered, .inr (.inl h.phase), h.pull⟩ h.seenScl h.clocks h.shift]
  obtain ⟨addr, out, inv, cfg, ptr, ext, powered, phase, clocks, shift, more, pull, seenScl, seenSda⟩ := c
  obtain ⟨e1, e2, e3, e4, e5, e6⟩ := h
  simp only at e1 e2 e3 e4 e5 e6
  subst e1 e2 e3 e4 e5 e6
  constructor <;> simp [Chip.cell, Chip.clockFall, Chip.clockRise]

theorem Chip.store_eq (c : Chip) (v : Byte) : c.store v =
    { c with out := if c.ptr = 1 then v else c.out, inv := if c.ptr = 2 then v else c.inv,
             cfg := if c.ptr = 3 then v else c.cfg } := by
  obtain ⟨addr, out, inv, cfg, ptr, ext, powered, phase, clocks, shift, more, pull, seenScl, seenSda⟩ := c
  have p : ptr = 0 ∨ ptr = 1 ∨ ptr = 2 ∨ ptr = 3 := by
    revert ptr
    decide
  rcases p with rfl | rfl | rfl | rfl <;> rfl

/-- A data byte: stored where the pointer says, acknowledged. -/
theorem Chip.byte_data {c : Chip} (h : c.Awaiting .data) (v : Byte) :
    (c.cells (bitsMsbFirst v)).pull = true ∧
    (c.cells (bitsMsbFirst v)).cell true = { c.store v with seenSda := true } := by
  rw [Chip.cells_byte _ ⟨h.powered, .inr (.inr h.phase), h.pull⟩ h.seenScl h.clocks h.shift]
  obtain ⟨addr, out, inv, cfg, ptr, ext, powered, phase, clocks, shift, more, pull, seenScl, seenSda⟩ := c
  obtain ⟨e1, e2, e3, e4, e5, e6⟩ := h
  simp only at e1 e2 e3 e4 e5 e6
  subst e1 e2 e3 e4 e5 e6
  constructor <;> simp [Chip.cell, Chip.clockFall, Chip.clockRise, Chip.store_eq]

/-! ### The chip sends -/

/-- The low `n` bits of a byte, most significant first. -/
def lowBits (v : Byte) : Nat → List Bool
  | 0 => []
  | n + 1 => v.getLsbD n :: lowBits v n

theorem lowBits_eight (v : Byte) : lowBits v 8 = bitsMsbFirst v := rfl

/-- A bit sent: the chip presents the next one. -/
theorem Chip.cell_sending {c : Chip} {n : Nat} (hp : c.phase = .sending) (hk : c.clocks = 8 - (n + 1)) (hn : n < 8) :
    ∃ y, c.cell true = { c with clocks := 8 - n, pull := if n = 0 then false else !c.shift.getLsbD (n - 1),
                                seenScl := false, seenSda := y } := by
  unfold Chip.cell
  have h1 : c.clockRise (true && !c.pull) = { c with clocks := 8 - n } := by
    unfold Chip.clockRise
    simp only [hp]
    rw [if_pos (by omega), hk, show 8 - (n + 1) + 1 = 8 - n by omega]
  have h2 : ({ c with clocks := 8 - n } : Chip).clockFall =
      { c with clocks := 8 - n, pull := if n = 0 then false else !c.shift.getLsbD (n - 1) } := by
    unfold Chip.clockFall
    simp only [hp]
    rw [if_neg (by omega)]
    by_cases h : n = 0
    · subst h
      rfl
    · rw [if_neg (by omega), if_neg h, show 7 - (8 - n) = n - 1 by omega]
  rw [h1, h2]
  exact ⟨_, rfl⟩

namespace OneChip

/-- Bits read from a sending chip are the bits of the byte it sends. -/
theorem rbits_sending (n : Nat) (acc : Byte) {s : State} {c : Chip} {d : Bool} {k m : Nat}
    (h : OneChip s c (false, d) (k + 5 * n) (m + 8 * n)) (hp : c.powered = true) (hs : c.seenScl = false)
    (hf : c.phase = .sending) (hn : n ≤ 8) (hk : c.clocks = 8 - n)
    (hq : c.pull = if n = 0 then false else !c.shift.getLsbD (n - 1)) :
    (Machine.rbits n acc s).1 = (lowBits c.shift n).foldl shiftIn acc ∧
      ∃ y d', OneChip (Machine.rbits n acc s).2
        { c with clocks := 8, pull := false, seenScl := false, seenSda := y } (false, d') k m := by
  induction n generalizing s c d acc with
  | zero =>
    refine ⟨rfl, c.seenSda, d, ?_⟩
    have e : ({ c with clocks := 8, pull := false, seenScl := false, seenSda := c.seenSda } : Chip) = c := by
      obtain ⟨⟩ := c
      simp only at hs hk hq
      subst hs hk hq
      rfl
    rw [e]
    exact h
  | succ n ih =>
    have h1 : OneChip s c (false, d) (k + 5 * n + 5) (m + 8 * n + 8) := h
    obtain ⟨v, r⟩ := h1.rbit_cell hp hs
    obtain ⟨y, e⟩ := Chip.cell_sending hf hk (by omega)
    rw [e] at r
    have i := ih (shiftIn acc (c.shift.getLsbD n)) r hp rfl hf (by omega) rfl rfl
    have w : Machine.rbits (n + 1) acc s =
        Machine.rbits n (shiftIn acc (c.shift.getLsbD n)) (Machine.rbit s).2 := by
      have b : (Machine.rbit s).1 = c.shift.getLsbD n := by
        rw [v, hq, if_neg (Nat.succ_ne_zero n)]
        simp
      rw [← b]
      rfl
    rw [w]
    exact ⟨i.1, i.2⟩

/-- `rbyte(ack)` from a chip that begins to send `v`: the byte is `v`; not acknowledged, the chip lets go. -/
theorem rbyte_sending {s : State} {c : Chip} {d : Bool} {k m : Nat} (h : OneChip s c (false, d) (k + 44) (m + 71))
    (hp : c.powered = true) (hs : c.seenScl = false) (hf : c.phase = .sending) (hk : c.clocks = 0)
    (hq : c.pull = !c.shift.getLsbD 7) :
    (Machine.rbyte false s).1 = c.shift ∧
      ∃ y, OneChip (Machine.rbyte false s).2
        { c with phase := .idle, clocks := 9, more := false, pull := false, seenScl := false, seenSda := y }
        (false, true) k m := by
  have h1 : OneChip s c (false, d) (k + 4 + 5 * 8) (m + 7 + 8 * 8) := h
  obtain ⟨v, y, d', r⟩ := rbits_sending 8 0 h1 hp hs hf (Nat.le_refl 8) hk hq
  have w := r.wbit_cell hp rfl true
  rw [lowBits_eight, foldl_shiftIn] at v
  have e : (Machine.rbyte false s).1 = (Machine.rbits 8 0 s).1 ∧
      (Machine.rbyte false s).2 = Machine.wbit true (Machine.rbits 8 0 s).2 := by
    dsimp only [Machine.rbyte, Bool.not_false]
    generalize rbits 8 0 s = r
    exact ⟨rfl, rfl⟩
  rw [e.1, e.2]
  refine ⟨v, true, ?_⟩
  have t : ({ c with clocks := 8, pull := false, seenScl := false, seenSda := y } : Chip).cell true =
      { c with phase := .idle, clocks := 9, more := false, pull := false, seenScl := false, seenSda := true } := by
    unfold Chip.cell Chip.clockRise
    simp [hf, Chip.clockFall]
  rw [t] at w
  exact w

/-! ### Start and stop conditions -/

/-- `start()` on an idle bus: the chip at rest awaits an address byte. -/
theorem start_idle {s : State} {c : Chip} {k : Nat} (h : OneChip s c (true, true) (k + 4) (m + 8)) (hr : c.AtRest) :
    OneChip (Machine.start s) c.started (false, false) k m ∧ c.started.Awaiting .address := by
  obtain ⟨p1, p2, p3, p4, p5⟩ := hr
  have st : c.see (true, true) = c := Chip.see_still p1 p4 (by rw [p5, p3]; rfl)
  have f : c.see (true, false) =
      { c with phase := .address, clocks := 0, shift := 0, pull := false, seenScl := true, seenSda := false } := by
    simp [Chip.see, Chip.observe, p1, p4, p5]
  have f2 : (c.see (true, false)).see (true, false) = c.see (true, false) := by
    rw [f]
    exact Chip.see_still (by exact p1) rfl rfl
  have f3 : (c.see (true, false)).see (false, false) = c.started := by
    rw [f, Chip.see_fall (by exact p1) rfl]
    rfl
  have f4 : c.started.see (false, false) = c.started := Chip.see_low (by exact p1) rfl false
  have a1 := (h.setSda true).quarter .plain (.inl rfl)
  rw [st, st] at a1
  have a2 := (a1.setScl true).quarter .startSecond (.inr (by rw [st, st, p3]; rfl))
  rw [st, st] at a2
  have a3 := (a2.setSda false).quarter .plain (.inl rfl)
  rw [f2] at a3
  have a4 := (a3.setScl false).quarter .plain (.inl rfl)
  rw [f3, f4] at a4
  exact ⟨a4, p1, rfl, rfl, rfl, rfl, rfl⟩

/-- `start()` inside a transaction, the chip awaiting a data byte: it awaits an address byte. -/
theorem start_repeated {s : State} {c : Chip} {d : Bool} {k m : Nat} (h : OneChip s c (false, d) (k + 4) (m + 8))
    (ha : c.Awaiting .data) :
    OneChip (Machine.start s) c.started (false, false) k m ∧ c.started.Awaiting .address := by
  obtain ⟨p1, p2, p3, p4, p5, p6⟩ := ha
  have g : c.see (false, true) = { c with seenScl := false, seenSda := true } := by
    have e := Chip.see_low p1 p6 true
    rwa [show (true && !c.pull) = true by rw [p3]; rfl] at e
  have g2 : (c.see (false, true)).see (false, true) = c.see (false, true) := by
    rw [g, Chip.see_low_seen p1, p3]
    rfl
  have r : (c.see (false, true)).see (true, true) =
      { c with clocks := 1, shift := 1, seenScl := true, seenSda := true } := by
    rw [g, Chip.see_rise (by exact p1) rfl]
    unfold Chip.clockRise
    simp [p2, p3, p4, p5]
  have r2 : ((c.see (false, true)).see (true, true)).see (true, true) = (c.see (false, true)).see (true, true) := by
    rw [r]
    exact Chip.see_still (by exact p1) rfl (by rw [show
      ({ c with clocks := 1, shift := 1, seenScl := true, seenSda := true } : Chip).pull = false from p3]; rfl)
  have f : ((c.see (false, true)).see (true, true)).see (true, false) =
      { c with phase := .address, clocks := 0, shift := 0, pull := false, seenScl := true, seenSda := false } := by
    rw [r]
    simp [Chip.see, Chip.observe, p1]
  have f2 : (((c.see (false, true)).see (true, true)).see (true, false)).see (true, false) =
      ((c.see (false, true)).see (true, true)).see (true, false) := by
    rw [f]
    exact Chip.see_still (by exact p1) rfl rfl
  have f3 : (((c.see (false, true)).see (true, true)).see (true, false)).see (false, false) = c.started := by
    rw [f, Chip.see_fall (by exact p1) rfl]
    rfl
  have f4 : c.started.see (false, false) = c.started := Chip.see_low (by exact p1) rfl false
  have a1 := (h.setSda true).quarter .plain (.inl rfl)
  rw [g2] at a1
  have a2 := (a1.setScl true).quarter .startSecond (.inr (by rw [r2, r, show
    ({ c with clocks := 1, shift := 1, seenScl := true, seenSda := true } : Chip).pull = false from p3]; rfl))
  rw [r2] at a2
  have a3 := (a2.setSda false).quarter .plain (.inl rfl)
  rw [f2] at a3
  have a4 := (a3.setScl false).quarter .plain (.inl rfl)
  rw [f3, f4] at a4
  exact ⟨a4, p1, rfl, rfl, rfl, rfl, rfl⟩

/-- `stop()` after a byte written or read, the chip not pulling: it is at rest, its registers and pointer as they were. -/
theorem stop_end {s : State} {c : Chip} {d : Bool} {k m : Nat} (h : OneChip s c (false, d) (k + 3) (m + 6)) (hp : c.powered = true)
    (hs : c.seenScl = false) (hq : c.pull = false) (hf : c.phase = .idle ∨ c.phase = .data) (hk : c.clocks < 8 ∨ c.phase = .idle) :
    ∃ c', OneChip (Machine.stop s) c' (true, true) k m ∧ c'.AtRest ∧ SameRegisters c c' ∧ c'.addr = c.addr ∧
      c'.ext = c.ext ∧ c'.ptr = c.ptr := by
  have g : c.see (false, false) = { c with seenScl := false, seenSda := false } := Chip.see_low hp hs false
  have g2 : (c.see (false, false)).see (false, false) = c.see (false, false) := by
    rw [g, Chip.see_low_seen hp]
    rfl
  have r0 : ∃ x y, c.clockRise false = { c with clocks := x, shift := y } := by
    unfold Chip.clockRise
    rcases hf with hf | hf
    · exact ⟨c.clocks, c.shift, by simp only [hf]; rw [← hf]⟩
    · have : c.clocks < 8 := by
        rcases hk with hk | hk
        · exact hk
        · rw [hf] at hk
          cases hk
      exact ⟨_, _, by simp only [hf]; rw [if_pos this]⟩
  obtain ⟨x, y, r0⟩ := r0
  have r : (c.see (false, false)).see (true, false) =
      { c with clocks := x, shift := y, seenScl := true, seenSda := false } := by
    rw [g, Chip.see_rise (by exact hp) rfl, Chip.clockRise_seen, Bool.false_and, r0]
  have r2 : ((c.see (false, false)).see (true, false)).see (true, false) = (c.see (false, false)).see (true, false) := by
    rw [r]
    exact Chip.see_still (by exact hp) rfl rfl
  have f : ((c.see (false, false)).see (true, false)).see (true, true) =
      { c with phase := .idle, clocks := x, shift := y, pull := false, seenScl := true, seenSda := true } := by
    rw [r]
    simp [Chip.see, Chip.observe, hp, hq]
  have f2 : (((c.see (false, false)).see (true, false)).see (true, true)).see (true, true) =
      ((c.see (false, false)).see (true, false)).see (true, true) := by
    rw [f]
    exact Chip.see_still (by exact hp) rfl rfl
  have a1 := (h.setSda false).quarter .plain (.inl rfl)
  rw [g2] at a1
  have a2 := (a1.setScl true).quarter .plain (.inl rfl)
  rw [r2] at a2
  have a3 := (a2.setSda true).quarter .stopThird (.inr (by rw [f2, f]; rfl))
  rw [f2, f] at a3
  exact ⟨_, a3, ⟨hp, rfl, rfl, rfl, rfl⟩, ⟨rfl, rfl, rfl⟩, rfl, rfl, rfl⟩

end OneChip

end Sys2Proof.Machine
end

