-- ==== Sys2Proof/Laws/Config.lean ====
section
/-! SUPPORT. All that is known of the parameters: they lie in the ranges of 00_scope.md R9. -/

namespace Sys2Proof

theorem Config.expBase_le : Config.params.expBase ≤ 0x7D := by
  have := Config.expBase.isLt
  show Config.expBase.val ≤ 0x7D
  omega

theorem Config.pwmPeriod_pos : 0 < Config.params.pwmPeriod := Nat.succ_pos _

theorem Config.pwmBaseThresh_le : Config.params.pwmBaseThresh ≤ Config.params.pwmPeriod := by
  have := Config.pwmBaseThresh.isLt
  show Config.pwmBaseThresh.val ≤ Config.pwmPeriodLess1 + 1
  omega

theorem Config.pwmPressedThresh_le : Config.params.pwmPressedThresh ≤ Config.params.pwmPeriod := by
  have := Config.pwmPressedThresh.isLt
  show Config.pwmPressedThresh.val ≤ Config.pwmPeriodLess1 + 1
  omega

theorem Config.aliveTestMask_cases : Config.params.aliveTestMask = 0x10 ∨ Config.params.aliveTestMask = 0x20 := by
  show (if Config.aliveTestMaskIsBit5 then (0x20 : Byte) else 0x10) = 0x10 ∨ _
  cases h : Config.aliveTestMaskIsBit5
  · exact .inl (if_neg (by simp))
  · refine .inr ?_
    show (if Config.aliveTestMaskIsBit5 then (0x20 : Byte) else 0x10) = 0x20
    rw [h]
    rfl

theorem Config.aliveTestMask_ne_zero : Config.params.aliveTestMask ≠ 0 := by
  rcases Config.aliveTestMask_cases with h | h <;> rw [h] <;> decide

theorem Config.params_valid : Config.params.valid = true := by
  have h1 := Config.expBase_le
  have h2 := Config.pwmPeriod_pos
  have h3 := Config.pwmBaseThresh_le
  have h4 := Config.pwmPressedThresh_le
  have h5 : 1 ≤ Config.params.quarterBitCycles := Nat.succ_pos _
  simp only [Params.valid, Bool.and_eq_true, decide_eq_true_eq, Bool.or_eq_true, beq_iff_eq]
  exact ⟨⟨⟨⟨⟨h5, h1⟩, Config.aliveTestMask_cases⟩, h2⟩, h3⟩, h4⟩

namespace Machine

/-- The panel's chips always have addresses (44_panel.md R204: "excluded by the parameter range"). -/
theorem checkAddr_panel : checkAddr Config.params 2 = none := by
  have h := Config.expBase_le
  unfold checkAddr deviceSum
  rw [if_neg (by omega)]

/-- The address of an accepted chip is the sum, not a truncation of it (60_exceptions.md R247). -/
theorem deviceAddr_toNat {P : Params} {chip : Nat} (h : checkAddr P chip = none) :
    (deviceAddr P chip).toNat = P.expBase + chip := by
  unfold checkAddr deviceSum at h
  unfold deviceAddr deviceSum
  split at h
  · cases h
  · rw [BitVec.toNat_ofNat, Nat.mod_eq_of_lt (by omega)]

/-- An address that exists is not refused (60_exceptions.md R247). -/
theorem checkAddr_of {chip : Nat} (h : Config.params.expBase + chip ≤ 0x7F) : checkAddr Config.params chip = none := by
  rw [checkAddr, if_neg (by unfold deviceSum; omega)]

end Machine

end Sys2Proof
end

