-- ==== Sys2Proof/Laws/Frames.lean ====
section
/-! SUPPORT. What a bus monitor reads off the waveforms of the procedures: the frames of 30_encoding.md R87. -/

namespace Sys2Proof.Machine

/-- Eight bits on the data latch, each pulsed once by the clock, are collected by the monitor. -/
theorem framesFrom_bitWave {d : Bool} {bits : List Bool} (b : Bool) (rest : List (Bool × Bool)) (h : bits.length ≠ 8) :
    framesFrom (false, d) bits (bitWave false b ++ rest) = framesFrom (false, b) (bits ++ [b]) rest := by
  cases d <;> cases b <;> simp [bitWave, framesFrom, h]

theorem framesFrom_bitWave_ninth {d : Bool} {bits : List Bool} (b : Bool) (rest : List (Bool × Bool))
    (h : bits.length = 8) : framesFrom (false, d) bits (bitWave false b ++ rest) =
      .byte (byteOfMsbFirst bits) b :: framesFrom (false, b) [] rest := by
  cases d <;> cases b <;> simp [bitWave, framesFrom, h]

theorem framesFrom_readWave {d : Bool} {bits : List Bool} (rest : List (Bool × Bool)) (h : bits.length ≠ 8) :
    framesFrom (false, d) bits (readWave false ++ rest) = framesFrom (false, true) (bits ++ [true]) rest := by
  cases d <;> simp [readWave, framesFrom, h]

theorem framesFrom_readWave_ninth {d : Bool} {bits : List Bool} (rest : List (Bool × Bool)) (h : bits.length = 8) :
    framesFrom (false, d) bits (readWave false ++ rest) =
      .byte (byteOfMsbFirst bits) true :: framesFrom (false, true) [] rest := by
  cases d <;> simp [readWave, framesFrom, h]

/-- The bits of a byte, most significant first, spell it. -/
theorem byteOfMsbFirst_bitsMsbFirst (v : Byte) : byteOfMsbFirst (bitsMsbFirst v) = v := by
  revert v; decide

/-- A byte written, as the latches show it (30_encoding.md R86). -/
theorem framesFrom_byteWave {d : Bool} (v : Byte) (rest : List (Bool × Bool)) :
    framesFrom (false, d) [] (byteWave false v ++ rest) = sent v :: framesFrom (false, true) [] rest := by
  rw [sent]
  conv => rhs; rw [← byteOfMsbFirst_bitsMsbFirst v]
  simp only [byteWave, bitsMsbFirst, List.map_cons, List.map_nil, bitsWave, List.append_assoc, List.nil_append]
  repeat rw [framesFrom_bitWave _ _ (by simp)]
  rw [framesFrom_readWave_ninth _ (by simp)]
  rfl

/-- A byte read, as the latches show it: the data line released, then the master's answer. -/
theorem framesFrom_byteReadWave {d : Bool} (ack : Bool) (rest : List (Bool × Bool)) :
    framesFrom (false, d) [] (byteReadWave false ack ++ rest) =
      received (!ack) :: framesFrom (false, !ack) [] rest := by
  simp only [byteReadWave, List.replicate, List.flatten_cons, List.flatten_nil, List.append_assoc, List.append_nil]
  repeat rw [framesFrom_readWave _ (by simp)]
  rw [framesFrom_bitWave_ninth _ _ (by simp)]
  rfl

theorem framesFrom_bytesWave {d : Bool} (vs : List Byte) (rest : List (Bool × Bool)) : ∃ d',
    framesFrom (false, d) [] (bytesWave false vs ++ rest) = vs.map sent ++ framesFrom (false, d') [] rest := by
  induction vs generalizing d with
  | nil => exact ⟨d, rfl⟩
  | cons v vs ih =>
    obtain ⟨d', h⟩ := ih (d := true)
    refine ⟨d', ?_⟩
    rw [bytesWave, List.append_assoc, framesFrom_byteWave, h]
    rfl

/-- The bytes of a read phase, written by recursion: all acknowledged but the last. -/
def receivedFrom : Nat → List FrameSymbol
  | 0 => []
  | n + 1 => received (n == 0) :: receivedFrom n

theorem receivedAll_eq (n : Nat) : receivedAll n = receivedFrom n := by
  induction n with
  | zero => rfl
  | succ n ih =>
    rw [receivedFrom, ← ih, receivedAll, List.range_succ_eq_map, List.map_cons, List.map_map, receivedAll]
    refine congr (congrArg List.cons ?_) (List.map_congr_left fun k _ => ?_)
    · cases n <;> simp
    · simp

theorem framesFrom_bytesReadWave {d : Bool} (n : Nat) (rest : List (Bool × Bool)) : ∃ d',
    framesFrom (false, d) [] (bytesReadWave false n ++ rest) = receivedAll n ++ framesFrom (false, d') [] rest := by
  rw [receivedAll_eq]
  induction n generalizing d with
  | zero => exact ⟨d, rfl⟩
  | succ n ih =>
    obtain ⟨d', h⟩ := ih (d := !(n != 0))
    refine ⟨d', ?_⟩
    rw [bytesReadWave, List.append_assoc, framesFrom_byteReadWave, h, receivedFrom]
    cases n <;> simp

/-- A start condition on an idle bus, and a repeated start with the clock low. -/
theorem framesFrom_startWave_idle (rest : List (Bool × Bool)) :
    framesFrom (true, true) [] (startWave true ++ rest) = .start :: framesFrom (false, false) [] rest := by
  simp [startWave, framesFrom]

theorem framesFrom_startWave_low {d : Bool} (rest : List (Bool × Bool)) :
    framesFrom (false, d) [] (startWave false ++ rest) = .start :: framesFrom (false, false) [] rest := by
  cases d <;> simp [startWave, framesFrom]

theorem framesFrom_stopWave {d : Bool} (rest : List (Bool × Bool)) :
    framesFrom (false, d) [] (stopWave false ++ rest) = .stop :: framesFrom (true, true) [] rest := by
  cases d <;> simp [stopWave, framesFrom]

theorem framesFrom_writeWave (addr7 : Addr7) (bytes : List Byte) (rest : List (Bool × Bool)) :
    framesFrom (true, true) [] (writeWave true addr7 bytes ++ rest) =
      writeFrame addr7 bytes ++ framesFrom (true, true) [] rest := by
  unfold writeWave writeFrame
  simp only [List.append_assoc]
  obtain ⟨d', h⟩ := framesFrom_bytesWave (d := true) bytes (stopWave false ++ rest)
  rw [framesFrom_startWave_idle, framesFrom_byteWave, h, framesFrom_stopWave]
  simp

theorem framesFrom_readBytesWave (addr7 : Addr7) (count : Nat) (rest : List (Bool × Bool)) :
    framesFrom (true, true) [] (readBytesWave true addr7 count ++ rest) =
      readFrame addr7 count ++ framesFrom (true, true) [] rest := by
  unfold readBytesWave readFrame
  simp only [List.append_assoc]
  obtain ⟨d', h⟩ := framesFrom_bytesReadWave (d := true) count (stopWave false ++ rest)
  rw [framesFrom_startWave_idle, framesFrom_byteWave, h, framesFrom_stopWave]
  simp

theorem framesFrom_writeThenReadWave (addr7 : Addr7) (bytes : List Byte) (rcount : Nat) (rest : List (Bool × Bool)) :
    framesFrom (true, true) [] (writeThenReadWave true addr7 bytes rcount ++ rest) =
      writeThenReadFrame addr7 bytes rcount ++ framesFrom (true, true) [] rest := by
  unfold writeThenReadWave writeThenReadFrame
  simp only [List.append_assoc]
  obtain ⟨d', h⟩ := framesFrom_bytesWave (d := true) bytes
    (startWave false ++ (byteWave false (addrByte addr7 true) ++ (bytesReadWave false rcount ++ (stopWave false ++ rest))))
  obtain ⟨e', h'⟩ := framesFrom_bytesReadWave (d := true) rcount (stopWave false ++ rest)
  rw [framesFrom_startWave_idle, framesFrom_byteWave, h, framesFrom_startWave_low, framesFrom_byteWave, h',
    framesFrom_stopWave]
  simp

theorem framesFrom_writesWave (P : Params) (ws : List (Nat × Byte × Byte)) (rest : List (Bool × Bool)) :
    framesFrom (true, true) [] (writesWave P ws ++ rest) =
      (ws.flatMap fun w => writeFrame (deviceAddr P w.1) [w.2.1, w.2.2]) ++ framesFrom (true, true) [] rest := by
  induction ws with
  | nil => rfl
  | cons w ws ih =>
    rw [writesWave, List.flatMap_cons, List.append_assoc, framesFrom_writeWave, ← writesWave, ih, List.flatMap_cons,
      List.append_assoc]

/-! ### How long the waveforms are (70_reset_and_hazards.md R280) -/

theorem length_bitsWave (c : Bool) (bs : List Bool) : (bitsWave c bs).length = 4 * bs.length := by
  induction bs generalizing c with
  | nil => rfl
  | cons b bs ih => rw [bitsWave, List.length_append, ih, List.length_cons]; simp [bitWave]; omega

theorem length_byteWave (c : Bool) (v : Byte) : (byteWave c v).length = 36 := by
  rw [byteWave, List.length_append, length_bitsWave]; rfl

theorem length_byteReadWave (c ack : Bool) : (byteReadWave c ack).length = 36 := by
  simp [byteReadWave, readWave, bitWave]

theorem length_bytesWave (c : Bool) (vs : List Byte) : (bytesWave c vs).length = 36 * vs.length := by
  induction vs generalizing c with
  | nil => rfl
  | cons v vs ih => rw [bytesWave, List.length_append, ih, length_byteWave, List.length_cons]; omega

theorem length_bytesReadWave (c : Bool) (n : Nat) : (bytesReadWave c n).length = 36 * n := by
  induction n generalizing c with
  | zero => rfl
  | succ n ih => rw [bytesReadWave, List.length_append, ih, length_byteReadWave]; omega

theorem length_writeWave (c : Bool) (addr7 : Addr7) (bytes : List Byte) :
    (writeWave c addr7 bytes).length = writeQuarters bytes.length := by
  simp only [writeWave, List.length_append, length_byteWave, length_bytesWave, startWave, stopWave, List.length_cons,
    List.length_nil, writeQuarters]
  omega

theorem length_readBytesWave (c : Bool) (addr7 : Addr7) (count : Nat) :
    (readBytesWave c addr7 count).length = readQuarters count := by
  simp only [readBytesWave, List.length_append, length_byteWave, length_bytesReadWave, startWave, stopWave,
    List.length_cons, List.length_nil, readQuarters]
  omega

theorem length_writeThenReadWave (c : Bool) (addr7 : Addr7) (bytes : List Byte) (rcount : Nat) :
    (writeThenReadWave c addr7 bytes rcount).length = writeThenReadQuarters bytes.length rcount := by
  simp only [writeThenReadWave, List.length_append, length_byteWave, length_bytesWave, length_bytesReadWave, startWave,
    stopWave, List.length_cons, List.length_nil, writeThenReadQuarters]
  omega

theorem length_writesWave (P : Params) (ws : List (Nat × Byte × Byte)) : (writesWave P ws).length = 115 * ws.length := by
  induction ws with
  | nil => rfl
  | cons w ws ih =>
    rw [writesWave, List.flatMap_cons, List.length_append, length_writeWave, ← writesWave, ih, List.length_cons,
      writeQuarters]
    simp
    omega

/-! ### Whole waveforms that begin on an idle bus -/

theorem frames_writeWave (a : Addr7) (bytes : List Byte) : frames (writeWave true a bytes) = writeFrame a bytes := by
  have h := framesFrom_writeWave a bytes []
  rwa [List.append_nil, framesFrom, List.append_nil] at h

theorem frames_readBytesWave (a : Addr7) (n : Nat) : frames (readBytesWave true a n) = readFrame a n := by
  have h := framesFrom_readBytesWave a n []
  rwa [List.append_nil, framesFrom, List.append_nil] at h

theorem frames_writeThenReadWave (a : Addr7) (bytes : List Byte) (n : Nat) :
    frames (writeThenReadWave true a bytes n) = writeThenReadFrame a bytes n := by
  have h := framesFrom_writeThenReadWave a bytes n []
  rwa [List.append_nil, framesFrom, List.append_nil] at h

theorem frames_writesWave (P : Params) (ws : List (Nat × Byte × Byte)) :
    frames (writesWave P ws) = ws.flatMap fun w => writeFrame (deviceAddr P w.1) [w.2.1, w.2.2] := by
  have h := framesFrom_writesWave P ws []
  rwa [List.append_nil, framesFrom, List.append_nil] at h

theorem frames_twoReads (a b : Addr7) (r r' : Byte) :
    frames (writeThenReadWave true a [r] 1 ++ writeThenReadWave true b [r'] 1) =
      writeThenReadFrame a [r] 1 ++ writeThenReadFrame b [r'] 1 := by
  have h := frames_writeThenReadWave b [r'] 1
  rw [frames] at h
  rw [frames, framesFrom_writeThenReadWave, h]

/-- The register writes of `panel_init()` are the frames 44_panel.md R203 prints. -/
theorem initFrames_eq :
    (initWrites.flatMap fun w => writeFrame (deviceAddr Config.params w.1) [w.2.1, w.2.2]) = initFrames := by
  have h0 : configMask 0 = 0x6F := by decide
  have h1 : configMask 1 = 0xFF := by decide
  have h2 : configMask 2 = 0x79 := by decide
  simp only [initWrites, List.flatMap_cons, List.flatMap_nil, initFrames, chipWriteFrame, h0, h1, h2, REG_POLINV,
    REG_CONFIG, REG_OUTPUT, List.append_assoc, List.append_nil]

/-- The register writes of `panel_leds(m)` are the frames 44_panel.md R222 prints. -/
theorem ledFrames_eq (m : Mask5) : ([(0, REG_OUTPUT, ledOutput 0 m), (2, REG_OUTPUT, ledOutput 2 m)].flatMap fun w =>
    writeFrame (deviceAddr Config.params w.1) [w.2.1, w.2.2]) = ledFrames m := by
  have h0 : ∀ m, ledOutput 0 m = (bitOf m 1 <<< 7 ||| bitOf m 0 <<< 4) := by decide
  have h2 : ∀ m, ledOutput 2 m = (bitOf m 4 <<< 7 ||| bitOf m 3 <<< 2 ||| bitOf m 2 <<< 1) := by decide
  simp only [List.flatMap_cons, List.flatMap_nil, ledFrames, chipWriteFrame, h0, h2, REG_OUTPUT, List.append_nil]

/-- Bit n of a byte read is the (7 - n)-th bit sampled (20_memory.md R52). -/
theorem byteOfMsbFirst_getLsbD (l : Nat → Bool) {n : Nat} (hn : n < 8) :
    (byteOfMsbFirst ((List.range 8).map fun j => l j)).getLsbD n = l (7 - n) := by
  have h : ∀ b0 b1 b2 b3 b4 b5 b6 b7 : Bool, ∀ n < 8, (byteOfMsbFirst [b0, b1, b2, b3, b4, b5, b6, b7]).getLsbD n =
      [b7, b6, b5, b4, b3, b2, b1, b0].getD n false := by decide
  rw [show (List.range 8).map (fun j => l j) = [l 0, l 1, l 2, l 3, l 4, l 5, l 6, l 7] from rfl,
    h _ _ _ _ _ _ _ _ n hn]
  match n, hn with
  | 0, _ | 1, _ | 2, _ | 3, _ | 4, _ | 5, _ | 6, _ | 7, _ => rfl

end Sys2Proof.Machine
end

