-- ==== Sys2Proof/Laws/Inversion.lean ====
section
/-! SUPPORT. One shape for all 31 instructions: `exec` is `runCommand` of a check of the ownership, a check of the operands
and a body (`exec_eq`), so `exec_next` says once what any instruction can do; and a relation that every piece of a body
keeps is kept by the body (`Stable`). -/

namespace Sys2Proof.Machine

/-! ### Checks and body of each instruction -/

/-- The ownership check of an instruction (60_exceptions.md R245, R246). -/
def ownershipOf (i : Instr) (s : State) : Option ErrCode :=
  if i.needsMaster then needsOwned s else if i.makesMaster then needsFree s else none

/-- The operand check of an instruction (R247, R248). -/
def operandsOf : Instr → Option ErrCode
  | .readbytes _ count => checkCount count
  | .writethenread _ _ rcount => checkCount rcount
  | .xread chip | .xwrite chip _ | .xconfig chip _ | .xsetinv chip _ | .xgetinv chip => checkAddr Config.params chip
  | _ => none

/-- A register read whose byte goes to `RES`. -/
def readToRes (addr7 : Addr7) (reg : Byte) (s : State) : State :=
  setRes ((readRegister addr7 reg s).1.setWidth 16) (readRegister addr7 reg s).2

/-- What an instruction presented in `s` does to the state it has begun in. -/
def bodyOf (i : Instr) (s : State) : State → State :=
  match i with
  | .qdelay => quarter .plain
  | .construct => construct
  | .destroy => destroy
  | .start => start
  | .stop => stop
  | .wbit b => wbit b
  | .rbit => fun u => setRes ((BitVec.ofBool (rbit u).1).setWidth 16) (rbit u).2
  | .wbyte v => wbyte v
  | .rbyte ack => fun u => setRes ((rbyte ack u).1.setWidth 16) (rbyte ack u).2
  | .writebytes a n => writeBytes a (txPayload s n)
  | .readbytes a n => fun u => storeRxbuf (readBytes a n u).1 (readBytes a n u).2
  | .writethenread a wn n => fun u =>
    storeRxbuf (writeThenRead a (txPayload s wn) n u).1 (writeThenRead a (txPayload s wn) n u).2
  | .readreg a r => readToRes a r
  | .writereg a r v => writeRegister a r v
  | .xread chip => readToRes (deviceAddr Config.params chip) REG_INPUT
  | .xwrite chip v => writeRegister (deviceAddr Config.params chip) REG_OUTPUT v
  | .xconfig chip v => writeRegister (deviceAddr Config.params chip) REG_CONFIG v
  | .xsetinv chip v => writeRegister (deviceAddr Config.params chip) REG_POLINV v
  | .xgetinv chip => readToRes (deviceAddr Config.params chip) REG_POLINV
  | .pinit => panelInit Config.params
  | .pcheck => panelCheck Config.params
  | .pbuttons => panelButtons Config.params
  | .pknob => panelKnob Config.params
  | .pleds m => panelLeds Config.params m
  | .pledtick m => panelLedTick Config.params m
  | .wireAddrWrite a => wbyte (addrByte a false)
  | .wireAddrRead a => wbyte (addrByte a true)
  | .regInput => wbyte REG_INPUT
  | .regOutput => wbyte REG_OUTPUT
  | .regPolinv => wbyte REG_POLINV
  | .regConfig => wbyte REG_CONFIG

theorem exec_eq (i : Instr) (s : State) :
    exec i s = runCommand i (ownershipOf i s) (operandsOf i) (bodyOf i s) s := by
  cases i <;> rfl

/-- Everything an instruction can answer with a next state. -/
theorem exec_next {i : Instr} {s t : State} (h : exec i s = .next t) :
    s.hung = false ∧ s.upc = .idle ∧
      ((s.err ≠ 0 ∧ t = becomeIdle s) ∨
       (s.err = 0 ∧ ∃ code, (ownershipOf i s = some code ∨ ownershipOf i s = none ∧ operandsOf i = some code) ∧
          t = refused code s) ∨
       (s.err = 0 ∧ ownershipOf i s = none ∧ operandsOf i = none ∧ t = endCommand (bodyOf i s (beginCommand i s)))) := by
  rw [exec_eq] at h
  exact runCommand_next h

/-! ### Relations every piece of a body keeps -/

/-- A relation between states that each micro-operation, the assignment of `ACKF` and the two ownership procedures keep. -/
structure Stable (R : State → State → Prop) : Prop where
  refl : ∀ s, R s s
  trans : ∀ {s t u}, R s t → R t u → R s u
  setScl : ∀ v s, R s (setScl v s)
  setSda : ∀ v s, R s (setSda v s)
  quarter : ∀ c s, R s (quarter c s)
  sample : ∀ s, R s (sampleSda s).2
  setAckf : ∀ a s, R s (setAckf a s)
  construct : ∀ s, R s (construct s)
  destroy : ∀ s, R s (destroy s)

namespace Stable

variable {R : State → State → Prop} (h : Stable R)
include h

theorem start (s : State) : R s (start s) :=
  h.trans (h.setSda _ _) <| h.trans (h.quarter _ _) <| h.trans (h.setScl _ _) <| h.trans (h.quarter _ _) <|
    h.trans (h.setSda _ _) <| h.trans (h.quarter _ _) <| h.trans (h.setScl _ _) (h.quarter _ _)

theorem stop (s : State) : R s (stop s) :=
  h.trans (h.setSda _ _) <| h.trans (h.quarter _ _) <| h.trans (h.setScl _ _) <| h.trans (h.quarter _ _) <|
    h.trans (h.setSda _ _) (h.quarter _ _)

theorem wbit (b : Bool) (s : State) : R s (wbit b s) :=
  h.trans (h.setSda _ _) <| h.trans (h.quarter _ _) <| h.trans (h.setScl _ _) <| h.trans (h.quarter _ _) <|
    h.trans (h.setScl _ _) <| h.trans (h.quarter _ _) (h.quarter _ _)

theorem rbit (s : State) : R s (rbit s).2 :=
  h.trans (h.setSda _ _) <| h.trans (h.quarter _ _) <| h.trans (h.setScl _ _) <| h.trans (h.quarter _ _) <|
    h.trans (h.quarter _ _) <| h.trans (h.sample _) <| h.trans (h.setScl _ _) (h.quarter _ _)

theorem wbits (bs : List Bool) (s : State) : R s (wbits bs s) := by
  induction bs generalizing s with
  | nil => exact h.refl s
  | cons b bs ih => exact h.trans (h.wbit b s) (ih _)

theorem wbyte (v : Byte) (s : State) : R s (wbyte v s) := by
  have e : Machine.wbyte v s = Machine.setAckf (Machine.rbit (Machine.wbits (bitsMsbFirst v) s)).1
      (Machine.rbit (Machine.wbits (bitsMsbFirst v) s)).2 := by dsimp only [Machine.wbyte]
  rw [e]
  exact h.trans (h.wbits _ s) (h.trans (h.rbit _) (h.setAckf _ _))

theorem rbits (n : Nat) (v : Byte) (s : State) : R s (rbits n v s).2 := by
  induction n generalizing v s with
  | zero => exact h.refl s
  | succ n ih => exact h.trans (h.rbit s) (ih _ _)

theorem rbyte (ack : Bool) (s : State) : R s (rbyte ack s).2 := by
  rw [rbyte_state]
  exact h.trans (h.rbits 8 0 s) (h.wbit _ _)

theorem wbytes (vs : List Byte) (s : State) : R s (wbytes vs s) := by
  induction vs generalizing s with
  | nil => exact h.refl s
  | cons v vs ih => exact h.trans (h.wbyte v s) (ih _)

theorem rbytes (n : Nat) (s : State) : R s (rbytes n s).2 := by
  induction n generalizing s with
  | zero => exact h.refl s
  | succ n ih =>
    rw [rbytes_succ]
    exact h.trans (h.rbyte _ s) (ih _)

theorem writeBytes (a : Addr7) (bytes : List Byte) (s : State) : R s (writeBytes a bytes s) :=
  h.trans (h.start s) <| h.trans (h.wbyte _ _) <| h.trans (h.wbytes _ _) (h.stop _)

theorem readBytes (a : Addr7) (n : Nat) (s : State) : R s (readBytes a n s).2 := by
  rw [readBytes_state]
  exact h.trans (h.start s) <| h.trans (h.wbyte _ _) <| h.trans (h.rbytes _ _) (h.stop _)

theorem writeThenRead (a : Addr7) (bytes : List Byte) (n : Nat) (s : State) : R s (writeThenRead a bytes n s).2 := by
  rw [writeThenRead_state]
  exact h.trans (h.start s) <| h.trans (h.wbyte _ _) <| h.trans (h.wbytes _ _) <| h.trans (h.start _) <|
    h.trans (h.wbyte _ _) <| h.trans (h.rbytes _ _) (h.stop _)

theorem readRegister (a : Addr7) (r : Byte) (s : State) : R s (readRegister a r s).2 := by
  rw [readRegister_state]
  exact h.writeThenRead _ _ _ _

theorem writeRegister (a : Addr7) (r v : Byte) (s : State) : R s (writeRegister a r v s) := by
  dsimp only [Machine.writeRegister]
  exact h.writeBytes _ _ _

theorem writeChips (P : Params) (ws : List (Nat × Byte × Byte)) (s : State) : R s (writeChips P ws s) := by
  induction ws generalizing s with
  | nil => exact h.refl s
  | cons w ws ih =>
    refine h.trans ?_ (ih _)
    rw [writeChip_eq]
    exact h.writeRegister _ _ _ _

theorem panelInit (P : Params) (s : State) : R s (panelInit P s) := by
  rw [panelInit_eq]
  exact h.trans (h.construct s) (h.trans (h.writeChips _ _ _) (h.destroy _))

theorem panelLeds (P : Params) (m : Mask5) (s : State) : R s (panelLeds P m s) := by
  rw [panelLeds_eq]
  exact h.trans (h.construct s) (h.trans (h.writeChips _ _ _) (h.destroy _))

theorem readChip (P : Params) (chip : Nat) (r : Byte) (s : State) : R s (readChip P chip r s).2 := by
  rw [readChip_eq]
  exact h.readRegister _ _ _

theorem readTwo (P : Params) (chip chip' : Nat) (s : State) : R s (readTwo P chip chip' s) :=
  h.trans (h.construct s) <| h.trans (h.readChip _ _ _ _) <| h.trans (h.readChip _ _ _ _) (h.destroy _)

theorem panelProbe (P : Params) (s : State) : R s (panelProbe P s).2 := by
  rw [panelProbe_state]
  exact h.trans (h.construct s) <| h.trans (h.readChip _ _ _ _) <| h.trans (h.writeRegister _ _ _ _) <|
    h.trans (h.readChip _ _ _ _) (h.destroy _)

end Stable

end Sys2Proof.Machine
end

