-- ==== Sys2Proof/Laws/Memory.lean ====
section
/-! SUPPORT. The laws of the byte buffers: a write is read back, every other index keeps its byte, and every
operation keeps the canonical form. -/

namespace Sys2Proof.Machine

theorem readCell_insertCell_same (m : Memory) (a : Nat) (v : Byte) : readCell (insertCell m a v) a = some v := by
  induction m with
  | nil => simp [insertCell, readCell]
  | cons c m ih =>
    obtain ⟨a', v'⟩ := c
    unfold insertCell
    split
    · simp [readCell]
    · split
      · simp [readCell]
      · rename_i h1 h2
        simp [readCell, ih, Ne.symm h2]

theorem readCell_insertCell_other (m : Memory) {a b : Nat} (v : Byte) (h : b ≠ a) :
    readCell (insertCell m a v) b = readCell m b := by
  induction m with
  | nil => simp [insertCell, readCell, Ne.symm h]
  | cons c m ih =>
    obtain ⟨a', v'⟩ := c
    unfold insertCell
    split
    · simp [readCell, Ne.symm h]
    · split
      · rename_i h1 h2
        subst h2
        simp [readCell, Ne.symm h]
      · simp [readCell, ih]

/-- A byte written inside the buffer is read back. -/
theorem readCell_writeCell_same (m : Memory) {a : Nat} (v : Byte) (h : a < bufferSize) :
    readCell (writeCell m a v) a = some v := by
  simp [writeCell, h, readCell_insertCell_same]

/-- A write leaves every other index alone. -/
theorem readCell_writeCell_other (m : Memory) {a b : Nat} (v : Byte) (h : b ≠ a) :
    readCell (writeCell m a v) b = readCell m b := by
  unfold writeCell
  split
  · exact readCell_insertCell_other m v h
  · rfl

theorem risingFrom_le {m : Memory} {lo lo' : Nat} (h : lo' ≤ lo) (hm : risingFrom lo m = true) :
    risingFrom lo' m = true := by
  cases m with
  | nil => rfl
  | cons c m =>
    simp only [risingFrom, Bool.and_eq_true, decide_eq_true_eq] at hm ⊢
    exact ⟨⟨by omega, hm.1.2⟩, hm.2⟩

theorem risingFrom_insertCell {m : Memory} {lo a : Nat} (v : Byte) (hlo : lo ≤ a) (ha : a < bufferSize)
    (hm : risingFrom lo m = true) : risingFrom lo (insertCell m a v) = true := by
  induction m generalizing lo with
  | nil => simp [insertCell, risingFrom, hlo, ha]
  | cons c m ih =>
    obtain ⟨a', v'⟩ := c
    simp only [risingFrom, Bool.and_eq_true, decide_eq_true_eq] at hm
    unfold insertCell
    split
    · rename_i h
      simp only [risingFrom, Bool.and_eq_true, decide_eq_true_eq]
      exact ⟨⟨hlo, ha⟩, ⟨by omega, hm.1.2⟩, hm.2⟩
    · split
      · rename_i h1 h2
        subst h2
        simp only [risingFrom, Bool.and_eq_true, decide_eq_true_eq]
        exact ⟨⟨hlo, ha⟩, hm.2⟩
      · rename_i h1 h2
        simp only [risingFrom, Bool.and_eq_true, decide_eq_true_eq]
        exact ⟨hm.1, ih (by omega) hm.2⟩

/-- Every write keeps the canonical form. -/
theorem wf_writeCell {m : Memory} (a : Nat) (v : Byte) (hm : Memory.wf m = true) :
    Memory.wf (writeCell m a v) = true := by
  unfold writeCell
  split
  · exact risingFrom_insertCell v (Nat.zero_le _) ‹_› hm
  · exact hm

theorem wf_writeCells {m : Memory} (a : Nat) (vs : List Byte) (hm : Memory.wf m = true) :
    Memory.wf (writeCells m a vs) = true := by
  induction vs generalizing m a with
  | nil => exact hm
  | cons v vs ih => exact ih (a + 1) (wf_writeCell a v hm)

/-- A run of writes leaves every index outside it alone. -/
theorem readCell_writeCells_outside (m : Memory) {a b : Nat} (vs : List Byte) (h : b < a ∨ a + vs.length ≤ b) :
    readCell (writeCells m a vs) b = readCell m b := by
  induction vs generalizing m a with
  | nil => rfl
  | cons v vs ih =>
    rw [List.length_cons] at h
    rw [writeCells, ih _ (by omega), readCell_writeCell_other _ _ (by omega)]

/-- A run of writes inside the buffer is read back. -/
theorem readCell_writeCells_inside (m : Memory) {a k : Nat} (vs : List Byte) (hk : k < vs.length)
    (h : a + vs.length ≤ bufferSize) : readCell (writeCells m a vs) (a + k) = vs[k]? := by
  induction vs generalizing m a k with
  | nil => simp at hk
  | cons v vs ih =>
    rw [List.length_cons] at h hk
    rw [writeCells]
    cases k with
    | zero =>
      rw [readCell_writeCells_outside _ _ (by omega)]
      simpa using readCell_writeCell_same m v (by omega : a < bufferSize)
    | succ k =>
      have := ih (writeCell m a v) (a := a + 1) (k := k) (by omega) (by omega)
      rw [show a + (k + 1) = a + 1 + k by omega, this]
      simp

theorem reset_txbuf_wf : Memory.wf State.reset.txbuf = true := rfl

theorem reset_rxbuf_wf : Memory.wf State.reset.rxbuf = true := rfl

/-- Bytes written from index 0 on are found there, and every later index keeps its byte. -/
theorem readCell_writeCells_range {m m' : Memory} {f : Nat → Byte} {n : Nat} (hn : n < 256)
    (h : m' = writeCells m 0 ((List.range n).map f)) :
    (∀ k < n, readCell m' k = some (f k)) ∧ ∀ a ≥ n, readCell m' a = readCell m a := by
  subst h
  refine ⟨fun k hk => ?_, fun a ha => readCell_writeCells_outside m _ (.inr (by simpa using ha))⟩
  have e := readCell_writeCells_inside m (a := 0) (k := k) ((List.range n).map f) (by simpa using hk)
    (by simp [bufferSize]; omega)
  rw [Nat.zero_add] at e
  rw [e]
  simp [hk]

end Sys2Proof.Machine
end

