-- ==== Sys2Proof/Laws/Effects.lean ====
section
/-! SUPPORT. What one instruction can change (`exec_effects`) and the waveform it drives when it runs to its end
(`exec_wave`), for all 31 instructions at once. -/

namespace Sys2Proof.Machine

/-- What no micro-operation writes, no procedure writes. -/
theorem stableKept : Stable Kept where
  refl := Kept.refl
  trans := Kept.trans
  setScl := kept_setScl
  setSda := kept_setSda
  quarter := kept_quarter
  sample := kept_sample
  setAckf a s := (op_setAckf a).kept s
  construct := kept_construct
  destroy := kept_destroy

theorem kept_begin (i) (s : State) : Kept s (beginCommand i s) := ⟨rfl, rfl, rfl, rfl, rfl, rfl, rfl, rfl, rfl⟩

/-- What an instruction may change of `RES`, `RXBUF`, `WAS_ALIVE`, `PWM_CNT`, `ERR` and the host's side. -/
structure Effects (i : Instr) (s t : State) : Prop where
  res : i.writesRes = false → t.res = s.res
  r2 : (i = .rbit ∨ i = .pcheck) → t.res = s.res ∨ t.res.toNat < 2
  r32 : i = .pbuttons → t.res = s.res ∨ t.res.toNat < 32
  r4096 : i = .pknob → t.res = s.res ∨ t.res.toNat < 4096
  r256 : ((∃ ack, i = .rbyte ack) ∨ (∃ a r, i = .readreg a r) ∨ (∃ c, i = .xread c) ∨ ∃ c, i = .xgetinv c) →
      t.res = s.res ∨ t.res.toNat < 256
  alive : i ≠ .pcheck → t.wasAlive = s.wasAlive
  pwm : (∀ m, i ≠ .pledtick m) → t.pwmCnt = s.pwmCnt
  rx : ∀ a ≥ i.rxCount, readCell t.rxbuf a = readCell s.rxbuf a
  host : SameHostSide s t
  err : t.err = s.err

theorem Effects.ofKept {i s t} (h : Kept s t) : Effects i s t :=
  ⟨fun _ => h.res, fun _ => .inl h.res, fun _ => .inl h.res, fun _ => .inl h.res, fun _ => .inl h.res,
      fun _ => h.wasAlive, fun _ => h.pwmCnt, fun a _ => by rw [h.rxbuf], ⟨h.txbuf, h.inputs, h.hostData⟩, h.err⟩

theorem body_setRes {s u : State} {v : BitVec 16} (h : Kept s u) : (setRes v u).res = s.res ∨ (setRes v u).res = v := by
  unfold setRes note; split
  · exact .inl h.res
  · exact .inr rfl

theorem setRes_other (v : BitVec 16) (u : State) : (setRes v u).rxbuf = u.rxbuf ∧
    (setRes v u).wasAlive = u.wasAlive ∧ (setRes v u).pwmCnt = u.pwmCnt ∧ SameHostSide u (setRes v u) ∧
    (setRes v u).err = u.err := by
  unfold setRes note; split <;> exact ⟨rfl, rfl, rfl, ⟨rfl, rfl, rfl⟩, rfl⟩

theorem effects_setRes {i : Instr} {s u : State} {v : BitVec 16} (hw : i.writesRes = true) (h : Kept s u)
   (h2 : (i = .rbit ∨ i = .pcheck) → v.toNat < 2) (h32 : i = .pbuttons → v.toNat < 32) (h4096 : i = .pknob →
       v.toNat < 4096) (h256 : ((∃ ack, i = .rbyte ack) ∨ (∃ a r, i = .readreg a r) ∨ (∃ c, i = .xread c) ∨ ∃ c,
       i = .xgetinv c) → v.toNat < 256) : Effects i s (setRes v u) := by
  obtain ⟨a, b, c, d, e⟩ := setRes_other v u
  have k := body_setRes (v := v) h
  refine ⟨fun h' => (by rw [hw] at h'; cases h'), fun h' => ?_, fun h' => ?_, fun h' => ?_, fun h' => ?_,
      fun _ => b.trans h.wasAlive, fun _ => c.trans h.pwmCnt, fun _ _ => by rw [a, h.rxbuf], ⟨d.1.trans h.txbuf,
      d.2.1.trans h.inputs, d.2.2.trans h.hostData⟩, e.trans h.err⟩
  all_goals rcases k with k | k
  all_goals first | exact .inl k | skip
  · rw [k]; exact .inr (h2 h')
  · rw [k]; exact .inr (h32 h')
  · rw [k]; exact .inr (h4096 h')
  · rw [k]; exact .inr (h256 h')

theorem zext_lt {n m : Nat} (v : BitVec n) (_ : n ≤ m) : (v.setWidth m).toNat < 2 ^ n := by
  rw [BitVec.toNat_setWidth]
  have := v.isLt
  exact lt_of_le_of_lt (Nat.mod_le _ _) this

theorem effects_storeRxbuf {i : Instr} {s u : State} {bs : List Byte} (hi : i.rxCount = bs.length) (h : Kept s u) :
    Effects i s (storeRxbuf bs u) := by
  have k : (storeRxbuf bs u) = u ∨ (storeRxbuf bs u) = { u with rxbuf := writeCells u.rxbuf 0 bs } := by
    unfold storeRxbuf note; split
    · exact .inl rfl
    · exact .inr rfl
  rcases k with k | k
  · rw [k]; exact Effects.ofKept h
  · rw [k]
    refine ⟨fun _ => h.res, fun _ => .inl h.res, fun _ => .inl h.res, fun _ => .inl h.res, fun _ => .inl h.res,
        fun _ => h.wasAlive, fun _ => h.pwmCnt, fun a ha => ?_, ⟨h.txbuf, h.inputs, h.hostData⟩, h.err⟩
    show readCell (writeCells u.rxbuf 0 bs) a = _
    rw [h.rxbuf]
    exact readCell_writeCells_outside _ _ (.inr (by omega))

theorem effects_body (i : Instr) (s u : State) (hsu : Kept s u) : Effects i s (bodyOf i s u) := by
  have K := stableKept
  have simple : ∀ {v}, Kept u v → Effects i s v := fun h => Effects.ofKept (hsu.trans h)
  have rr : ∀ a r, (i.writesRes = true) → (i ≠ .rbit ∧ i ≠ .pcheck) → i ≠ .pbuttons → i ≠ .pknob →
       Effects i s (readToRes a r u) := by
    intro a r hi h1 h2 h3
    exact effects_setRes hi (hsu.trans (K.readRegister _ _ _)) (fun h => by rcases h with h | h <;> simp [h] at h1)
        (fun h => absurd h h2) (fun h => absurd h h3) (fun _ => zext_lt _ (by omega))
  cases i with
  | qdelay => exact simple (K.quarter _ _)
  | construct => exact simple (K.construct _)
  | destroy => exact simple (K.destroy _)
  | start => exact simple (K.start _)
  | stop => exact simple (K.stop _)
  | wbit => exact simple (K.wbit _ _)
  | rbit =>
    exact effects_setRes rfl (hsu.trans (K.rbit _)) (fun _ => zext_lt _ (by omega)) (by simp) (by simp)
      (by simp)
  | wbyte => exact simple (K.wbyte _ _)
  | rbyte =>
    exact effects_setRes rfl (hsu.trans (K.rbyte _ _)) (by simp) (by simp) (by simp)
      (fun _ => zext_lt _ (by omega))
  | writebytes => exact simple (K.writeBytes _ _ _)
  | readbytes a n => 
    refine effects_storeRxbuf ?_ (hsu.trans (K.readBytes _ _ _))
    have : (readBytes a n u).1 = (rbytes n (wbyte (addrByte a true) (start u))).1 := rfl
    rw [this, rbytes_length]; rfl
  | writethenread a wn n => 
    refine effects_storeRxbuf ?_ (hsu.trans (K.writeThenRead _ _ _ _))
    have : (writeThenRead a (txPayload s wn) n u).1 = (rbytes n (wbyte (addrByte a true)
        (start (wbytes (txPayload s wn) (wbyte (addrByte a false) (start u)))))).1 := by dsimp only [writeThenRead]
    rw [this, rbytes_length]; rfl
  | readreg => exact rr _ _ rfl (by simp) (by simp) (by simp)
  | writereg => exact simple (K.writeRegister _ _ _ _)
  | xread => exact rr _ _ rfl (by simp) (by simp) (by simp)
  | xwrite => exact simple (K.writeRegister _ _ _ _)
  | xconfig => exact simple (K.writeRegister _ _ _ _)
  | xsetinv => exact simple (K.writeRegister _ _ _ _)
  | xgetinv => exact rr _ _ rfl (by simp) (by simp) (by simp)
  | pinit => exact simple (K.panelInit _ _)
  | pcheck =>
    show Effects _ s (panelCheck Config.params u)
    rw [panelCheck_eq]
    have k1 := K.panelProbe Config.params u
    have k2 : Kept u (if (panelProbe Config.params u).1 && !(panelProbe Config.params u).2.wasAlive then panelInit Config.params (panelProbe Config.params u).2
       else (panelProbe Config.params u).2) := by
      split
      · exact k1.trans (K.panelInit _ _)
      · exact k1
    generalize (if (panelProbe Config.params u).1 && !(panelProbe Config.params u).2.wasAlive then panelInit Config.params (panelProbe Config.params u).2
       else (panelProbe Config.params u).2) = w at *
    have k3 := hsu.trans k2
    generalize (panelProbe Config.params u).1 = al
    have e : (setWasAlive al w) = w ∨ (setWasAlive al w) = { w with wasAlive := al } := by
      unfold setWasAlive note; split
      · exact .inl rfl
      · exact .inr rfl
    have k4 : Kept { s with wasAlive := (setWasAlive al w).wasAlive } (setWasAlive al w) := by
      rcases e with e | e <;> rw [e] <;> exact ⟨k3.1, k3.2, rfl, k3.4, k3.5, k3.6, k3.7, k3.8, k3.9⟩
    have f := effects_setRes (i := .pcheck) (v :=
        (BitVec.ofBool al).setWidth 16) rfl k4 (fun _ => zext_lt _ (by omega)) (by simp) (by simp) (by simp)
    exact ⟨f.1, f.2, f.3, f.4, f.5, fun h => absurd rfl h, f.7, f.8, f.9, f.10⟩
  | pbuttons => 
    show Effects _ s (panelButtons Config.params u)
    rw [panelButtons_eq]
    exact effects_setRes rfl (hsu.trans (K.readTwo _ _ _ _)) (by simp) (fun _ => zext_lt _ (by omega)) (by simp)
        (by simp)
  | pknob =>
    show Effects _ s (panelKnob Config.params u)
    rw [panelKnob_eq]
    exact effects_setRes rfl (hsu.trans (K.readTwo _ _ _ _)) (by simp) (by simp) (fun _ => zext_lt _ (by omega))
        (by simp)
  | pleds => exact simple (K.panelLeds _ _ _)
  | pledtick m => 
    show Effects _ s (advancePwm Config.params (panelLeds Config.params (tickMask Config.params u.pwmCnt m) u))
    have k3 := hsu.trans (K.panelLeds Config.params (tickMask Config.params u.pwmCnt m) u)
    generalize panelLeds Config.params (tickMask Config.params u.pwmCnt m) u = w at *
    have e : (advancePwm Config.params w) = w ∨ (advancePwm Config.params w) = { w with pwmCnt :=
        (w.pwmCnt + 1) % Config.params.pwmPeriod } := by
      unfold advancePwm note; split
      · exact .inl rfl
      · exact .inr rfl
    have k4 : Kept { s with pwmCnt := (advancePwm Config.params w).pwmCnt } (advancePwm Config.params w) := by
      rcases e with e | e <;> rw [e] <;> exact ⟨k3.1, k3.2, k3.3, k3.4, k3.5, k3.6, rfl, k3.8, k3.9⟩
    have f := Effects.ofKept (i := .pledtick m) k4
    exact ⟨f.1, f.2, f.3, f.4, f.5, f.6, fun h => absurd rfl (h m), f.8, f.9, f.10⟩
  | wireAddrWrite => exact simple (K.wbyte _ _)
  | wireAddrRead => exact simple (K.wbyte _ _)
  | regInput => exact simple (K.wbyte _ _)
  | regOutput => exact simple (K.wbyte _ _)
  | regPolinv => exact simple (K.wbyte _ _)
  | regConfig => exact simple (K.wbyte _ _)

theorem effects_endCommand {i s u} (h : Effects i s u) : Effects i s (endCommand u) := by
  unfold endCommand; split
  · exact h
  · exact ⟨h.1, h.2, h.3, h.4, h.5, h.6, h.7, h.8, h.9, h.10⟩

theorem exec_effects {i s t} (h : exec i s = .next t) : Effects i s t ∨ (s.err = 0 ∧ ∃ c, t = refused c s) := by
  obtain ⟨_, _, ⟨_, rfl⟩ | ⟨h0, c, _, rfl⟩ | ⟨_, _, _, rfl⟩⟩ := exec_next h
  · exact .inl ⟨fun _ => rfl, fun _ => .inl rfl, fun _ => .inl rfl, fun _ => .inl rfl, fun _ => .inl rfl,
      fun _ => rfl, fun _ => rfl, fun _ _ => rfl, ⟨rfl, rfl, rfl⟩, rfl⟩
  · exact .inr ⟨h0, c, rfl⟩
  · exact .inl (effects_endCommand (effects_body i s _ (kept_begin i s)))

/-- The waveform of an instruction presented in `s`, from the drive latches `l`; PCHECK's depends on what it reads. -/
def waveOf (i : Instr) (s : State) (l : Bool × Bool) : List (Bool × Bool) :=
  let P := Config.params
  match i with
  | .qdelay => [l]
  | .construct | .destroy => []
  | .start => startWave l.1
  | .stop => stopWave l.1
  | .wbit b => bitWave l.1 b
  | .rbit => readWave l.1
  | .wbyte v => byteWave l.1 v
  | .rbyte ack => byteReadWave l.1 ack
  | .writebytes a n => writeWave l.1 a (txPayload s n)
  | .readbytes a n => readBytesWave l.1 a n
  | .writethenread a wn n => writeThenReadWave l.1 a (txPayload s wn) n
  | .readreg a r => writeThenReadWave l.1 a [r] 1
  | .writereg a r v => writeWave l.1 a [r, v]
  | .xread c => writeThenReadWave l.1 (deviceAddr P c) [REG_INPUT] 1
  | .xgetinv c => writeThenReadWave l.1 (deviceAddr P c) [REG_POLINV] 1
  | .xwrite c v => writeWave l.1 (deviceAddr P c) [REG_OUTPUT, v]
  | .xconfig c v => writeWave l.1 (deviceAddr P c) [REG_CONFIG, v]
  | .xsetinv c v => writeWave l.1 (deviceAddr P c) [REG_POLINV, v]
  | .pinit => writesWave P initWrites
  | .pcheck => []
  | .pbuttons => writeThenReadWave true (deviceAddr P 0) [REG_INPUT] 1 ++
      writeThenReadWave true (deviceAddr P 2) [REG_INPUT] 1
  | .pknob => writeThenReadWave true (deviceAddr P 0) [REG_INPUT] 1 ++
      writeThenReadWave true (deviceAddr P 1) [REG_INPUT] 1
  | .pleds m => writesWave P [(0, REG_OUTPUT, ledOutput 0 m), (2, REG_OUTPUT, ledOutput 2 m)]
  | .pledtick m => writesWave P [(0, REG_OUTPUT, ledOutput 0 (tickMask P s.pwmCnt m)), (2, REG_OUTPUT,
      ledOutput 2 (tickMask P s.pwmCnt m))]
  | .wireAddrWrite a => byteWave l.1 (addrByte a false)
  | .wireAddrRead a => byteWave l.1 (addrByte a true)
  | .regInput => byteWave l.1 REG_INPUT
  | .regOutput => byteWave l.1 REG_OUTPUT
  | .regPolinv => byteWave l.1 REG_POLINV
  | .regConfig => byteWave l.1 REG_CONFIG

theorem wave_op {op n F o w p} (h : Op op n F o w p) {u : State} (hl : Live u) (hr : (op u).hung = false) :
    ∃ n, Ran u (op u) n (w u.latches) := ⟨_, (h.ran u hl hr).1⟩

theorem ran_setRes {u v : State} {n w} (x : BitVec 16) (h : Ran u v n w) : Ran u (setRes x v) n w := by
  rw [setRes_of_live h.live]; exact ⟨⟨h.live.hung, h.live.budget⟩, h.levels, h.trace⟩
theorem ran_storeRx {u v : State} {n w} (x : List Byte) (h : Ran u v n w) : Ran u (storeRxbuf x v) n w := by
  rw [storeRxbuf_of_live h.live]; exact ⟨⟨h.live.hung, h.live.budget⟩, h.levels, h.trace⟩
theorem ran_pwm {u v : State} {n w} (P) (h : Ran u v n w) : Ran u (advancePwm P v) n w := by
  rw [advancePwm_of_live h.live]; exact ⟨⟨h.live.hung, h.live.budget⟩, h.levels, h.trace⟩
theorem hung_setRes {x u} (h : (setRes x u).hung = false) : u.hung = false := running_before (op := setRes x)
    (fun _ => note_of_hung) h
theorem hung_storeRx {x u} (h : (storeRxbuf x u).hung = false) : u.hung = false := running_before (op :=
    storeRxbuf x) (fun _ => note_of_hung) h
theorem hung_pwm {x u} (h : (advancePwm x u).hung = false) : u.hung = false := running_before (op := advancePwm x)
    (fun _ => note_of_hung) h

theorem wave_res {op n F o w p} (h : Op op n F o w p) {u : State} {x} (hl : Live u)
    (hr : (setRes x (op u)).hung = false) :
    ∃ n, Ran u (setRes x (op u)) n (w u.latches) := ⟨_, ran_setRes x (h.ran u hl (hung_setRes hr)).1⟩
theorem wave_rx {op n F o w p} (h : Op op n F o w p) {u : State} {x} (hl : Live u)
    (hr : (storeRxbuf x (op u)).hung = false) :
    ∃ n, Ran u (storeRxbuf x (op u)) n (w u.latches) := ⟨_, ran_storeRx x (h.ran u hl (hung_storeRx hr)).1⟩

theorem opq : Op (quarter .plain) 1 [] (fun l => l) (fun l => [l]) (fun _ => true) := Op.quarter

theorem body_wave (i : Instr) (hi : i ≠ .pcheck) (s u : State) (hp : u.pwmCnt = s.pwmCnt) (hl : Live u)
    (hr : (bodyOf i s u).hung = false) :
    ∃ n, Ran u (bodyOf i s u) n (waveOf i s u.latches) := by
  cases i with
  | qdelay => exact wave_op opq hl hr
  | construct => exact wave_op op_construct hl hr
  | destroy => exact wave_op op_destroy hl hr
  | start => exact wave_op op_start hl hr
  | stop => exact wave_op op_stop hl hr
  | wbit b => exact wave_op (op_wbit b) hl hr
  | rbit => exact wave_res op_rbit hl hr
  | wbyte v => exact wave_op (op_wbyte v) hl hr
  | rbyte ack => exact wave_res (op_rbyte ack) hl hr
  | writebytes a n => exact wave_op (op_writeBytes a (txPayload s n)) hl hr
  | readbytes a n => exact wave_rx (op_readBytes a n) hl hr
  | writethenread a wn n => exact wave_rx (op_writeThenRead a (txPayload s wn) n) hl hr
  | readreg a r =>
    dsimp only [bodyOf, readToRes] at hr ⊢
    exact wave_res (op_readRegister a r) hl hr
  | writereg a r v => exact wave_op (op_writeRegister a r v) hl hr
  | xread c =>
    dsimp only [bodyOf, readToRes] at hr ⊢
    exact wave_res (op_readRegister (deviceAddr Config.params c) REG_INPUT) hl hr
  | xwrite c v => exact wave_op (op_writeRegister _ _ _) hl hr
  | xconfig c v => exact wave_op (op_writeRegister _ _ _) hl hr
  | xsetinv c v => exact wave_op (op_writeRegister _ _ _) hl hr
  | xgetinv c =>
    dsimp only [bodyOf, readToRes] at hr ⊢
    exact wave_res (op_readRegister (deviceAddr Config.params c) REG_POLINV) hl hr
  | pinit => exact wave_op (op_panelInit _) hl hr
  | pcheck => exact absurd rfl hi
  | pbuttons =>
    dsimp only [bodyOf] at hr ⊢
    rw [panelButtons_eq] at hr ⊢
    exact wave_res (op_readTwo _ 0 2) hl hr
  | pknob =>
    dsimp only [bodyOf] at hr ⊢
    rw [panelKnob_eq] at hr ⊢
    exact wave_res (op_readTwo _ 0 1) hl hr
  | pleds m => exact wave_op (op_panelLeds _ m) hl hr
  | pledtick m =>
    dsimp only [bodyOf, panelLedTick] at hr ⊢
    rw [hp] at hr ⊢
    exact ⟨_, ran_pwm _ ((op_panelLeds _ _).ran u hl (hung_pwm hr)).1⟩
  | wireAddrWrite a => exact wave_op (op_wbyte _) hl hr
  | wireAddrRead a => exact wave_op (op_wbyte _) hl hr
  | regInput => exact wave_op (op_wbyte _) hl hr
  | regOutput => exact wave_op (op_wbyte _) hl hr
  | regPolinv => exact wave_op (op_wbyte _) hl hr
  | regConfig => exact wave_op (op_wbyte _) hl hr

theorem end_hung (u : State) : (endCommand u).hung = u.hung := by unfold endCommand; split <;> rfl
theorem end_trace (u : State) : (endCommand u).trace = u.trace := by unfold endCommand; split <;> rfl

theorem exec_wave {i s t} (hi : i ≠ .pcheck) (hr : s.Ready) (h : exec i s = .next t) (hh : t.hung = false) :
    (t.err ≠ 0 ∧ t.trace = s.trace ∧ (∃ c, ownershipOf i s = some c ∨ ownershipOf i s = none ∧
        operandsOf i = some c)) ∨ (t.err = 0 ∧ ownershipOf i s = none ∧ operandsOf i = none ∧
        latchWave (traceSince s t) = waveOf i s s.latches) := by
  obtain ⟨_, _, ⟨h0, rfl⟩ | ⟨h0, c, hc, rfl⟩ | ⟨_, ho, hp, rfl⟩⟩ := exec_next h
  · exact absurd hr.2.2.2 h0
  · refine .inl ⟨?_, rfl, c, hc⟩
    cases c <;> simp [refused, ErrCode.code]
  · right
    refine ⟨?_, ho, hp, ?_⟩
    · rcases exec_effects h with f | ⟨_, c, f⟩
      · rw [f.err]; exact hr.2.2.2
      · have := (effects_endCommand (effects_body i s _ (kept_begin i s))).err
        rw [this]; exact hr.2.2.2
    · rw [end_hung] at hh
      obtain ⟨n, hw⟩ := body_wave i hi s (beginCommand i s) rfl (live_beginCommand hr) hh
      have : traceSince s (endCommand (bodyOf i s (beginCommand i s))) = traceSince (beginCommand i s)
          (bodyOf i s (beginCommand i s)) := by
        simp only [traceSince, end_trace]; rfl
      rw [this, hw.wave]; rfl

end Sys2Proof.Machine
end

