-- ==== Sys2Proof/Laws/Running.lean ====
section
/-! SUPPORT. What every body keeps while it runs: one mode for both lines at the end of each procedure, a hang only while
the lines are owned, the chips in step with the clock line, the buffers canonical. -/

namespace Sys2Proof.Machine

/-- What holds between any two micro-operations of a command. -/
structure Running (s : State) : Prop where
  modes : s.sclMode = s.sdaMode
  hungOwned : s.hung = true → s.owned = true
  chips : ∀ c ∈ s.chips, c.seenScl = s.sclLine
  budget : s.budget = none
  busy : s.upc ≠ .idle

/-- The relation in the form `Stable` asks for. -/
def KeepsRunning (s t : State) : Prop := Running s → Running t

theorem observe_seen (a b : Bool) (c : Chip) : (Chip.observe a b c).seenScl = a := by
  unfold Chip.observe; rfl

theorem settle_seen (s : State) : ∀ c ∈ (settle s).chips, c.seenScl = (settle s).sclLine := by
  intro c hc
  simp only [settle_chips, List.mem_map] at hc
  obtain ⟨d, _, rfl⟩ := hc
  rw [observe_seen]; rfl

theorem advance_ne {u : Upc} (h : u ≠ .idle) : u.advance ≠ .idle := by cases u <;> simp_all [Upc.advance]

/-- After the environment's turn every chip has seen the clock line as it is, if it had before. -/
theorem environmentTurn_seen {s : State} (h : ∀ c ∈ s.chips, c.seenScl = s.sclLine) :
    ∀ c ∈ (environmentTurn s).chips, c.seenScl = (environmentTurn s).sclLine := by
  have key : ∀ (as : List EnvAct) (t : State), (∀ c ∈ t.chips, c.seenScl = t.sclLine) → t.sclMode = s.sclMode →
      t.sclOut = s.sclOut → let u := as.foldl (fun s a => environmentAct a s) t
      (∀ c ∈ u.chips, c.seenScl = u.sclLine) ∧ u.sclMode = s.sclMode ∧ u.sclOut = s.sclOut := by
    intro as
    induction as with
    | nil => exact fun t h m l => ⟨h, m, l⟩
    | cons a as ih =>
      refine fun t h m l => ih (environmentAct a t) (settle_seen _) ?_ ?_ <;> cases a <;> assumption
  obtain ⟨a, m, l⟩ := key s.nextActs s h rfl rfl
  intro c hc
  rw [a c hc]
  unfold State.sclLine
  rw [m, l]
  rfl

theorem running_act {f : State → State} {s : State} (h : Running s) (hs : ∀ t : State, t.hung = false →
    t.sclMode = t.sdaMode → (∀ c ∈ t.chips, c.seenScl = t.sclLine) → (f t).sclMode = (f t).sdaMode ∧
    ((f t).hung = true → (f t).owned = true) ∧ ∀ c ∈ (f t).chips, c.seenScl = (f t).sclLine) : Running (act f s) := by
  cases hh : s.hung with
  | true => rw [act_of_hung hh]; exact h
  | false =>
    rw [act_of_live ⟨hh, h.budget⟩]
    obtain ⟨a, b, c⟩ := hs (environmentTurn s) hh h.modes (environmentTurn_seen h.chips)
    refine ⟨a, b, c, rfl, ?_⟩
    show (if (f (environmentTurn s)).hung then s.upc else s.upc.advance) ≠ _
    split
    · exact h.busy
    · exact advance_ne h.busy

theorem running_quarter (c) {s : State} (h : Running s) : Running (quarter c s) := by
  apply running_act h
  intro s hh hm _
  dsimp only
  set t := environmentMoves s
  have seen : ∀ d ∈ t.chips, d.seenScl = t.sclLine := settle_seen _
  split
  · rename_i hb
    refine ⟨hm, fun _ => ?_, seen⟩
    unfold busHangs at hb
    rw [Bool.and_eq_true] at hb
    exact hb.1
  · refine ⟨hm, fun hx => ?_, seen⟩
    exact absurd (show s.hung = true from hx) (by simp [hh])

theorem running_simple {f : State → State} {s : State} (h : Running s) (hm : ∀ t, (f t).sclMode = t.sclMode ∧
    (f t).sdaMode = t.sdaMode) (hh : ∀ t, (f t).hung = t.hung) (hc : ∀ t, ∀ c ∈ (f t).chips,
    c.seenScl = (f t).sclLine) : Running (act f s) :=
  running_act h fun t h0 m _ => ⟨by rw [(hm t).1, (hm t).2, m], fun h1 => (by rw [hh, h0] at h1; cases h1), hc t⟩

theorem running_setScl (v) {s : State} (h : Running s) : Running (setScl v s) :=
  running_simple h (fun _ => ⟨rfl, rfl⟩) (fun _ => rfl) fun _ => settle_seen _
theorem running_setSda (v) {s : State} (h : Running s) : Running (setSda v s) :=
  running_simple h (fun _ => ⟨rfl, rfl⟩) (fun _ => rfl) fun _ => settle_seen _
theorem running_sample {s : State} (h : Running s) : Running (sampleSda s).2 :=
  running_simple (f := sampleEffect) h (fun _ => ⟨rfl, rfl⟩) (fun _ => rfl) fun _ => settle_seen _

theorem running_modes2 (m : LineMode) {s : State} (h : Running s) : Running (setSdaMode m (setSclMode m s)) := by
  cases hh : s.hung with
  | true => rw [setSclMode_of_hung _ hh, setSdaMode_of_hung _ hh]; exact h
  | false =>
    have hl : Live s := ⟨hh, h.budget⟩
    have hl1 := setSclMode_live (m := m) hl
    have m1 := (ran_setSclMode m hl).2.1
    have hup : (setSclMode m s).upc ≠ .idle := by
      have : setSclMode m s = _ := act_of_live hl
      rw [this]
      show (if s.hung then s.upc else s.upc.advance) ≠ _
      rw [hh]
      exact advance_ne h.busy
    have e0 : setSdaMode m (setSclMode m s) = _ := act_of_live hl1
    rw [e0]
    refine ⟨m1, fun hx => ?_, settle_seen _, rfl, ?_⟩
    · exact absurd (show (setSclMode m s).hung = true from hx) (by simp [hl1.hung])
    · show (if (setSclMode m s).hung then _ else (setSclMode m s).upc.advance) ≠ _
      rw [hl1.hung]
      exact advance_ne hup

theorem running_note {f : State → State} {s : State} (h : Running s) (hf : Running (f s)) : Running (note f s) := by
  unfold note; split
  · exact h
  · exact hf

theorem stableRunning : Stable KeepsRunning where
  refl _ h := h
  trans h k x := k (h x)
  setScl v _ := running_setScl v
  setSda v _ := running_setSda v
  quarter c _ := running_quarter c
  sample _ := running_sample
  setAckf _ _ h := running_note h ⟨h.1, h.2, h.3, h.4, h.5⟩
  construct _ h := running_modes2 .odOut (running_setSda _ (running_setScl _ h))
  destroy _ h := running_modes2 .input h

theorem running_setRes {v} {s : State} (h : Running s) : Running (setRes v s) := running_note h ⟨h.1, h.2, h.3, h.4,
    h.5⟩
theorem running_storeRx {v} {s : State} (h : Running s) : Running (storeRxbuf v s) := running_note h ⟨h.1, h.2, h.3,
    h.4, h.5⟩
theorem running_alive {v} {s : State} (h : Running s) : Running (setWasAlive v s) := running_note h ⟨h.1, h.2, h.3,
    h.4, h.5⟩
theorem running_pwm {v} {s : State} (h : Running s) : Running (advancePwm v s) := running_note h ⟨h.1, h.2, h.3, h.4,
    h.5⟩

theorem running_body (i : Instr) (s : State) {u : State} (h : Running u) : Running (bodyOf i s u) := by
  have K := stableRunning
  cases i with
  | qdelay => exact running_quarter _ h
  | construct => exact K.construct _ h
  | destroy => exact K.destroy _ h
  | start => exact K.start _ h
  | stop => exact K.stop _ h
  | wbit => exact K.wbit _ _ h
  | rbit => exact running_setRes (K.rbit _ h)
  | wbyte => exact K.wbyte _ _ h
  | rbyte => exact running_setRes (K.rbyte _ _ h)
  | writebytes => exact K.writeBytes _ _ _ h
  | readbytes => exact running_storeRx (K.readBytes _ _ _ h)
  | writethenread => exact running_storeRx (K.writeThenRead _ _ _ _ h)
  | readreg => dsimp only [bodyOf, readToRes]; exact running_setRes (K.readRegister _ _ _ h)
  | writereg => exact K.writeRegister _ _ _ _ h
  | xread => dsimp only [bodyOf, readToRes]; exact running_setRes (K.readRegister _ _ _ h)
  | xwrite => exact K.writeRegister _ _ _ _ h
  | xconfig => exact K.writeRegister _ _ _ _ h
  | xsetinv => exact K.writeRegister _ _ _ _ h
  | xgetinv => dsimp only [bodyOf, readToRes]; exact running_setRes (K.readRegister _ _ _ h)
  | pinit => exact K.panelInit _ _ h
  | pcheck =>
    show Running (panelCheck _ u)
    rw [panelCheck_eq]
    apply running_setRes; apply running_alive
    split
    · exact K.panelInit _ _ (K.panelProbe _ _ h)
    · exact K.panelProbe _ _ h
  | pbuttons => show Running (panelButtons _ u); rw [panelButtons_eq]; exact running_setRes (K.readTwo _ _ _ _ h)
  | pknob => show Running (panelKnob _ u); rw [panelKnob_eq]; exact running_setRes (K.readTwo _ _ _ _ h)
  | pleds => exact K.panelLeds _ _ _ h
  | pledtick => dsimp only [bodyOf, panelLedTick]; exact running_pwm (K.panelLeds _ _ _ h)
  | wireAddrWrite => exact K.wbyte _ _ h
  | wireAddrRead => exact K.wbyte _ _ h
  | regInput => exact K.wbyte _ _ h
  | regOutput => exact K.wbyte _ _ h
  | regPolinv => exact K.wbyte _ _ h
  | regConfig => exact K.wbyte _ _ h

/-- The buffers stay canonical and the counter stays below its modulus. -/
theorem body_buf (i : Instr) (s u : State) (hk : Kept s u) (hwf : Memory.wf s.rxbuf = true)
    (hp : s.pwmCnt < Config.params.pwmPeriod) :
    Memory.wf (bodyOf i s u).rxbuf = true ∧ (bodyOf i s u).pwmCnt < Config.params.pwmPeriod := by
  have f := effects_body i s u hk
  refine ⟨?_, ?_⟩
  · have st : ∀ (bs : List Byte) (v : State), v.rxbuf = s.rxbuf → Memory.wf (storeRxbuf bs v).rxbuf = true := by
      intro bs v hv
      unfold storeRxbuf note; split
      · rw [hv]; exact hwf
      · show Memory.wf (writeCells v.rxbuf 0 bs) = true
        rw [hv]; exact wf_writeCells 0 bs hwf
    have K := stableKept
    by_cases hr : (∃ a n, i = .readbytes a n) ∨ ∃ a wn n, i = .writethenread a wn n
    · rcases hr with ⟨a, n, rfl⟩ | ⟨a, wn, n, rfl⟩
      · exact st _ _ (hk.trans (K.readBytes _ _ _)).rxbuf
      · exact st _ _ (hk.trans (K.writeThenRead _ _ _ _)).rxbuf
    · have : (bodyOf i s u).rxbuf = s.rxbuf := by
        have er : ∀ v (u : State), (setRes v u).rxbuf = u.rxbuf := by intro v u; unfold setRes note; split <;> rfl
        have ea : ∀ v (u : State), (setWasAlive v u).rxbuf = u.rxbuf :=
            by intro v u; unfold setWasAlive note; split <;> rfl
        have ep : ∀ v (u : State), (advancePwm v u).rxbuf = u.rxbuf :=
            by intro v u; unfold advancePwm note; split <;> rfl
        cases i with
        | readbytes a n => exact absurd (.inl ⟨a, n, rfl⟩) hr
        | writethenread a wn n => exact absurd (.inr ⟨a, wn, n, rfl⟩) hr
        | qdelay => exact (hk.trans (K.quarter _ _)).rxbuf
        | construct => exact (hk.trans (K.construct _)).rxbuf
        | destroy => exact (hk.trans (K.destroy _)).rxbuf
        | start => exact (hk.trans (K.start _)).rxbuf
        | stop => exact (hk.trans (K.stop _)).rxbuf
        | wbit => exact (hk.trans (K.wbit _ _)).rxbuf
        | rbit => exact (er _ _).trans (hk.trans (K.rbit _)).rxbuf
        | wbyte => exact (hk.trans (K.wbyte _ _)).rxbuf
        | rbyte => exact (er _ _).trans (hk.trans (K.rbyte _ _)).rxbuf
        | writebytes => exact (hk.trans (K.writeBytes _ _ _)).rxbuf
        | readreg => dsimp only [bodyOf, readToRes]; rw [er]; exact (hk.trans (K.readRegister _ _ _)).rxbuf
        | writereg => exact (hk.trans (K.writeRegister _ _ _ _)).rxbuf
        | xread => dsimp only [bodyOf, readToRes]; rw [er]; exact (hk.trans (K.readRegister _ _ _)).rxbuf
        | xwrite => exact (hk.trans (K.writeRegister _ _ _ _)).rxbuf
        | xconfig => exact (hk.trans (K.writeRegister _ _ _ _)).rxbuf
        | xsetinv => exact (hk.trans (K.writeRegister _ _ _ _)).rxbuf
        | xgetinv => dsimp only [bodyOf, readToRes]; rw [er]; exact (hk.trans (K.readRegister _ _ _)).rxbuf
        | pinit => exact (hk.trans (K.panelInit _ _)).rxbuf
        | pcheck =>
          show (panelCheck _ u).rxbuf = _
          rw [panelCheck_eq, er, ea]
          split
          · exact (hk.trans ((K.panelProbe _ _).trans (K.panelInit _ _))).rxbuf
          · exact (hk.trans (K.panelProbe _ _)).rxbuf
        | pbuttons =>
          show (panelButtons _ u).rxbuf = _
          rw [panelButtons_eq, er]
          exact (hk.trans (K.readTwo _ _ _ _)).rxbuf
        | pknob =>
          show (panelKnob _ u).rxbuf = _
          rw [panelKnob_eq, er]
          exact (hk.trans (K.readTwo _ _ _ _)).rxbuf
        | pleds => exact (hk.trans (K.panelLeds _ _ _)).rxbuf
        | pledtick => dsimp only [bodyOf, panelLedTick]; rw [ep]; exact (hk.trans (K.panelLeds _ _ _)).rxbuf
        | wireAddrWrite => exact (hk.trans (K.wbyte _ _)).rxbuf
        | wireAddrRead => exact (hk.trans (K.wbyte _ _)).rxbuf
        | regInput => exact (hk.trans (K.wbyte _ _)).rxbuf
        | regOutput => exact (hk.trans (K.wbyte _ _)).rxbuf
        | regPolinv => exact (hk.trans (K.wbyte _ _)).rxbuf
        | regConfig => exact (hk.trans (K.wbyte _ _)).rxbuf
      rw [this]; exact hwf
  · by_cases hi : ∃ m, i = .pledtick m
    · obtain ⟨m, rfl⟩ := hi
      dsimp only [bodyOf, panelLedTick]
      unfold advancePwm note; split
      · rw [(hk.trans (stableKept.panelLeds _ _ _)).pwmCnt]; exact hp
      · exact Nat.mod_lt _ Config.pwmPeriod_pos
    · rw [f.pwm (fun m h => hi ⟨m, h⟩)]; exact hp

end Sys2Proof.Machine
end

