-- ==== Sys2Proof/Laws/HostMoves.lean ====
section
/-! SUPPORT. What a move of the world outside can do: a step as the move at the head of the list, a host move as what it does on
an idle block, an act of the environment as a change of the environment alone. -/

namespace Sys2Proof.Machine

/-! ### Steps -/

theorem step_of_input {s : State} {m : Input} {rest : List Input} (h : s.inputs = m :: rest) :
    step s = takeInput m { s with inputs := rest } := by
  unfold step nextMove
  rw [h]

theorem step_of_none {s : State} (h : s.inputs = []) : step s = waitForInput s := by
  unfold step nextMove
  rw [h]

/-! ### Host moves (00_scope.md R12) -/

/-- On an idle block a host move is what it does. -/
theorem whenIdle_of_idle {move : State → Host.Outcome State Fault Refusal} {s : State} (hh : s.hung = false)
    (hb : s.busy = false) : whenIdle move s = move s := by
  unfold whenIdle
  rw [hh, hb]
  rfl

/-- A host move that has a next state was made on an idle block. -/
theorem whenIdle_next {move : State → Host.Outcome State Fault Refusal} {s t : State} (h : whenIdle move s = .next t) :
    s.hung = false ∧ s.busy = false ∧ move s = .next t := by
  unfold whenIdle at h
  split at h
  · cases h
  · split at h
    · cases h
    · rename_i h1 h2
      exact ⟨by simpa using h1, by simpa using h2, h⟩

/-- A word: a command of the table, or the refusal of R244. -/
theorem runWord_next {w : CmdWord} {s t : State} (h : runWord w s = .next t) :
    (∃ i, decodeCommand w = .ok i ∧ exec i { s with cmd := some w } = .next t) ∨
      ((∀ i, decodeCommand w ≠ .ok i) ∧ t = refuse .illegalCmd s) := by
  unfold runWord at h
  split at h
  · rename_i i hi
    exact .inl ⟨i, hi, h⟩
  · rename_i e he
    cases h
    refine .inr ⟨fun i hi => ?_, rfl⟩
    rw [he] at hi
    cases hi

/-- A reset inside a command: the command as far as it came, the environment's turn, then reset. -/
theorem runWordThenReset_next {w : CmdWord} {k : Nat} {s t : State} (h : runWordThenReset w k s = .next t) :
    ∃ u, runWord w { s with budget := some k } = .next u ∧ t = blockReset (environmentTurn u) := by
  unfold runWordThenReset at h
  split at h
  · rename_i u hu
    cases h
    exact ⟨u, hu, rfl⟩
  · cases h
  · cases h

/-! ### The environment (00_scope.md R11) -/

/-- An act of the environment changes what it contributes and the chips, and nothing of the block. -/
theorem environmentAct_eq (a : EnvAct) (s : State) :
    environmentAct a s = { s with envScl := (environmentAct a s).envScl, envSda := (environmentAct a s).envSda,
                                  chips := (environmentAct a s).chips } := by
  cases a <;> rfl

/-- After an act of the environment every chip has seen the clock line as it is. -/
theorem environmentAct_seen (a : EnvAct) (s : State) :
    ∀ c ∈ (environmentAct a s).chips, c.seenScl = (environmentAct a s).sclLine := settle_seen _

/-- A turn changes what the environment contributes and the chips, and nothing of the block. -/
theorem environmentTurn_eq (s : State) :
    environmentTurn s = { s with envScl := (environmentTurn s).envScl, envSda := (environmentTurn s).envSda,
                                 chips := (environmentTurn s).chips, envActs := s.envActs.tail,
                                 envTurns := s.envTurns + 1 } := rfl

end Sys2Proof.Machine
end

