-- ==== Sys2Proof/Laws/PerInstr.lean ====
section
/-! SUPPORT. One statement about every instruction as syntax, proved per constructor: its spelling is the one its row of the
opcode table prints (30_encoding.md R83 to R85). -/

namespace Sys2Proof

/-- Masking a command word masks its four fields. -/
theorem packWord_and (op a b c op' a' b' c' : Byte) :
    packWord op a b c &&& packWord op' a' b' c' = packWord (op &&& op') (a &&& a') (b &&& b') (c &&& c') := by
  unfold packWord
  change (op ++ a ++ b ++ c : BitVec (8 + 8 + 8 + 8)) &&& (op' ++ a' ++ b' ++ c' : BitVec (8 + 8 + 8 + 8)) = _
  rw [BitVec.and_append, BitVec.and_append, BitVec.and_append]

namespace Laws.Spelling

/-- The row of R83 that bears the instruction's name, if it is a command. -/
def rowOf (i : Instr) : Option CommandRow := commandTable.find? fun r => r.name == i.mnemonic

/-- A well-formed command's word matches the row of its name, reserved bits 0 included; a wire row's byte is the byte of
R84 or R85, and decodes at its position to the instruction. -/
def Statement (i : Instr) : Prop :=
  i.wf = true →
    match encode i with
    | .command w => ∃ r, rowOf i = some r ∧ r.matchesWord w = true
    | .wireByte p b => i.wireByteValue = some b ∧ decodeWireByte p b = .ok i ∧ rowOf i = none

/-- A row matches a word given by its fields when it matches field by field. -/
theorem matches_fields {r : CommandRow} {op a b c op' a' b' c' : Byte} (hm : r.mask = packWord op' a' b' c')
    (hp : packWord (op &&& op') (a &&& a') (b &&& b') (c &&& c') = r.pattern) :
    r.matchesWord (packWord op a b c) = true := by
  rw [CommandRow.matchesWord, hm, packWord_and, hp, beq_self_eq_true]

theorem addr_reserved (a : Addr7) : a.setWidth 8 &&& (0x80 : Byte) = 0 := by revert a; decide

theorem mask_reserved (m : Mask5) : m.setWidth 8 &&& (0xE0 : Byte) = 0 := by revert m; decide

theorem bit_reserved (b : Bool) : bitByte b &&& (0xFE : Byte) = 0 := by cases b <;> decide

theorem free_field (v : Byte) : v &&& (0x00 : Byte) = 0 := BitVec.and_zero

theorem wire_write (a : Addr7) : a.setWidth 8 <<< 1 = addrByte a false ∧
    decodeWireByte .address (addrByte a false) = .ok (.wireAddrWrite a) := by revert a; decide

theorem wire_read (a : Addr7) : a.setWidth 8 <<< 1 ||| 1 = addrByte a true ∧
    decodeWireByte .address (addrByte a true) = .ok (.wireAddrRead a) := by revert a; decide

theorem qdelay : Statement .qdelay := fun _ => ⟨_, by rfl, by decide⟩
theorem construct : Statement .construct := fun _ => ⟨_, by rfl, by decide⟩
theorem destroy : Statement .destroy := fun _ => ⟨_, by rfl, by decide⟩
theorem start : Statement .start := fun _ => ⟨_, by rfl, by decide⟩
theorem stop : Statement .stop := fun _ => ⟨_, by rfl, by decide⟩
theorem wbit (bit : Bool) : Statement (.wbit bit) := fun _ =>
  ⟨_, by rfl, matches_fields (op' := 0xFF) (a' := 0xFF) (b' := 0xFF) (c' := 0xFE) (by decide)
    (by rw [bit_reserved]; decide)⟩
theorem rbit : Statement .rbit := fun _ => ⟨_, by rfl, by decide⟩
theorem wbyte (byte : Byte) : Statement (.wbyte byte) := fun _ =>
  ⟨_, by rfl, matches_fields (op' := 0xFF) (a' := 0xFF) (b' := 0xFF) (c' := 0x00) (by decide)
    (by rw [free_field byte]; decide)⟩
theorem rbyte (ack : Bool) : Statement (.rbyte ack) := fun _ =>
  ⟨_, by rfl, matches_fields (op' := 0xFF) (a' := 0xFF) (b' := 0xFF) (c' := 0xFE) (by decide)
    (by rw [bit_reserved]; decide)⟩
theorem writebytes (addr7 : Addr7) (n : Nat) : Statement (.writebytes addr7 n) := fun _ =>
  ⟨_, by rfl, matches_fields (op' := 0xFF) (a' := 0x80) (b' := 0x00) (c' := 0xFF) (by decide)
    (by rw [addr_reserved, free_field (BitVec.ofNat 8 n)]; decide)⟩
theorem readbytes (addr7 : Addr7) (count : Nat) : Statement (.readbytes addr7 count) := fun _ =>
  ⟨_, by rfl, matches_fields (op' := 0xFF) (a' := 0x80) (b' := 0x00) (c' := 0xFF) (by decide)
    (by rw [addr_reserved, free_field (BitVec.ofNat 8 count)]; decide)⟩
theorem writethenread (addr7 : Addr7) (wn rcount : Nat) : Statement (.writethenread addr7 wn rcount) := fun _ =>
  ⟨_, by rfl, matches_fields (op' := 0xFF) (a' := 0x80) (b' := 0x00) (c' := 0x00) (by decide)
    (by rw [addr_reserved, free_field (BitVec.ofNat 8 wn), free_field (BitVec.ofNat 8 rcount)]; decide)⟩
theorem readreg (addr7 : Addr7) (reg : Byte) : Statement (.readreg addr7 reg) := fun _ =>
  ⟨_, by rfl, matches_fields (op' := 0xFF) (a' := 0x80) (b' := 0x00) (c' := 0xFF) (by decide)
    (by rw [addr_reserved, free_field reg]; decide)⟩
theorem writereg (addr7 : Addr7) (reg value : Byte) : Statement (.writereg addr7 reg value) := fun _ =>
  ⟨_, by rfl, matches_fields (op' := 0xFF) (a' := 0x80) (b' := 0x00) (c' := 0x00) (by decide)
    (by rw [addr_reserved, free_field reg, free_field value]; decide)⟩
theorem xread (chip : Nat) : Statement (.xread chip) := fun _ =>
  ⟨_, by rfl, matches_fields (op' := 0xFF) (a' := 0x00) (b' := 0xFF) (c' := 0xFF) (by decide)
    (by rw [free_field (BitVec.ofNat 8 chip)]; decide)⟩
theorem xwrite (chip : Nat) (value : Byte) : Statement (.xwrite chip value) := fun _ =>
  ⟨_, by rfl, matches_fields (op' := 0xFF) (a' := 0x00) (b' := 0xFF) (c' := 0x00) (by decide)
    (by rw [free_field (BitVec.ofNat 8 chip), free_field value]; decide)⟩
theorem xconfig (chip : Nat) (mask : Byte) : Statement (.xconfig chip mask) := fun _ =>
  ⟨_, by rfl, matches_fields (op' := 0xFF) (a' := 0x00) (b' := 0xFF) (c' := 0x00) (by decide)
    (by rw [free_field (BitVec.ofNat 8 chip), free_field mask]; decide)⟩
theorem xsetinv (chip : Nat) (mask : Byte) : Statement (.xsetinv chip mask) := fun _ =>
  ⟨_, by rfl, matches_fields (op' := 0xFF) (a' := 0x00) (b' := 0xFF) (c' := 0x00) (by decide)
    (by rw [free_field (BitVec.ofNat 8 chip), free_field mask]; decide)⟩
theorem xgetinv (chip : Nat) : Statement (.xgetinv chip) := fun _ =>
  ⟨_, by rfl, matches_fields (op' := 0xFF) (a' := 0x00) (b' := 0xFF) (c' := 0xFF) (by decide)
    (by rw [free_field (BitVec.ofNat 8 chip)]; decide)⟩
theorem pinit : Statement .pinit := fun _ => ⟨_, by rfl, by decide⟩
theorem pcheck : Statement .pcheck := fun _ => ⟨_, by rfl, by decide⟩
theorem pbuttons : Statement .pbuttons := fun _ => ⟨_, by rfl, by decide⟩
theorem pknob : Statement .pknob := fun _ => ⟨_, by rfl, by decide⟩
theorem pleds (mask5 : Mask5) : Statement (.pleds mask5) := fun _ =>
  ⟨_, by rfl, matches_fields (op' := 0xFF) (a' := 0xFF) (b' := 0xFF) (c' := 0xE0) (by decide)
    (by rw [mask_reserved]; decide)⟩
theorem pledtick (state5 : Mask5) : Statement (.pledtick state5) := fun _ =>
  ⟨_, by rfl, matches_fields (op' := 0xFF) (a' := 0xFF) (b' := 0xFF) (c' := 0xE0) (by decide)
    (by rw [mask_reserved]; decide)⟩
theorem wireAddrWrite (a : Addr7) : Statement (.wireAddrWrite a) := fun _ =>
  ⟨congrArg some (wire_write a).1, (wire_write a).2, by rfl⟩
theorem wireAddrRead (a : Addr7) : Statement (.wireAddrRead a) := fun _ =>
  ⟨congrArg some (wire_read a).1, (wire_read a).2, by rfl⟩
theorem regInput : Statement .regInput := fun _ => ⟨rfl, rfl, by rfl⟩
theorem regOutput : Statement .regOutput := fun _ => ⟨rfl, rfl, by rfl⟩
theorem regPolinv : Statement .regPolinv := fun _ => ⟨rfl, rfl, by rfl⟩
theorem regConfig : Statement .regConfig := fun _ => ⟨rfl, rfl, by rfl⟩

end Laws.Spelling

end Sys2Proof
end

