-- ==== Sys2Proof/Tests/Slice0.lean ====
section
/-! SUPPORT. Tests: the well-formedness smoke tests, one decoded word for every constructor, single steps with the results of
spec/95_test_vectors.md (the vector is named in each docstring), and a witness for the hypotheses of every
obligation. -/

namespace Sys2Proof.Tests

open Machine

-- Kernel evaluations wait for one another, each holding a thread of its own.
set_option Elab.async false

/-! ### Helpers -/

/-- The reset state with the other devices holding nothing at the next `k` observations, and an environment that does
nothing in its turns. -/
def held (k : Nat) : State :=
  { State.reset with envScript := List.replicate k ⟨true, true⟩, envActs := List.replicate 2000 [] }

/-- The same with the lines owned. -/
def owning (k : Nat) : State := { held k with sclMode := .odOut, sdaMode := .odOut }

/-- Owned, inside a frame: the clock latch 0 and the data latch `d`. -/
def inFrame (k : Nat) (d : Bool) : State := { owning k with sclOut := false, sdaOut := d }

/-- Does the outcome give a next state with a property? -/
def gives (o : Host.Outcome State Fault Refusal) (p : State → Bool) : Bool :=
  match o with
  | .next t => p t
  | _ => false

theorem gives_next {o : Host.Outcome State Fault Refusal} {p : State → Bool} (h : gives o p = true) :
    ∃ t, o = .next t ∧ p t = true := by
  unfold gives at h
  split at h
  · exact ⟨_, rfl, h⟩
  · cases h

/-- The parameters of the vectors (95_test_vectors.md, conventions). -/
def P0 : Params :=
  { quarterBitCycles := 1, expBase := 0x20, aliveTestMask := 0x10, pwmPeriod := 10, pwmBaseThresh := 2
    pwmPressedThresh := 8 }

/-- A command's body run from its begin to its end, for the procedures that take parameters. -/
def ended (i : Instr) (body : State → State) (s : State) : State := endCommand (body (beginCommand i s))

/-- One digit per `Q()`, four to a bit cell, as the vectors print a latch. -/
def cells (l : List (BitVec 4)) : List Bool := l.flatMap fun v => [3, 2, 1, 0].map v.getLsbD

/-- The clock and the data latch of the waveform between two states. -/
def clockWave (s t : State) : List Bool := (latchWave (traceSince s t)).map Prod.fst
def dataWave (s t : State) : List Bool := (latchWave (traceSince s t)).map Prod.snd

/-- The frames on the wires between two states: a ninth bit `false` is an acknowledgement. -/
def wireFrames (s t : State) : List FrameSymbol := frames (lineWave (traceSince s t))

/-- A byte and its ninth bit acknowledged, or not. -/
def A (v : Byte) : FrameSymbol := .byte v false
def N (v : Byte) : FrameSymbol := .byte v true

/-- Chip 2 of the vectors, at power-on values. -/
def chip22 : Chip := Chip.fresh 0x22 0xFF

/-! ### Well-formedness: an ill-formed term for each check -/

theorem test_wf_writebytes : (Instr.writebytes 0x22 256).wf = false := by decide
theorem test_wf_readbytes : (Instr.readbytes 0x22 256).wf = false := by decide
theorem test_wf_writethenread_write : (Instr.writethenread 0x22 256 1).wf = false := by decide
theorem test_wf_writethenread_read : (Instr.writethenread 0x22 1 256).wf = false := by decide
theorem test_wf_xread : (Instr.xread 256).wf = false := by decide
theorem test_wf_xwrite : (Instr.xwrite 256 0).wf = false := by decide
theorem test_wf_xconfig : (Instr.xconfig 256 0).wf = false := by decide
theorem test_wf_xsetinv : (Instr.xsetinv 256 0).wf = false := by decide
theorem test_wf_xgetinv : (Instr.xgetinv 256).wf = false := by decide
theorem test_wf_top : (Instr.writethenread 0x7F 255 255).wf = true := by decide

/-! ### Decoding: one word for every constructor, written out in the table of vectors V30 and in R84, R85 -/

def primitiveRows : List (Nat × Nat × Instr) :=
  [(32, 0x01000000, .qdelay), (32, 0x02000000, .construct), (32, 0x03000000, .destroy), (32, 0x04000000, .start),
   (32, 0x05000000, .stop), (32, 0x06000001, .wbit true), (32, 0x07000000, .rbit), (32, 0x080000A5, .wbyte 0xA5),
   (32, 0x09000001, .rbyte true)]

def transactionRows : List (Nat × Nat × Instr) :=
  [(32, 0x10220200, .writebytes 0x22 2), (32, 0x11220200, .readbytes 0x22 2),
   (32, 0x12220103, .writethenread 0x22 1 3), (32, 0x13220200, .readreg 0x22 0x02),
   (32, 0x14220379, .writereg 0x22 0x03 0x79)]

def expanderRows : List (Nat × Nat × Instr) :=
  [(32, 0x20020000, .xread 2), (32, 0x2102005A, .xwrite 2 0x5A), (32, 0x2202000F, .xconfig 2 0x0F),
   (32, 0x23020003, .xsetinv 2 0x03), (32, 0x24020000, .xgetinv 2)]

def panelRows : List (Nat × Nat × Instr) :=
  [(32, 0x30000000, .pinit), (32, 0x31000000, .pcheck), (32, 0x32000000, .pbuttons), (32, 0x33000000, .pknob),
   (32, 0x34000015, .pleds 0b10101), (32, 0x35000004, .pledtick 0b00100)]

def wireRows : List (Nat × Nat × Instr) :=
  [(8, 0x40, .wireAddrWrite 0x20), (8, 0x45, .wireAddrRead 0x22), (8, 0x00, .regInput), (8, 0x01, .regOutput),
   (8, 0x02, .regPolinv), (8, 0x03, .regConfig)]

def decodes (rows : List (Nat × Nat × Instr)) : Bool := rows.all fun r => decodeTableWord r.1 r.2.1 == some r.2.2

theorem test_decode_primitives : decodes primitiveRows = true := by decide
theorem test_decode_transactions : decodes transactionRows = true := by decide
theorem test_decode_expander : decodes expanderRows = true := by decide
theorem test_decode_panel : decodes panelRows = true := by decide
theorem test_decode_wire : decodes wireRows = true := by decide

/-- The encoder writes the same words. -/
theorem test_encode : (primitiveRows ++ transactionRows ++ expanderRows ++ panelRows ++ wireRows).all
    (fun r => tableEncoded r.1 r.2.1 == some (encode r.2.2)) = true := by decide

/-- Vectors V30: the nine illegal words, and two bytes that are no register pointer or lie at the edge (R84). -/
theorem test_decode_illegal : ([0x00000000, 0x02000001, 0x06000002, 0x10800000, 0x13220201, 0x20020100, 0x34000020,
    0x15000000, 0xFF000000].all fun w => decodeTableWord 32 w == none) = true := by decide

theorem test_decode_wire_edges : decodeWireByte .address 0xFE = .ok (.wireAddrWrite 0x7F) ∧
    decodeWireByte .address 0x01 = .ok (.wireAddrRead 0x00) ∧
    decodeWireByte .pointer 0x04 = .error (.noRegisterPointer 0x04) := ⟨rfl, rfl, rfl⟩

/-- Every row's word runs as the first instruction after reset. -/
theorem test_rows_run_first : ((primitiveRows ++ transactionRows ++ expanderRows ++ panelRows ++ wireRows).all
    fun r => gives (step (State.reset.withFetchWord r.1 r.2.1)) fun _ => true) = true := by decide +kernel

/-! ### Layer L0 -/

/-- V40.1. -/
theorem test_qdelay : gives (exec .qdelay State.reset) (fun t =>
    t.status == 0x00 && durationBetween State.reset t == 1 && t.sclOut && t.sdaOut) = true := by decide +kernel

/-- V40.6. -/
theorem test_qdelay_hangs : gives (exec .qdelay { owning 0 with envScript := [⟨false, true⟩] }) (fun t =>
    t.hung && t.busy && t.err == 0) = true := by decide +kernel

/-- V40.2. -/
theorem test_construct : gives (exec .construct State.reset) (fun t =>
    t.status == 0x02 && t.sclOut && t.sdaOut && durationBetween State.reset t == 0) = true := by decide +kernel

/-- V40.4. -/
theorem test_construct_refused : gives (exec .construct (owning 0)) (fun t => t.status == 0x32) = true := by
  decide +kernel

/-- V40.3. -/
theorem test_destroy : gives (exec .destroy (owning 0)) (fun t =>
    t.status == 0x00 && t.sclMode == .input && t.sdaMode == .input && t.sclOut && t.sdaOut) = true := by
  decide +kernel

/-- V40.5. -/
theorem test_destroy_refused : gives (exec .destroy State.reset) (fun t => t.status == 0x20) = true := by
  decide +kernel

/-! ### Layer L1, primitives -/

/-- V41.1. -/
theorem test_start : gives (exec .start (owning 4)) (fun t =>
    clockWave (owning 4) t == cells [0b1110] && dataWave (owning 4) t == cells [0b1100] && !t.sclOut && !t.sdaOut) =
    true := by decide +kernel

/-- V41.2: a repeated start. -/
theorem test_start_repeated : gives (exec .start (inFrame 4 true)) (fun t =>
    clockWave (inFrame 4 true) t == cells [0b0110] && dataWave (inFrame 4 true) t == cells [0b1100]) = true := by
  decide +kernel

/-- V41.4. -/
theorem test_stop : gives (exec .stop (inFrame 3 false)) (fun t =>
    clockWave (inFrame 3 false) t == [false, true, true] && dataWave (inFrame 3 false) t == [false, false, true] &&
    t.sclOut && t.sdaOut) = true := by decide +kernel

/-- V41.13, cause (c): the data line held low at the third `Q()`. -/
theorem test_stop_hangs : gives (exec .stop { inFrame 0 true with envScript := List.replicate 3 ⟨true, false⟩ }) (fun t =>
    t.hung && t.busy && t.err == 0 && t.upc == .at .stop 5) = true := by decide +kernel

/-- V41.5. -/
theorem test_wbit_zero : gives (exec (.wbit false) (inFrame 4 true)) (fun t =>
    clockWave (inFrame 4 true) t == cells [0b0100] && dataWave (inFrame 4 true) t == cells [0b0000] && !t.sdaOut) =
    true := by decide +kernel

/-- V41.6. -/
theorem test_wbit_one : gives (exec (.wbit true) (inFrame 4 false)) (fun t =>
    dataWave (inFrame 4 false) t == cells [0b1111] && t.sdaOut && !t.sclOut) = true := by decide +kernel

/-- V41.8. -/
theorem test_rbit : gives (exec .rbit (inFrame 5 false)) (fun t =>
    clockWave (inFrame 5 false) t == cells [0b0110] && t.res == 0x0001 && t.sdaOut) = true := by decide +kernel

/-- V41.8b. -/
theorem test_rbit_low : gives (exec .rbit { inFrame 0 false with envScript := List.replicate 5 ⟨true, false⟩ }) (fun t =>
    t.res == 0x0000 && !t.hung) = true := by decide +kernel

/-- V41.7: 0xA5 and no slave. -/
theorem test_wbyte : gives (exec (.wbyte 0xA5) (inFrame 37 false)) (fun t =>
    !t.ackf && t.status == 0x02 &&
    clockWave (inFrame 37 false) t == cells [4, 4, 4, 4, 4, 4, 4, 4, 6] &&
    dataWave (inFrame 37 false) t == cells [15, 0, 15, 0, 0, 15, 0, 15, 15]) = true := by decide +kernel

/-- V41.7: 0xA5 and a slave that acknowledges. -/
theorem test_wbyte_acknowledged : gives
    (exec (.wbyte 0xA5) { inFrame 0 false with envScript := List.replicate 32 ⟨true, true⟩ ++ List.replicate 5 ⟨true, false⟩ })
    (fun t => t.ackf && t.status == 0x06) = true := by decide +kernel

/-- V41.9. -/
theorem test_rbyte : gives (exec (.rbyte true) (inFrame 44 true)) (fun t =>
    t.res == 0x00FF && !t.sdaOut && clockWave (inFrame 44 true) t == cells [6, 6, 6, 6, 6, 6, 6, 6, 4] &&
    dataWave (inFrame 44 true) t == cells [15, 15, 15, 15, 15, 15, 15, 15, 0]) = true := by decide +kernel

/-- A slave that sends 0x3C: two bits low, four high, two low, then let go. -/
def sends3C : List Levels :=
  List.replicate 10 ⟨true, false⟩ ++ List.replicate 20 ⟨true, true⟩ ++ List.replicate 10 ⟨true, false⟩ ++
    List.replicate 4 ⟨true, true⟩

/-- V41.11: the slave sends 0x3C, bit 7 first. -/
theorem test_rbyte_value : gives (exec (.rbyte false) { inFrame 0 true with envScript := sends3C })
    (fun t => t.res == 0x003C && t.sdaOut) = true := by decide +kernel

/-! ### Layer L1, transactions, with a reference expander at 0x22 -/

/-- V42.3. -/
theorem test_writebytes : gives
    (exec (.writebytes 0x22 2) { owning 118 with chips := [chip22], txbuf := [(0, 0x03), (1, 0x79)] }) (fun t =>
    wireFrames (owning 118) t == [.start, A 0x44, A 0x03, A 0x79, .stop] && t.chips.map Chip.cfg == [0x79] &&
    durationBetween (owning 118) t == 115) = true := by decide +kernel

/-- V42.5. -/
theorem test_writebytes_none : gives (exec (.writebytes 0x23 0) { owning 44 with chips := [chip22] }) (fun t =>
    wireFrames (owning 44) t == [.start, N 0x46, .stop] && !t.ackf && t.err == 0 &&
    durationBetween (owning 44) t == 43) = true := by decide +kernel

/-- V42.9, and the bytes beyond the count. -/
theorem test_readbytes : gives (exec (.readbytes 0x22 2)
    { owning 132 with chips := [{ chip22 with inv := 0x10, ptr := 2 }], rxbuf := [(2, 0xEE)] }) (fun t =>
    wireFrames (owning 132) t == [.start, A 0x45, A 0x10, N 0x10, .stop] &&
    t.rxbuf == [(0, 0x10), (1, 0x10), (2, 0xEE)] && t.ackf) = true := by decide +kernel

/-- V42.14. -/
theorem test_readbytes_refused : gives (exec (.readbytes 0x22 0) (owning 0)) (fun t =>
    t.status == 0x52 && durationBetween (owning 0) t == 0) = true := by decide +kernel

/-- V42.7. -/
theorem test_writethenread : gives (exec (.writethenread 0x22 1 3)
    { owning 254 with chips := [{ chip22 with inv := 0x10 }], txbuf := [(0, 0x02)] }) (fun t =>
    wireFrames (owning 254) t == [.start, A 0x44, A 0x02, .start, A 0x45, A 0x10, A 0x10, N 0x10, .stop] &&
    t.rxbuf == [(0, 0x10), (1, 0x10), (2, 0x10)] && durationBetween (owning 254) t == 227) = true := by
  decide +kernel

/-- V42.16: ownership before operands. -/
theorem test_writethenread_refused : gives (exec (.writethenread 0x22 1 0) State.reset) (fun t => t.err == 2) = true := by
  decide +kernel

/-- V42.2. -/
theorem test_readreg : gives (exec (.readreg 0x22 0x03) { owning 166 with chips := [{ chip22 with cfg := 0x79 }] }) (fun t =>
    wireFrames (owning 166) t == [.start, A 0x44, A 0x03, .start, A 0x45, N 0x79, .stop] && t.res == 0x0079 && t.ackf &&
    durationBetween (owning 166) t == 155) = true := by decide +kernel

/-- V42.12: no device. -/
theorem test_readreg_absent : gives (exec (.readreg 0x30 0x00) (owning 166)) (fun t =>
    t.res == 0x00FF && !t.ackf && t.err == 0) = true := by decide +kernel

/-- V42.1, the whole master-side waveform. -/
theorem test_writereg : gives (exec (.writereg 0x22 0x03 0x79) { owning 118 with chips := [chip22] }) (fun t =>
    t.status == 0x06 && t.chips.map Chip.cfg == [0x79] &&
    clockWave (owning 118) t == cells ([14] ++ List.replicate 8 4 ++ [6] ++ List.replicate 8 4 ++ [6] ++
      List.replicate 8 4 ++ [6]) ++ [false, true, true] &&
    dataWave (owning 118) t == cells [12, 0, 15, 0, 0, 0, 15, 0, 0, 15, 0, 0, 0, 0, 0, 0, 15, 15, 15, 0, 15, 15, 15,
      15, 0, 0, 15, 15] ++ [false, false, true]) = true := by decide +kernel

/-! ### Layer L2, with the parameters of the vectors -/

/-- V43.1. -/
theorem test_xread : gives (expanderRead P0 (.xread 2) 2 REG_INPUT
    { owning 166 with chips := [{ chip22 with ext := 0x01 }] }) (fun t =>
    wireFrames (owning 166) t == [.start, A 0x44, A 0x00, .start, A 0x45, N 0x01, .stop] && t.res == 0x0001) = true := by
  decide +kernel

/-- V43.9. -/
theorem test_xread_refused : gives (expanderRead P0 (.xread 0x60) 0x60 REG_INPUT (owning 0)) (fun t =>
    t.status == 0x42) = true := by decide +kernel

/-- V43.2. -/
theorem test_xwrite : gives (expanderWrite P0 (.xwrite 0 0x10) 0 REG_OUTPUT 0x10
    { owning 118 with chips := [Chip.fresh 0x20 0xFF] }) (fun t => t.chips.map Chip.out == [0x10] && t.ackf) = true := by
  decide +kernel

/-- V43.3. -/
theorem test_xconfig : gives (expanderWrite P0 (.xconfig 2 0x79) 2 REG_CONFIG 0x79 { owning 118 with chips := [chip22] })
    (fun t => t.chips.map Chip.cfg == [0x79]) = true := by decide +kernel

/-- V43.4. -/
theorem test_xsetinv : gives (expanderWrite P0 (.xsetinv 2 0x10) 2 REG_POLINV 0x10 { owning 118 with chips := [chip22] })
    (fun t => t.chips.map Chip.inv == [0x10]) = true := by decide +kernel

/-- V43.5. -/
theorem test_xgetinv : gives (expanderRead P0 (.xgetinv 2) 2 REG_POLINV
    { owning 166 with chips := [{ chip22 with inv := 0x10 }] }) (fun t => t.res == 0x0010) = true := by decide +kernel

/-- The arms of L2 are these operations at the parameters of the instance, each with its own register. -/
theorem test_expander_arms (s : State) : exec (.xread 1) s = expanderRead Config.params (.xread 1) 1 0x00 s ∧
    exec (.xwrite 1 7) s = expanderWrite Config.params (.xwrite 1 7) 1 0x01 7 s ∧
    exec (.xconfig 1 7) s = expanderWrite Config.params (.xconfig 1 7) 1 0x03 7 s ∧
    exec (.xsetinv 1 7) s = expanderWrite Config.params (.xsetinv 1 7) 1 0x02 7 s ∧
    exec (.xgetinv 1) s = expanderRead Config.params (.xgetinv 1) 1 0x02 s := ⟨rfl, rfl, rfl, rfl, rfl⟩

/-! ### Layer L3, with the parameters of the vectors -/

/-- The three chips of the panel, with their pins. -/
def panelChips (e0 e1 e2 : Byte) : List Chip := [Chip.fresh 0x20 e0, Chip.fresh 0x21 e1, Chip.fresh 0x22 e2]

/-- V44.1: the eight register writes, each as chip, register, value. -/
theorem test_pinit (s : State) : panelInit P0 s = destroy (writeChips P0
    [(0, 0x02, 0x00), (1, 0x02, 0x00), (2, 0x02, 0x00), (0, 0x03, 0x6F), (1, 0x03, 0xFF), (2, 0x03, 0x79),
     (0, 0x01, 0x00), (2, 0x01, 0x00)] (construct s)) := by
  have h : configMask 0 = 0x6F ∧ configMask 1 = 0xFF ∧ configMask 2 = 0x79 := by decide
  rw [panelInit_eq, initWrites, h.1, h.2.1, h.2.2]
  dsimp only [REG_POLINV, REG_CONFIG, REG_OUTPUT]

/-- V44.4: chips absent. -/
theorem test_pcheck_absent : (let t := ended .pcheck (panelCheck P0) { held 450 with wasAlive := true }
    t.res == 0x0000 && !t.wasAlive && t.status == 0x00 && durationBetween (held 450) t == 425) = true := by decide +kernel

/-- V44.3, the second call with chip 2 present: the test bit is toggled, no initialisation. -/
theorem test_pcheck_present : (let s := { held 450 with wasAlive := true, chips := [chip22] }
    let t := ended .pcheck (panelCheck P0) s
    t.res == 0x0001 && t.wasAlive && t.status == 0x0C && durationBetween s t == 425 &&
    t.chips.map Chip.inv == [0x10]) = true := by decide +kernel

/-- V44.5, the rows of the table. -/
theorem test_pack_buttons : ([(0x60, 0x01, 0x07), (0x00, 0x00, 0x00), (0x20, 0x00, 0x01), (0x40, 0x00, 0x02),
    (0x00, 0x01, 0x04), (0x00, 0x08, 0x08), (0x00, 0x40, 0x10), (0x60, 0x49, 0x1F), (0x9F, 0xB6, 0x00),
    (0xFF, 0xFF, 0x1F)].all fun (r : Byte × Byte × Mask5) => packButtons r.1 r.2.1 == r.2.2) = true := by decide

/-- V44.6. -/
theorem test_pbuttons : (let s := { held 332 with chips := [{ Chip.fresh 0x20 0xFF with out := 0, cfg := 0x6F },
      { Chip.fresh 0x22 0xFF with out := 0, cfg := 0x79 }] }
    let t := ended .pbuttons (panelButtons P0) s
    wireFrames s t == [.start, A 0x40, A 0x00, .start, A 0x41, N 0x6F, .stop,
      .start, A 0x44, A 0x00, .start, A 0x45, N 0x79, .stop] && t.res == 0x001F && !t.owned) = true := by decide +kernel

/-- V44.7, the rows of the table. -/
theorem test_pack_knob : ([(0x6A, 0x3C, 0x3CA), (0x00, 0x00, 0x000), (0xFF, 0xFF, 0xFFF), (0xF0, 0x00, 0x000),
    (0x0F, 0x00, 0x00F), (0x00, 0x01, 0x010), (0x00, 0x80, 0x800)].all
    fun (r : Byte × Byte × BitVec 12) => packKnob r.1 r.2.1 == r.2.2) = true := by decide

/-- V44.7, its first row on the bus. -/
theorem test_pknob : (let s := { held 332 with chips := [Chip.fresh 0x20 0x6A, Chip.fresh 0x21 0x3C] }
    let t := ended .pknob (panelKnob P0) s
    t.res == 0x03CA && durationBetween s t == 310) = true := by decide +kernel

/-- V44.9, the values of all 32 masks. -/
theorem test_led_outputs :
    (List.range 8).map (fun m => ledOutput 0 (BitVec.ofNat 5 m)) = [0x00, 0x10, 0x80, 0x90, 0x00, 0x10, 0x80, 0x90] ∧
    (List.range 8).map (fun m => ledOutput 2 (BitVec.ofNat 5 (4 * m))) =
      [0x00, 0x02, 0x04, 0x06, 0x80, 0x82, 0x84, 0x86] := by decide

/-- V44.8. -/
theorem test_pleds : (let s := { held 236 with chips := [Chip.fresh 0x20 0xFF, chip22] }
    let t := ended (.pleds 0b10101) (panelLeds P0 0b10101) s
    wireFrames s t == [.start, A 0x40, A 0x01, A 0x10, .stop, .start, A 0x44, A 0x01, A 0x82, .stop] &&
    t.chips.map Chip.out == [0x10, 0x82] && durationBetween s t == 230) = true := by decide +kernel

/-- V44.10: the mask written at each count. -/
theorem test_tick_mask : (List.range 10).map (fun c => tickMask P0 c 0b00100) =
    [0x1F, 0x1F, 4, 4, 4, 4, 4, 4, 0, 0] := by decide

/-- V44.10, call 10. -/
theorem test_pledtick_wraps : (let s := { held 236 with pwmCnt := 9 }
    let t := ended (.pledtick 4) (panelLedTick P0 4) s
    masterFrames s t == [.start, N 0x40, N 0x01, N 0x00, .stop, .start, N 0x44, N 0x01, N 0x00, .stop] &&
    t.pwmCnt == 0) = true := by decide +kernel

/-- V44.11. -/
theorem test_panel_refused : ([.pinit, .pcheck, .pbuttons, .pknob, .pleds 1, .pledtick 1].all fun i =>
    gives (exec i (owning 0)) fun t => t.status == 0x32 && t.pwmCnt == 0) = true := by decide +kernel

/-! ### Wire rows (30_encoding.md R84, R85) -/

theorem test_wire_rows : ([(.wireAddrWrite 0x22, 0x44), (.wireAddrRead 0x22, 0x45), (.regInput, 0x00), (.regOutput, 0x01),
    (.regPolinv, 0x02), (.regConfig, 0x03)].all fun (r : Instr × Byte) =>
    gives (exec r.1 (inFrame 37 false)) fun t =>
      framesFrom (false, false) [] (latchWave (traceSince (inFrame 37 false) t)) == [N r.2]) = true := by decide +kernel

/-! ### Refusals, reset and the host's moves -/

/-- V60.1 and V60.2: the latch is sticky. -/
theorem test_latch : gives (exec .start State.reset) (fun t => t.status == 0x20 &&
    gives (exec .construct t) fun u => u.status == 0x20 && !u.owned) = true := by decide +kernel

/-- An illegal word from the host (vectors V30): `STATUS` = 0x12. -/
theorem test_illegal_word : gives (step { owning 0 with inputs := [.writeCmd 0x10800000] }) (fun t =>
    t.status == 0x12 && t.inputs.isEmpty) = true := by decide +kernel

/-- A reset inside a command (U19): the block is in the reset state, and the chip still awaits the rest of its byte. -/
theorem test_reset_inside : gives (step { owning 118 with chips := [chip22], inputs := [.writeCmdThenReset 0x14220379 20] })
    (fun t => t.status == 0 && t.sclMode == .input && t.trace.length == 20 && t.chips.map Chip.cfg == [0xFF]) = true := by
  decide +kernel

/-- R270 and R63: reset leaves the chips; power does not. -/
theorem test_reset_keeps_chips : gives (step { owning 0 with chips := [{ chip22 with cfg := 0x79 }], inputs := [.reset] })
    (fun t => !t.owned && t.chips.map Chip.cfg == [0x79]) = true := by decide +kernel

theorem test_chip_power : gives (step { owning 0 with chips := [{ chip22 with cfg := 0x79 }], inputs := [.environment (.chipPower 0x22 true)] })
    (fun t => t.owned && t.chips.map Chip.cfg == [0xFF]) = true := by decide +kernel

/-- R11: the chip addressed by a WBYTE acknowledges it, unless it loses power (R62) between two of its micro-operations. -/
theorem test_environment_between : (
    let chip : Chip := { chip22 with phase := .address, seenScl := false, seenSda := false }
    let s := { inFrame 37 false with chips := [chip] }
    gives (exec (.wbyte 0x44) s) (fun t => t.ackf && t.chips.map Chip.powered == [true]) &&
    gives (exec (.wbyte 0x44) { s with envActs := List.replicate 50 [] ++ [[.chipPower 0x22 false]] ++ List.replicate 13 [] })
      (fun t => !t.ackf && t.chips.map Chip.powered == [false])) = true := by decide +kernel

/-- U4: "the block's own state after it is defined". -/
theorem test_destroy_low_latch : gives (exec .destroy (inFrame 0 false)) (fun t =>
    t.status == 0x00 && !t.sclOut && !t.sdaOut && t.upc == .idle) = true := by decide +kernel

/-! ### Witnesses: for each obligation with hypotheses, a state and operands that meet them all -/

theorem levelAt_of_script {s : State} {k n : Nat} (hs : s.envScript = List.replicate k ⟨true, true⟩) (h : n < k) :
    s.levelAt n = ⟨true, true⟩ := by
  simp [State.levelAt, hs, h]

theorem clockFree {s : State} {k m : Nat} (hs : s.envScript = List.replicate k ⟨true, true⟩) (h : m ≤ k) :
    ClockFree s m := fun n hn => by rw [levelAt_of_script hs (Nat.lt_of_lt_of_le hn h)]

theorem dataFree {s : State} {k n : Nat} (hs : s.envScript = List.replicate k ⟨true, true⟩) (h : n < k) :
    DataFree s n := by rw [DataFree, levelAt_of_script hs h]

theorem writeFree {s : State} {k o n : Nat} (hs : s.envScript = List.replicate k ⟨true, true⟩)
    (h : o + writeDraws n ≤ k) : WriteFree s o n := by
  unfold writeDraws at h
  exact ⟨dataFree hs (by omega), dataFree hs (by omega)⟩

theorem readFree {s : State} {k o n : Nat} (hs : s.envScript = List.replicate k ⟨true, true⟩)
    (h : o + readDraws n ≤ k) : ReadFree s o n := by
  unfold readDraws at h
  exact ⟨dataFree hs (by omega), dataFree hs (by omega)⟩

theorem writeThenReadFree {s : State} {k o m n : Nat} (hs : s.envScript = List.replicate k ⟨true, true⟩)
    (h : o + writeThenReadDraws m n ≤ k) : WriteThenReadFree s o m n := by
  unfold writeThenReadDraws at h
  exact ⟨dataFree hs (by omega), dataFree hs (by omega), dataFree hs (by omega)⟩

theorem held_ready (k : Nat) : (held k).Ready ∧ (held k).owned = false ∧ NoChips (held k) :=
  ⟨⟨rfl, rfl, rfl, rfl⟩, rfl, rfl⟩

theorem owning_ready (k : Nat) : (owning k).Ready ∧ (owning k).owned = true ∧ NoChips (owning k) ∧ (owning k).BusIdle :=
  ⟨⟨rfl, rfl, rfl, rfl⟩, rfl, rfl, rfl, rfl⟩

theorem inFrame_ready (k : Nat) (d : Bool) : (inFrame k d).Ready ∧ (inFrame k d).owned = true ∧ NoChips (inFrame k d) :=
  ⟨⟨rfl, rfl, rfl, rfl⟩, rfl, rfl⟩

theorem held_script (k : Nat) : (held k).envScript = List.replicate k ⟨true, true⟩ := rfl
theorem owning_script (k : Nat) : (owning k).envScript = List.replicate k ⟨true, true⟩ := rfl
theorem inFrame_script (k : Nat) (d : Bool) : (inFrame k d).envScript = List.replicate k ⟨true, true⟩ := rfl

/-- The reset state with moves to come. -/
def facing (moves : List Input) : State := { State.reset with inputs := moves }

/-- The chip offset beyond every address, and the least one. -/
theorem expBase_high : 0x7F < Config.params.expBase + 255 := by
  have h := Nat.zero_le Config.params.expBase
  omega

theorem expBase_low : Config.params.expBase + 2 ≤ 0x7F := by
  have h := Config.expBase_le
  omega

/-! #### Encoding and steps -/

theorem witness_DecodeOfEncode : (Instr.writethenread 0x7F 255 255).wf = true ∧ (Instr.xread 0).wf = true := by decide

theorem witness_WordSpellsCommandIffRowMatches : ∃ r ∈ commandTable, (0x14220379 : CmdWord) &&& r.mask = r.pattern ∧
    decodeCommand 0x14220379 = .ok (.writereg 0x22 0x03 0x79) :=
  ⟨⟨"WRITEREG", 0x14000000, 0xFF800000⟩, by decide, by decide, rfl⟩

theorem witness_EncodeOfDecode : decode (.command 0x12220103) = .ok (.writethenread 0x22 1 3) ∧
    decode (.wireByte .address 0xFF) = .ok (.wireAddrRead 0x7F) := ⟨rfl, rfl⟩

theorem witness_StepRunsDecodedInstruction :
    (let s := facing [.writeCmd 0x02000000]
     s.hung = false ∧ s.upc = .idle ∧ s.inputs = [.writeCmd 0x02000000] ∧ decodeCommand 0x02000000 = .ok .construct) ∧
    (let s := facing [.sendByte .pointer 3]
     s.hung = false ∧ s.upc = .idle ∧ s.inputs = [.sendByte .pointer 3] ∧ decodeWireByte .pointer 3 = .ok .regConfig) :=
  ⟨⟨rfl, rfl, rfl, rfl⟩, rfl, rfl, rfl, rfl⟩

theorem witness_FetchWordIsRunNext : State.reset.hung = false ∧ State.reset.upc = .idle ∧
    decodeTableWord 32 0x02000000 = some .construct ∧ decodeTableWord 8 0x45 = some (.wireAddrRead 0x22) := by decide

theorem witness_StatusIsView :
    let s := facing [.writeStatus 0xFF]
    s.hung = false ∧ s.upc = .idle ∧ s.inputs = [.writeStatus 0xFF] := ⟨rfl, rfl, rfl⟩

theorem witness_TxbufWriteIsReadBack :
    let s := facing [.writeTxbuf 255 0x5A]
    s.hung = false ∧ s.upc = .idle ∧ s.inputs = [.writeTxbuf 255 0x5A] := ⟨rfl, rfl, rfl⟩

theorem witness_HostHasNoMoveWhileBusy :
    ∀ m ∈ [Input.writeCmd 0, .writeCmdThenReset 0 1, .writeTxbuf 0 0, .writeStatus 0, .readRes, .readStatus, .readRxbuf 0],
      let s := { facing [m] with upc := .at .start 3 }
      s.busy = true ∧ m.isHostMove = true ∧ s.inputs = [m] := by decide

theorem witness_HostReadsSpecialRegisters :
    ∀ m ∈ [Input.readRes, .readStatus, .readRxbuf 255],
      let s := { facing [m] with rxbuf := [(255, 0x5A)] }
      s.hung = false ∧ s.upc = .idle ∧ s.inputs = [m] ∧ readCell s.rxbuf 255 = some 0x5A := by decide

theorem witness_ResetMoveResetsBlockOnly :
    let s := { owning 0 with inputs := [.reset], chips := [chip22] }
    s.inputs = [.reset] ∧ ∀ c ∈ s.chips, c.seenScl = s.sclLine := by decide

theorem witness_ResetInsideCommandResetsBlock :
    let s := facing [.writeCmdThenReset 0x31000000 0]
    s.hung = false ∧ s.upc = .idle ∧ s.inputs = [.writeCmdThenReset 0x31000000 0] := ⟨rfl, rfl, rfl⟩

/-! #### Refusals -/

theorem witness_IllegalCommandRefused :
    (let s := facing [.writeCmd 0x34000020]
     s.Ready ∧ s.inputs = [.writeCmd 0x34000020] ∧ ∀ r ∈ commandTable, (0x34000020 : CmdWord) &&& r.mask ≠ r.pattern) ∧
    (let s := facing [.writeCmd 0x02000000]
     s.Ready ∧ s.inputs = [.writeCmd 0x02000000] ∧
       (∃ r ∈ commandTable, (0x02000000 : CmdWord) &&& r.mask = r.pattern) ∧ ∃ t, step s = .next t) :=
  ⟨by decide, by decide, rfl, by decide, _, rfl⟩

theorem witness_NotOwnedRefused : State.reset.Ready ∧ State.reset.owned = false ∧ Instr.start.needsMaster = true ∧
    Instr.start.wireByteValue = none := by decide

theorem witness_AlreadyOwnedRefused :
    (owning 0).Ready ∧ (owning 0).owned = true ∧ Instr.pcheck.makesMaster = true := by decide

theorem witness_BadAddressRefused :
    ((owning 0).Ready ∧ (owning 0).owned = true ∧ (Instr.xread 255).chipOffset = some 255 ∧
      0x7F < Config.params.expBase + 255) ∧
    (∃ t, exec (.xread 255) (owning 0) = .next t ∧ t.err = 4) ∧ Config.params.expBase + 2 ≤ 0x7F ∧
    ((0x10800000 : CmdWord).extractLsb' 28 4).toNat = 1 ∧ (0x10800000 : CmdWord).getLsbD 23 = true := by
  refine ⟨⟨(owning_ready 0).1, rfl, rfl, expBase_high⟩, ?_, expBase_low, by decide, by decide⟩
  have h : checkAddr Config.params 255 = some .badAddr := if_pos expBase_high
  have ho : ownershipOf (.xread 255) (owning 0) = none := by decide
  have hp : operandsOf (.xread 255) = some .badAddr := by rw [operandsOf, h]
  refine ⟨refused .badAddr (owning 0), ?_, rfl⟩
  rw [exec_eq, runCommand_refused (owning_ready 0).1 (.inr ⟨ho, hp⟩)]

theorem witness_BadCountRefused :
    ((owning 0).Ready ∧ (owning 0).owned = true ∧ (Instr.writethenread 0x22 1 0).readCount = some 0) ∧
    ((owning 0).Ready ∧ (owning 0).owned = true ∧ (Instr.readbytes 0x22 0).readCount = some 0) := by decide

theorem witness_ChecksInOrder :
    (let s := { facing [.writeCmd 0x02000000] with err := 2 }
     s.hung = false ∧ s.upc = .idle ∧ s.inputs = [.writeCmd 0x02000000] ∧ s.err ≠ 0) ∧
    (let s := facing [.writeCmd 0]
     s.err = 0 ∧ ∀ i, decodeCommand 0 ≠ .ok i) ∧
    (let s := facing [.writeCmd 0x04000000]
     s.err = 0 ∧ decodeCommand 0x04000000 = .ok .start ∧ Instr.start.needsMaster = true ∧ s.owned = false) ∧
    (let s := { owning 0 with inputs := [.writeCmd 0x30000000] }
     s.err = 0 ∧ decodeCommand 0x30000000 = .ok .pinit ∧ Instr.pinit.makesMaster = true ∧ s.owned = true) ∧
    (decodeCommand 0x20FF0000 = .ok (.xread 255) ∧ (Instr.xread 255).needsMaster = true ∧
      (Instr.xread 255).chipOffset = some 255 ∧ 0x7F < Config.params.expBase + 255) ∧
    (decodeCommand 0x11220000 = .ok (.readbytes 0x22 0) ∧ (Instr.readbytes 0x22 0).readCount = some 0) ∧
    ∃ t, step (facing [.writeCmd 0]) = .next t :=
  ⟨by decide, ⟨rfl, fun _ h => nomatch h⟩, ⟨rfl, rfl, rfl, rfl⟩, ⟨rfl, rfl, rfl, rfl⟩, ⟨rfl, rfl, rfl, expBase_high⟩,
    ⟨rfl, rfl⟩, _, rfl⟩

/-! #### BUS_HANG -/

/-- Owned, with the clock held low at the first observation. -/
def stretched : State := { owning 0 with envScript := [⟨false, true⟩] }

theorem witness_QuarterHangsExactlyOnCauses :
    (stretched.hung = false ∧ stretched.budget = none ∧ (quarter .plain stretched).hung = true) ∧
    ((owning 1).hung = false ∧ (owning 1).budget = none ∧ (quarter .stopThird (owning 1)).hung = false) := by decide

theorem witness_BusHangCausesInCommands :
    (stretched.Ready ∧ stretched.owned = true ∧ stretched.sclOut = true ∧ (stretched.levelAt 0).scl = false) ∧
    (let s := { owning 0 with envScript := [⟨true, true⟩, ⟨true, false⟩] }
     s.Ready ∧ s.owned = true ∧ NoChips s ∧ ClockFree s 2 ∧ (s.levelAt 1).sda = false) ∧
    (let s := { owning 0 with envScript := [⟨true, true⟩, ⟨true, true⟩, ⟨true, false⟩] }
     s.Ready ∧ s.owned = true ∧ NoChips s ∧ ClockFree s 3 ∧ (s.levelAt 2).sda = false) := by decide

theorem witness_HungCommandWritesNoResult : stretched.Ready ∧
    ∃ t, exec .qdelay stretched = .next t ∧ t.hung = true := by
  refine ⟨by decide, ?_⟩
  exact gives_next (p := fun t => t.hung) (by decide +kernel)

theorem witness_NothingReturnsButReset :
    (let s := { State.reset with err := 5 }
     s.hung = false ∧ s.upc = .idle ∧ s.err ≠ 0) ∧
    (∃ t, { facing [.environment (.otherDevices ⟨true, false⟩)] with hung := true, upc := .at .stop 5 }.hung = true ∧
      step { facing [.environment (.otherDevices ⟨true, false⟩)] with hung := true, upc := .at .stop 5 } = .next t ∧
      (Input.environment (.otherDevices ⟨true, false⟩)).resets = false) ∧
    (∃ t, { facing [.writeCmd 0x02000000] with err := 5 }.err ≠ 0 ∧
      step { facing [.writeCmd 0x02000000] with err := 5 } = .next t) :=
  ⟨by decide, ⟨_, rfl, rfl, rfl⟩, ⟨_, by decide, rfl⟩⟩

/-! #### Completion -/

theorem witness_QdelayCompletes :
    ((owning 1).Ready ∧ (owning 1).owned = true ∧ (owning 1).sclOut = true ∧ ((owning 1).levelAt 0).scl = true) ∧
    ((held 0).Ready ∧ (held 0).owned = false) := by decide

theorem witness_ConstructCompletes : State.reset.Ready ∧ State.reset.owned = false := by decide

theorem witness_DestroyCompletes : (owning 0).Ready ∧ (owning 0).owned = true := by decide

theorem witness_StartCompletes : (owning 4).Ready ∧ (owning 4).owned = true ∧ NoChips (owning 4) ∧
    ClockFree (owning 4) 4 ∧ DataFree (owning 4) 1 := by decide

theorem witness_StopCompletes : (inFrame 3 true).Ready ∧ (inFrame 3 true).owned = true ∧ NoChips (inFrame 3 true) ∧
    ClockFree (inFrame 3 true) 3 ∧ DataFree (inFrame 3 true) 2 := by decide

theorem witness_WbitCompletes : (inFrame 4 true).Ready ∧ (inFrame 4 true).owned = true ∧ NoChips (inFrame 4 true) ∧
    ClockFree (inFrame 4 true) 4 := by decide

theorem witness_RbitCompletes : (inFrame 5 true).Ready ∧ (inFrame 5 true).owned = true ∧ NoChips (inFrame 5 true) ∧
    ClockFree (inFrame 5 true) 5 := by decide

theorem witness_WbyteCompletes : (inFrame 37 true).Ready ∧ (inFrame 37 true).owned = true ∧
    NoChips (inFrame 37 true) ∧ ClockFree (inFrame 37 true) 37 ∧ (inFrame 37 true).sclOut = false :=
  ⟨(inFrame_ready 37 true).1, rfl, rfl, clockFree (inFrame_script 37 true) (Nat.le_refl _), rfl⟩

theorem witness_WireRowSendsItsByte : (Instr.wireAddrRead 0x7F).wireByteValue = some 0xFF ∧
    Instr.regInput.wireByteValue = some 0x00 ∧ (inFrame 37 true).Ready ∧ (inFrame 37 true).owned = true ∧
    NoChips (inFrame 37 true) ∧ ClockFree (inFrame 37 true) 37 ∧ State.reset.Ready ∧ State.reset.owned = false :=
  ⟨by decide, rfl, (inFrame_ready 37 true).1, rfl, rfl, clockFree (inFrame_script 37 true) (Nat.le_refl _),
    (held_ready 0).1, rfl⟩

theorem witness_RbyteCompletes : (inFrame 44 true).Ready ∧ (inFrame 44 true).owned = true ∧
    NoChips (inFrame 44 true) ∧ ClockFree (inFrame 44 true) 44 ∧ (inFrame 44 true).sclOut = false :=
  ⟨(inFrame_ready 44 true).1, rfl, rfl, clockFree (inFrame_script 44 true) (Nat.le_refl _), rfl⟩

theorem witness_WritebytesCompletes (n : Nat) : let s := owning (writeDraws n)
    s.Ready ∧ s.owned = true ∧ NoChips s ∧ ClockFree s (writeDraws n) ∧ WriteFree s 0 n ∧ s.BusIdle :=
  ⟨(owning_ready _).1, rfl, rfl, clockFree (owning_script _) (Nat.le_refl _),
    writeFree (owning_script _) (by omega), rfl, rfl⟩

theorem witness_ReadbytesCompletes : let s := owning (readDraws 255)
    s.Ready ∧ s.owned = true ∧ 0 < 255 ∧ 255 < 256 ∧ NoChips s ∧ ClockFree s (readDraws 255) ∧ ReadFree s 0 255 ∧
      s.BusIdle :=
  ⟨(owning_ready _).1, rfl, by decide, by decide, rfl, clockFree (owning_script _) (Nat.le_refl _),
    readFree (owning_script _) (by omega), rfl, rfl⟩

theorem witness_WritethenreadCompletes (wn : Nat) : let s := owning (writeThenReadDraws wn 1)
    s.Ready ∧ s.owned = true ∧ 0 < 1 ∧ 1 < 256 ∧ NoChips s ∧ ClockFree s (writeThenReadDraws wn 1) ∧
      WriteThenReadFree s 0 wn 1 ∧ s.BusIdle :=
  ⟨(owning_ready _).1, rfl, by decide, by decide, rfl, clockFree (owning_script _) (Nat.le_refl _),
    writeThenReadFree (owning_script _) (by omega), rfl, rfl⟩

/-- For READREG, XREAD and XGETINV. -/
theorem witness_ReadregCompletes : (owning 166).Ready ∧ (owning 166).owned = true ∧ NoChips (owning 166) ∧
    ClockFree (owning 166) 166 ∧ WriteThenReadFree (owning 166) 0 1 1 ∧ (owning 166).BusIdle :=
  ⟨(owning_ready _).1, rfl, rfl, clockFree (owning_script _) (Nat.le_refl _),
    writeThenReadFree (owning_script _) (by decide), rfl, rfl⟩

/-- For WRITEREG, XWRITE, XCONFIG and XSETINV. -/
theorem witness_WriteregCompletes : (owning 118).Ready ∧ (owning 118).owned = true ∧ NoChips (owning 118) ∧
    ClockFree (owning 118) 118 ∧ WriteFree (owning 118) 0 2 ∧ (owning 118).BusIdle :=
  ⟨(owning_ready _).1, rfl, rfl, clockFree (owning_script _) (Nat.le_refl _),
    writeFree (owning_script _) (by decide), rfl, rfl⟩

theorem witness_ExpanderReadsComplete : Config.params.expBase + 2 ≤ 0x7F ∧ (owning 166).Ready ∧
    (owning 166).owned = true ∧ NoChips (owning 166) ∧ ClockFree (owning 166) 166 ∧
    WriteThenReadFree (owning 166) 0 1 1 :=
  ⟨expBase_low, (owning_ready _).1, rfl, rfl, clockFree (owning_script _) (Nat.le_refl _),
    writeThenReadFree (owning_script _) (by decide)⟩

theorem witness_ExpanderWritesComplete : Config.params.expBase + 2 ≤ 0x7F ∧ (owning 118).Ready ∧
    (owning 118).owned = true ∧ NoChips (owning 118) ∧ ClockFree (owning 118) 118 ∧ WriteFree (owning 118) 0 2 :=
  ⟨expBase_low, (owning_ready _).1, rfl, rfl, clockFree (owning_script _) (Nat.le_refl _),
    writeFree (owning_script _) (by decide)⟩

theorem witness_PinitCompletes : (held 944).Ready ∧ (held 944).owned = false ∧ NoChips (held 944) ∧
    ClockFree (held 944) 944 ∧ ∀ k < 8, WriteFree (held 944) (118 * k) 2 :=
  ⟨(held_ready _).1, rfl, rfl, clockFree (held_script _) (Nat.le_refl _),
    fun k hk => writeFree (held_script _) (by unfold writeDraws; omega)⟩

/-- No device: not alive, no initialisation. -/
theorem witness_PcheckCompletes : let s := held 1394
    s.Ready ∧ s.owned = false ∧ NoChips s ∧ ClockFree s 1394 ∧ WriteThenReadFree s 0 1 1 ∧ WriteFree s 166 2 ∧
      WriteThenReadFree s 284 1 1 ∧ ∀ k < 8, WriteFree s (450 + 118 * k) 2 :=
  ⟨(held_ready _).1, rfl, rfl, clockFree (held_script _) (Nat.le_refl _),
    writeThenReadFree (held_script _) (by decide), writeFree (held_script _) (by decide),
    writeThenReadFree (held_script _) (by decide),
    fun k hk => writeFree (held_script _) (by unfold writeDraws; omega)⟩

/-- A bus on which the data line is low at one observation. -/
def lowAt (low rest : Nat) : List Levels :=
  List.replicate low ⟨true, true⟩ ++ (⟨true, false⟩ :: List.replicate rest ⟨true, true⟩)

theorem levelAt_lowAt {s : State} {low rest n : Nat} (hs : s.envScript = lowAt low rest) (h : n < low + 1 + rest) :
    s.levelAt n = ⟨true, n != low⟩ := by
  unfold State.levelAt
  rw [hs, lowAt]
  rcases Nat.lt_trichotomy n low with h1 | h1 | h1
  · rw [List.getElem?_append_left (by simpa using h1), List.getElem?_replicate, if_pos h1]
    simp [Nat.ne_of_lt h1]
  · subst h1
    simp
  · obtain ⟨k, rfl⟩ : ∃ k, n = low + 1 + k := ⟨n - (low + 1), by omega⟩
    rw [List.getElem?_append_right (by simp; omega), List.length_replicate, show low + 1 + k - low = k + 1 by omega,
      List.getElem?_cons_succ, List.getElem?_replicate, if_pos (by omega)]
    simp
    omega

/-- A bus that answers the probe's second read with bit 4 or bit 5 low: observation 421 or 416. -/
def answering (low : Nat) : State := { State.reset with envScript := lowAt low 1000 }

theorem levelAt_answering {low n : Nat} (h : n < low + 1 + 1000) : (answering low).levelAt n = ⟨true, n != low⟩ :=
  levelAt_lowAt (rest := 1000) rfl h

/-- A panel that answers: alive, and initialised since it was not alive before. -/
theorem witness_PcheckCompletes_alive : ∃ s : State, s.Ready ∧ s.owned = false ∧ NoChips s ∧ s.wasAlive = false ∧
    byteAt s 403 = byteAt s 119 ^^^ Config.params.aliveTestMask ∧ ClockFree s 1394 ∧ WriteThenReadFree s 0 1 1 ∧
    WriteFree s 166 2 ∧ WriteThenReadFree s 284 1 1 ∧ ∀ k < 8, WriteFree s (450 + 118 * k) 2 := by
  have key : ∀ low, (low = 416 ∨ low = 421) → ClockFree (answering low) 1394 ∧
      ∀ n < 1394, n ≠ 416 → n ≠ 421 → DataFree (answering low) n := by
    refine fun low h => ⟨fun n hn => ?_, fun n hn h1 h2 => ?_⟩
    · rw [levelAt_answering (by omega)]
    · rw [DataFree, levelAt_answering (by omega)]
      simp
      omega
  have rest : ∀ low, (low = 416 ∨ low = 421) → WriteThenReadFree (answering low) 0 1 1 ∧
      WriteFree (answering low) 166 2 ∧ WriteThenReadFree (answering low) 284 1 1 ∧
      ∀ k < 8, WriteFree (answering low) (450 + 118 * k) 2 := by
    intro low h
    have d := (key low h).2
    exact ⟨⟨d _ (by decide) (by decide) (by decide), d _ (by decide) (by decide) (by decide),
      d _ (by decide) (by decide) (by decide)⟩, ⟨d _ (by decide) (by decide) (by decide),
      d _ (by decide) (by decide) (by decide)⟩, ⟨d _ (by decide) (by decide) (by decide),
      d _ (by decide) (by decide) (by decide), d _ (by decide) (by decide) (by decide)⟩,
      fun k hk => ⟨d _ (by omega) (by omega) (by omega), d _ (by omega) (by omega) (by omega)⟩⟩
  rcases Config.aliveTestMask_cases with h | h
  · obtain ⟨c, -⟩ := key 421 (.inr rfl)
    refine ⟨answering 421, ⟨rfl, rfl, rfl, rfl⟩, rfl, rfl, rfl, ?_, c, rest 421 (.inr rfl)⟩
    rw [h]
    decide +kernel
  · obtain ⟨c, -⟩ := key 416 (.inl rfl)
    refine ⟨answering 416, ⟨rfl, rfl, rfl, rfl⟩, rfl, rfl, rfl, ?_, c, rest 416 (.inl rfl)⟩
    rw [h]
    decide +kernel

/-- For PBUTTONS and PKNOB. -/
theorem witness_PbuttonsCompletes : (held 332).Ready ∧ (held 332).owned = false ∧ NoChips (held 332) ∧
    ClockFree (held 332) 332 ∧ WriteThenReadFree (held 332) 0 1 1 ∧ WriteThenReadFree (held 332) 166 1 1 :=
  ⟨(held_ready _).1, rfl, rfl, clockFree (held_script _) (Nat.le_refl _),
    writeThenReadFree (held_script _) (by decide), writeThenReadFree (held_script _) (by decide)⟩

theorem witness_PknobCompletes : (held 332).Ready ∧ (held 332).owned = false ∧ NoChips (held 332) ∧
    ClockFree (held 332) 332 ∧ WriteThenReadFree (held 332) 0 1 1 ∧ WriteThenReadFree (held 332) 166 1 1 :=
  witness_PbuttonsCompletes

theorem witness_PledsCompletes : (held 236).Ready ∧ (held 236).owned = false ∧ NoChips (held 236) ∧
    ClockFree (held 236) 236 ∧ WriteFree (held 236) 0 2 ∧ WriteFree (held 236) 118 2 :=
  ⟨(held_ready _).1, rfl, rfl, clockFree (held_script _) (Nat.le_refl _),
    writeFree (held_script _) (by decide), writeFree (held_script _) (by decide)⟩

theorem witness_PledtickCompletes : (held 236).Ready ∧ (held 236).owned = false ∧ NoChips (held 236) ∧
    ClockFree (held 236) 236 ∧ WriteFree (held 236) 0 2 ∧ WriteFree (held 236) 118 2 := witness_PledsCompletes

/-! #### Rules about the whole machine -/

theorem witness_ResWrittenOnlyByReturningCommands :
    (∃ t, exec .construct State.reset = .next t ∧ Instr.construct.writesRes = false) ∧
    (∃ t, exec .rbit (inFrame 5 true) = .next t ∧ t.res = 1) ∧ (∃ t, exec .pcheck (held 450) = .next t) ∧
    (∃ t, exec .pbuttons (held 332) = .next t) ∧ (∃ t, exec .pknob (held 332) = .next t) ∧
    (∃ t, exec (.rbyte true) (inFrame 44 true) = .next t) ∧ (∃ t, exec (.readreg 0x22 0) (owning 166) = .next t) := by
  refine ⟨⟨_, rfl, rfl⟩, ?_, ⟨_, rfl⟩, ⟨_, rfl⟩, ⟨_, rfl⟩, ⟨_, rfl⟩, ⟨_, rfl⟩⟩
  obtain ⟨t, h, h'⟩ := gives_next (o := exec .rbit (inFrame 5 true)) (p := fun t => t.res == 1) (by decide +kernel)
  exact ⟨t, h, by simpa using h'⟩

theorem witness_AckfWrittenOnlyByByteWrites :
    ∃ t, exec .construct State.reset = .next t ∧ Instr.construct.sendsNoByte = true := ⟨_, rfl, rfl⟩

theorem witness_PersistentStateWrittenOnlyByItsCommands : ∃ t, exec .construct State.reset = .next t ∧
    Instr.construct ≠ .pcheck ∧ ∀ m, Instr.construct ≠ .pledtick m := ⟨_, rfl, by decide, by decide⟩

theorem witness_OwnershipAfterCommand :
    (∃ t, exec .construct State.reset = .next t ∧ t.hung = false ∧ t.err = 0 ∧ t.owned = true) ∧
    (∃ t, exec (.pleds 0) (held 236) = .next t ∧ t.hung = false ∧ t.err = 0 ∧ t.owned = false) ∧
    (∃ t, exec .start (owning 4) = .next t ∧ t.hung = false ∧ t.err = 0 ∧ t.owned = true) := by
  refine ⟨?_, ?_, ?_⟩
  · obtain ⟨t, h, h'⟩ := gives_next (o := exec .construct State.reset)
      (p := fun t => t.hung == false && t.err == 0 && t.owned == true) (by decide +kernel)
    exact ⟨t, h, by simpa [and_assoc] using h'⟩
  · obtain ⟨t, h, h'⟩ := gives_next (o := exec (.pleds 0) (held 236))
      (p := fun t => t.hung == false && t.err == 0 && t.owned == false) (by decide +kernel)
    exact ⟨t, h, by simpa [and_assoc] using h'⟩
  · obtain ⟨t, h, h'⟩ := gives_next (o := exec .start (owning 4))
      (p := fun t => t.hung == false && t.err == 0 && t.owned == true) (by decide +kernel)
    exact ⟨t, h, by simpa [and_assoc] using h'⟩

theorem witness_DurationsAreTheTable :
    (∃ t, exec .start State.reset = .next t ∧ t.hung = false ∧ t.err ≠ 0) ∧
    (∃ t, exec .start (owning 4) = .next t ∧ t.hung = false ∧ t.err = 0 ∧ quartersOf .start = some 4) ∧
    (∃ t, exec .pcheck (held 450) = .next t) := by
  refine ⟨⟨_, rfl, rfl, by decide⟩, ?_, ⟨_, rfl⟩⟩
  obtain ⟨t, h, h'⟩ := gives_next (o := exec .start (owning 4)) (p := fun t => t.hung == false && t.err == 0)
    (by decide +kernel)
  obtain ⟨h1, h2⟩ : t.hung = false ∧ t.err = 0 := by simpa using h'
  exact ⟨t, h, h1, h2, rfl⟩

/-- One byte sent to a device that acknowledges and to none. -/
theorem witness_WaveformDoesNotDependOnEnvironment :
    let s := inFrame 37 true
    let s' := { inFrame 0 true with envScript := List.replicate 37 ⟨true, false⟩ }
    s.Ready ∧ s'.Ready ∧ SameLatches s s' ∧ SameModes s s' ∧ s'.txbuf = s.txbuf ∧ s'.pwmCnt = s.pwmCnt ∧
    (∃ t, exec (.wbyte 0x44) s = .next t ∧ t.hung = false ∧ t.ackf = false) ∧
    (∃ t, exec (.wbyte 0x44) s' = .next t ∧ t.hung = false ∧ t.ackf = true) := by
  refine ⟨by decide, by decide, ⟨rfl, rfl⟩, ⟨rfl, rfl⟩, rfl, rfl, ?_, ?_⟩
  · obtain ⟨t, h, h'⟩ := gives_next (o := exec (.wbyte 0x44) (inFrame 37 true))
      (p := fun t => t.hung == false && t.ackf == false) (by decide +kernel)
    exact ⟨t, h, by simpa using h'⟩
  · obtain ⟨t, h, h'⟩ := gives_next
      (o := exec (.wbyte 0x44) { inFrame 0 true with envScript := List.replicate 37 ⟨true, false⟩ })
      (p := fun t => t.hung == false && t.ackf == true) (by decide +kernel)
    exact ⟨t, h, by simpa using h'⟩

theorem witness_NothingHangsOnFreeBus : (held 1394).hung = false ∧ (held 1394).upc = .idle ∧ (held 1394).budget = none ∧
    NoChips (held 1394) ∧ ∀ n < observationsOf .pcheck, (held 1394).levelAt n = ⟨true, true⟩ :=
  ⟨rfl, rfl, rfl, rfl, fun _ hn => levelAt_of_script (held_script _) hn⟩

/-- Each clause of the statement: the longest read, a byte returned in `RES`, a bit, the panel reads, the probe. -/
theorem witness_AbsentDeviceReadsOnes :
    (∀ i ∈ [Instr.writethenread 0x22 255 255, .readbytes 0x22 255, .readreg 0x22 0, .rbyte true, .rbit, .wbyte 0x44,
        .xread 2, .regInput],
      let s := owning (observationsOf i)
      s.Ready ∧ NoChips s ∧ Accepted i s ∧ i ≠ .pcheck ∧ ∀ n < observationsOf i, s.levelAt n = ⟨true, true⟩) ∧
    (∀ i ∈ [Instr.construct, .pbuttons, .pknob, .pinit],
      let s := held (observationsOf i)
      s.Ready ∧ NoChips s ∧ Accepted i s ∧ i ≠ .pcheck ∧ ∀ n < observationsOf i, s.levelAt n = ⟨true, true⟩) ∧
    (let s := held 450
     s.Ready ∧ NoChips s ∧ Accepted .pcheck s ∧ ∀ n < 450, s.levelAt n = ⟨true, true⟩) := by
  refine ⟨fun i hi => ⟨(owning_ready _).1, rfl, ⟨fun _ => rfl, fun h => ?_, fun chip h => ?_, fun h => ?_⟩, ?_,
      fun _ hn => levelAt_of_script (owning_script _) hn⟩,
    fun i hi => ⟨(held_ready _).1, rfl, ⟨fun h => ?_, fun _ => rfl, fun chip h => ?_, fun h => ?_⟩, ?_,
      fun _ hn => levelAt_of_script (held_script _) hn⟩,
    (held_ready _).1, rfl, ⟨fun h => (by cases h), fun _ => rfl, fun chip h => (by cases h), fun h => (by cases h)⟩,
    fun _ hn => levelAt_of_script (held_script _) hn⟩
  all_goals
    simp only [List.mem_cons, List.not_mem_nil, or_false] at hi
  all_goals
    rcases hi with rfl | rfl | rfl | rfl | rfl | rfl | rfl | rfl <;> first | (cases h; exact expBase_low) | cases h | decide

theorem witness_StepKeepsInvariant : { owning 4 with inputs := [.writeCmd 0x04000000] }.Inv ∧
    ∃ t, step { owning 4 with inputs := [.writeCmd 0x04000000] } = .next t :=
  ⟨⟨rfl, rfl, Config.pwmPeriod_pos, rfl, (by decide), rfl, (fun h => nomatch h), rfl, (by decide)⟩, _, rfl⟩

/-! #### The reference expander -/

theorem actsAt_of {s : State} {k n : Nat} (hs : s.envActs = List.replicate k []) (h : n < k) : s.actsAt n = [] := by
  simp [State.actsAt, hs, h]

theorem onlyChip {k m : Nat} (c : Chip) (h : m ≤ 2000) : OnlyChip { owning k with chips := [c] } c k m :=
  ⟨rfl, rfl, rfl, fun _ hn => levelAt_of_script (s := { owning k with chips := [c] }) rfl hn,
    fun _ hn => actsAt_of (s := { owning k with chips := [c] }) rfl (Nat.lt_of_lt_of_le hn h)⟩

theorem witness_WriteregReachesReferenceExpander : let s := { owning 118 with chips := [chip22] }
    s.Ready ∧ s.owned = true ∧ s.BusIdle ∧ OnlyChip s chip22 118 206 ∧ chip22.AtRest :=
  ⟨⟨rfl, rfl, rfl, rfl⟩, rfl, ⟨rfl, rfl⟩, onlyChip chip22 (by decide), by decide⟩

theorem witness_ReadregReadsReferenceExpander : let s := { owning 166 with chips := [chip22] }
    s.Ready ∧ s.owned = true ∧ s.BusIdle ∧ OnlyChip s chip22 166 285 ∧ chip22.AtRest :=
  ⟨⟨rfl, rfl, rfl, rfl⟩, rfl, ⟨rfl, rfl⟩, onlyChip chip22 (by decide), by decide⟩

theorem witness_ExpanderRoundTrip : let c := Chip.fresh (BitVec.ofNat 7 (Config.params.expBase + 2)) 0xA5
    let s := { owning 520 with chips := [c] }
    Config.params.expBase + 2 ≤ 0x7F ∧ c.addr = BitVec.ofNat 7 (Config.params.expBase + 2) ∧ s.Ready ∧
    s.owned = true ∧ s.BusIdle ∧ OnlyChip s c 520 903 ∧ c.AtRest :=
  ⟨expBase_low, rfl, ⟨rfl, rfl, rfl, rfl⟩, rfl, ⟨rfl, rfl⟩, onlyChip _ (by decide), rfl, rfl, rfl, rfl, rfl⟩

end Sys2Proof.Tests
end

/-! PROOFS. The family of 00_scope.md: the host's moves and `BUSY` (R12). -/

namespace Sys2Proof.Machine

/-- Each of the host's moves goes through the gate of R12, which lets it in on an idle block only. -/
theorem takeInput_of_isHostMove {m : Input} (hm : m.isHostMove = true) :
    ∃ move, ∀ s, takeInput m s = whenIdle move s := by
  cases m with
  | writeCmd | writeTxbuf | writeStatus | readRes | readStatus | readRxbuf | writeCmdThenReset =>
    exact ⟨_, fun _ => rfl⟩
  | reset | sendByte | environment => cases hm

/-- Settles O10: a host move that has a next state was made on an idle block, and taking the move off the list leaves
`BUSY` as it was. -/
theorem hostHasNoMoveWhileBusy : Obligations.HostHasNoMoveWhileBusy := by
  intro s t m rest hbusy hm hin hstep
  obtain ⟨move, hmove⟩ := takeInput_of_isHostMove hm
  rw [step_of_input hin, hmove] at hstep
  obtain ⟨-, hidle, -⟩ := whenIdle_next hstep
  exact Bool.false_ne_true (hidle.symm.trans hbusy)

end Sys2Proof.Machine

/-! PROOFS. The family of 10_state.md: the invariant, what commands write of the architectural state, `STATUS`, the
buffers and reset. -/

namespace Sys2Proof.Machine

/-! ### Moves on an idle block (R12, R21) -/

theorem takeInput_writeTxbuf (index v : Byte) (s : State) : takeInput (.writeTxbuf index v) s =
    whenIdle (fun u => .next { u with txbuf := writeCell u.txbuf index.toNat v }) s := rfl

theorem takeInput_readRes (s : State) :
    takeInput .readRes s = whenIdle (fun u => .next { u with hostData := u.res }) s := rfl

theorem takeInput_readStatus (s : State) :
    takeInput .readStatus s = whenIdle (fun u => .next { u with hostData := u.status.setWidth 16 }) s := rfl

theorem takeInput_readRxbuf (index : Byte) (s : State) : takeInput (.readRxbuf index) s =
    whenIdle (fun u => .next { u with hostData := (u.rxByte index.toNat).setWidth 16 }) s := rfl

/-- On an idle block a move that goes through the gate of R12 is taken off the list and done. -/
theorem step_of_idle {s : State} {m : Input} {rest : List Input} {move : State → Host.Outcome State Fault Refusal}
    (hh : s.hung = false) (hu : s.upc = .idle) (hin : s.inputs = m :: rest)
    (hm : ∀ u, takeInput m u = whenIdle move u) : step s = move { s with inputs := rest } := by
  have hidle : { s with inputs := rest }.busy = false := by simp [State.busy, hu]
  exact (step_of_input hin).trans ((hm _).trans (whenIdle_of_idle hh hidle))

theorem runWord_of_decode {w : CmdWord} {i : Instr} (h : decodeCommand w = .ok i) (s : State) :
    runWord w s = exec i { s with cmd := some w } := by
  simp [runWord, h]

theorem runWireByte_of_decode {p : BytePosition} {b : Byte} {i : Instr} (h : decodeWireByte p b = .ok i) (s : State) :
    runWireByte p b s = exec i s := by
  simp [runWireByte, h]

/-- Settles O6: on an idle block the move goes through, and the decoder gives the instruction. -/
theorem stepRunsDecodedInstruction : Obligations.StepRunsDecodedInstruction := by
  intro s rest i hh hu
  refine ⟨fun w hin hd => ?_, fun p b hin hd => ?_⟩
  · exact (step_of_idle hh hu hin fun _ => rfl).trans (runWord_of_decode hd _)
  · exact (step_of_idle hh hu hin fun _ => rfl).trans (runWireByte_of_decode hd _)

/-! ### The invariant (R25, R27, R29 to R31, R34) -/

theorem ErrCode.code_le (c : ErrCode) : c.code ≤ 5 := by cases c <;> decide

/-- The invariant does not speak of `CMD`, of the moves to come or of what the host read last. -/
theorem State.Inv.withHostSide {s : State} (h : s.Inv) (c : Option CmdWord) (ms : List Input) (d : BitVec 16) :
    { s with cmd := c, inputs := ms, hostData := d }.Inv :=
  ⟨h.txWf, h.rxWf, h.pwm, h.modes, h.err, h.busy, h.hungOwned, h.budget, h.chipsSeen⟩

/-- A refusal, by the latch or by a check, leaves the block idle with a code of R241 in `ERR`. -/
theorem State.Inv.becomeIdle {s : State} (h : s.Inv) (hh : s.hung = false) {e : BitVec 4} (he : e ≤ 5) :
    (becomeIdle { s with err := e }).Inv :=
  ⟨h.txWf, h.rxWf, h.pwm, h.modes, he, hh.symm, h.hungOwned, h.budget, h.chipsSeen⟩

theorem State.Inv.refuse {s : State} (h : s.Inv) (hh : s.hung = false) (c : ErrCode) : (refuse c s).Inv := by
  refine h.becomeIdle hh ?_
  split
  · exact c.code_le
  · exact h.err

/-- A write of a `TXBUF` byte keeps the canonical form of the buffer. -/
theorem State.Inv.writeTxbuf {s : State} (h : s.Inv) (a : Nat) (v : Byte) :
    { s with txbuf := writeCell s.txbuf a v }.Inv :=
  ⟨wf_writeCell a v h.txWf, h.rxWf, h.pwm, h.modes, h.err, h.busy, h.hungOwned, h.budget, h.chipsSeen⟩

/-- The environment leaves the block alone, and after its act the chips have seen the clock line. -/
theorem State.Inv.environmentAct {s : State} (h : s.Inv) (a : EnvAct) : (environmentAct a s).Inv := by
  have seen := environmentAct_seen a s
  rw [environmentAct_eq a s] at seen ⊢
  exact ⟨h.txWf, h.rxWf, h.pwm, h.modes, h.err, h.busy, h.hungOwned, h.budget, seen⟩

/-- Reset makes the invariant hold, whatever state it lands in (R35, R271). -/
theorem blockReset_inv (s : State) : (blockReset s).Inv :=
  ⟨rfl, rfl, Config.pwmPeriod_pos, rfl, (by decide : (0 : BitVec 4) ≤ 5), rfl, nofun, rfl, settle_seen _⟩

/-- A command begun on an idle block is in the state its micro-operations keep. -/
theorem State.Inv.running {s : State} (h : s.Inv) (i : Instr) : Running (beginCommand i s) :=
  ⟨h.modes, h.hungOwned, h.chipsSeen, h.budget, nofun⟩

/-- The end of a body: `BUSY` is 1 after a BUS_HANG and 0 otherwise. -/
theorem Running.endCommand_inv {u : State} (h : Running u) (htx : Memory.wf u.txbuf = true)
    (hrx : Memory.wf u.rxbuf = true) (hpwm : u.pwmCnt < Config.params.pwmPeriod) (herr : u.err ≤ 5) :
    (endCommand u).Inv := by
  cases hh : u.hung with
  | true =>
    have hend : endCommand u = u := by simp [endCommand, State.frozen, hh]
    have hbusy : u.busy = u.hung := by simp [State.busy, h.busy, hh]
    rw [hend]
    exact ⟨htx, hrx, hpwm, h.modes, herr, hbusy, h.hungOwned, h.budget, h.chips⟩
  | false =>
    rw [endCommand_of_live ⟨hh, h.budget⟩]
    exact ⟨htx, hrx, hpwm, h.modes, herr, hh.symm, h.hungOwned, h.budget, h.chips⟩

/-- Every instruction keeps the invariant: refused by the latch, refused by a check, or run. -/
theorem exec_keeps_inv {i : Instr} {s t : State} (h : s.Inv) (he : exec i s = .next t) : t.Inv := by
  obtain ⟨hh, -, ⟨-, rfl⟩ | ⟨-, c, -, rfl⟩ | ⟨-, -, -, rfl⟩⟩ := exec_next he
  · exact h.becomeIdle hh h.err
  · exact h.becomeIdle hh c.code_le
  · have hk := kept_begin i s
    have heff := effects_body i s _ hk
    obtain ⟨hrx, hpwm⟩ := body_buf i s _ hk h.rxWf h.pwm
    refine (running_body i s (h.running i)).endCommand_inv ?_ hrx hpwm ?_
    · rw [heff.host.1]; exact h.txWf
    · rw [heff.err]; exact h.err

/-- A byte of a frame sent on its own: a wire row, or the refusal of R244. -/
theorem runWireByte_next {p : BytePosition} {b : Byte} {s t : State} (h : runWireByte p b s = .next t) :
    (∃ i, exec i s = .next t) ∨ t = refuse .illegalCmd s := by
  unfold runWireByte at h
  split at h
  · exact .inl ⟨_, h⟩
  · cases h
    exact .inr rfl

/-- Every move of the world outside keeps the invariant. -/
theorem takeInput_keeps_inv {m : Input} {s t : State} (h : s.Inv) (hm : takeInput m s = .next t) : t.Inv := by
  cases m with
  | writeCmd w =>
    obtain ⟨hh, -, hrun⟩ := whenIdle_next hm
    obtain ⟨i, -, he⟩ | ⟨-, rfl⟩ := runWord_next hrun
    · exact exec_keeps_inv (h.withHostSide (some w) s.inputs s.hostData) he
    · exact h.refuse hh _
  | writeTxbuf index v =>
    rw [takeInput_writeTxbuf] at hm
    obtain ⟨-, -, ⟨⟩⟩ := whenIdle_next hm
    exact h.writeTxbuf _ _
  | writeStatus v =>
    obtain ⟨-, -, ⟨⟩⟩ := whenIdle_next hm
    exact h
  | readRes =>
    rw [takeInput_readRes] at hm
    obtain ⟨-, -, ⟨⟩⟩ := whenIdle_next hm
    exact h.withHostSide s.cmd s.inputs _
  | readStatus =>
    rw [takeInput_readStatus] at hm
    obtain ⟨-, -, ⟨⟩⟩ := whenIdle_next hm
    exact h.withHostSide s.cmd s.inputs _
  | readRxbuf index =>
    rw [takeInput_readRxbuf] at hm
    obtain ⟨-, -, ⟨⟩⟩ := whenIdle_next hm
    exact h.withHostSide s.cmd s.inputs _
  | reset =>
    cases hm
    exact blockReset_inv s
  | writeCmdThenReset w k =>
    obtain ⟨-, -, hrun⟩ := whenIdle_next hm
    obtain ⟨u, -, rfl⟩ := runWordThenReset_next hrun
    exact blockReset_inv _
  | sendByte p b =>
    obtain ⟨hh, -, hrun⟩ := whenIdle_next hm
    obtain ⟨i, he⟩ | rfl := runWireByte_next hrun
    · exact exec_keeps_inv h he
    · exact h.refuse hh _
  | environment a =>
    cases hm
    exact h.environmentAct a

/-- A step that waits leaves the state as it is (R270). -/
theorem waitForInput_next {s t : State} (h : waitForInput s = .next t) : t = s := by
  unfold waitForInput at h
  split at h <;> cases h
  rfl

/-- Settles O55: the step is a wait or the move at the head of the list, and each move keeps the invariant. -/
theorem stepKeepsInvariant : Obligations.StepKeepsInvariant := by
  intro s t h hstep
  cases hin : s.inputs with
  | nil =>
    rw [step_of_none hin] at hstep
    rw [waitForInput_next hstep]
    exact h
  | cons m rest =>
    rw [step_of_input hin] at hstep
    exact takeInput_keeps_inv (h.withHostSide s.cmd rest s.hostData) hstep

/-- Settles O56: the buffers are empty, no chip is listed, and every register is within its bound. -/
theorem resetMeetsInvariant : Obligations.ResetMeetsInvariant :=
  ⟨rfl, rfl, Config.pwmPeriod_pos, rfl, by decide, rfl, nofun, rfl, nofun⟩

/-! ### What commands write (R22, R24, R28, R30, R31, R68) -/

/-- `Effects` of every next state, refusals included: those write `ERR` and empty `CMD`, so both are taken as `t` has them. -/
theorem exec_effects_but_err {i : Instr} {s t : State} (h : exec i s = .next t) :
    Effects i { s with cmd := t.cmd, err := t.err } t := by
  obtain f | ⟨-, c, rfl⟩ := exec_effects h
  · exact ⟨f.res, f.r2, f.r32, f.r4096, f.r256, f.alive, f.pwm, f.rx, f.host, rfl⟩
  · exact .ofKept ⟨rfl, rfl, rfl, rfl, rfl, rfl, rfl, rfl, rfl⟩

/-- Settles O47: each clause is one of the effects of the instruction. -/
theorem resWrittenOnlyByReturningCommands : Obligations.ResWrittenOnlyByReturningCommands :=
  ⟨fun _ _ _ h => (exec_effects_but_err h).res, fun _ _ _ h => (exec_effects_but_err h).r2,
    fun _ _ _ h => (exec_effects_but_err h).r32, fun _ _ _ h => (exec_effects_but_err h).r4096,
    fun _ _ _ h => (exec_effects_but_err h).r256, rfl⟩

/-- Settles O49: each clause is one of the effects of the instruction. -/
theorem persistentStateWrittenOnlyByItsCommands : Obligations.PersistentStateWrittenOnlyByItsCommands := by
  intro i s t h
  have f := exec_effects_but_err h
  exact ⟨f.alive, f.pwm, f.rx, f.host⟩

theorem construct_ackf (s : State) : (construct s).ackf = s.ackf := by
  obtain ⟨-, -, hscl⟩ := setSclMode_lines .odOut (setSda true (setScl true s))
  obtain ⟨-, -, hsda⟩ := setSdaMode_lines .odOut (setSclMode .odOut (setSda true (setScl true s)))
  calc (construct s).ackf = (setSclMode .odOut (setSda true (setScl true s))).ackf := hsda
    _ = (setSda true (setScl true s)).ackf := hscl
    _ = s.ackf := ((keptLines_setScl true s).trans (keptLines_setSda true _)).ackf

theorem destroy_ackf (s : State) : (destroy s).ackf = s.ackf := by
  obtain ⟨-, -, hscl⟩ := setSclMode_lines .input s
  obtain ⟨-, -, hsda⟩ := setSdaMode_lines .input (setSclMode .input s)
  exact hsda.trans hscl

theorem setRes_ackf (v : BitVec 16) (s : State) : (setRes v s).ackf = s.ackf := by
  unfold setRes note
  split <;> rfl

theorem endCommand_ackf (s : State) : (endCommand s).ackf = s.ackf := by
  unfold endCommand
  split <;> rfl

/-- The bodies that send no byte leave `ACKF` alone (R24). -/
theorem bodyOf_ackf {i : Instr} (hi : i.sendsNoByte = true) (s u : State) : (bodyOf i s u).ackf = u.ackf := by
  cases i with
  | qdelay => exact (keptLines_quarter _ u).ackf
  | construct => exact construct_ackf u
  | destroy => exact destroy_ackf u
  | start => exact (keptLines_start u).ackf
  | stop => exact (keptLines_stop u).ackf
  | wbit b => exact (keptLines_wbit b u).ackf
  | rbit => exact (setRes_ackf _ _).trans (keptLines_rbit u).ackf
  | rbyte ack => exact (setRes_ackf _ _).trans (keptLines_rbyte ack u).ackf
  | wbyte | writebytes | readbytes | writethenread | readreg | writereg | xread | xwrite | xconfig | xsetinv | xgetinv
  | pinit | pcheck | pbuttons | pknob | pleds | pledtick
  | wireAddrWrite | wireAddrRead | regInput | regOutput | regPolinv | regConfig => cases hi

/-- Settles O48: a refusal leaves `ACKF` alone, and so does a body that sends no byte. -/
theorem ackfWrittenOnlyByByteWrites : Obligations.AckfWrittenOnlyByByteWrites := by
  intro i s t h hi
  obtain ⟨-, -, ⟨-, rfl⟩ | ⟨-, c, -, rfl⟩ | ⟨-, -, -, rfl⟩⟩ := exec_next h
  · rfl
  · rfl
  · exact (endCommand_ackf _).trans (bodyOf_ackf hi s _)

/-! ### `STATUS` and the buffers (R25, R30) -/

/-- The fields of `STATUS` at the places of R25's table. -/
theorem status_fields (s : State) :
    s.status.getLsbD 0 = s.busy ∧ s.status.getLsbD 1 = s.owned ∧ s.status.getLsbD 2 = s.ackf ∧
      s.status.getLsbD 3 = s.wasAlive ∧ s.status.extractLsb' 4 4 = s.err := by
  unfold State.status
  generalize s.err = err, s.wasAlive = alive, s.ackf = ackf, s.owned = owned, s.busy = busy
  revert err alive ackf owned busy
  decide

/-- Settles O8: the view's fields, its value at reset, and the write that does nothing. -/
theorem statusIsView : Obligations.StatusIsView :=
  ⟨status_fields, rfl, fun _ _ _ hh hu hin => step_of_idle hh hu hin fun _ => rfl⟩

/-- Settles O9: the write of one cell of `TXBUF`, read back by the laws of the buffers. -/
theorem txbufWriteIsReadBack : Obligations.TxbufWriteIsReadBack := by
  intro s index v rest hh hu hin
  have hindex : index.toNat < bufferSize := index.isLt
  have hstep := step_of_idle hh hu hin (takeInput_writeTxbuf index v)
  refine ⟨_, hstep, ?_, fun a ha => ?_, rfl⟩
  · simp [State.txByte, readCell_writeCell_same _ _ hindex]
  · simp [State.txByte, readCell_writeCell_other _ _ ha]

/-- A byte zero-extended to the width of `hostData` keeps its value. -/
theorem zext_byte_toNat (v : Byte) : (v.setWidth 16).toNat = v.toNat := BitVec.toNat_setWidth_of_le (by decide)

/-- Settles O60: each read leaves the value in `hostData` and nothing else. -/
theorem hostReadsSpecialRegisters : Obligations.HostReadsSpecialRegisters := by
  intro s rest hh hu
  refine ⟨fun hin => ?_, fun hin => ?_, fun index hin => ?_⟩
  · exact step_of_idle hh hu hin takeInput_readRes
  · have hstep := step_of_idle hh hu hin takeInput_readStatus
    exact ⟨_, hstep, rfl, zext_byte_toNat s.status⟩
  · have hstep := step_of_idle hh hu hin (takeInput_readRxbuf index)
    have hbyte := zext_byte_toNat (s.rxByte index.toNat)
    refine ⟨_, hstep, rfl, hbyte, fun v hv => hbyte.trans ?_⟩
    simp [State.rxByte, hv]

/-! ### Reset (R35) -/

/-- Settles O11: the reset state, row by row. -/
theorem resetStateIsTable : Obligations.ResetStateIsTable :=
  ⟨rfl, rfl, rfl, rfl, rfl, rfl, rfl, rfl, rfl, rfl, rfl, rfl, fun _ => ⟨rfl, rfl⟩, rfl, rfl⟩

end Sys2Proof.Machine

/-! PROOFS. The family of 20_memory.md: register accesses of a reference expander (R61), and the bus without a device
(R62, R212). -/

namespace Sys2Proof.Machine

/-! ### Accepted instructions run (60_exceptions.md R249) -/

theorem ownershipOf_of_accepted {i : Instr} {s : State} (h : Accepted i s) : ownershipOf i s = none := by
  obtain ⟨hmaster, hfree, -, -⟩ := h
  unfold ownershipOf
  split
  · exact needsOwned_of (hmaster ‹_›)
  · split
    · exact needsFree_of (hfree ‹_›)
    · rfl

theorem operandsOf_of_accepted {i : Instr} {s : State} (h : Accepted i s) : operandsOf i = none := by
  obtain ⟨-, -, hchip, hcount⟩ := h
  cases i with
  | readbytes | writethenread => exact checkCount_of (Nat.pos_of_ne_zero fun h => hcount (congrArg some h))
  | xread | xwrite | xconfig | xsetinv | xgetinv => exact checkAddr_of (hchip _ rfl)
  | _ => rfl

/-- A ready block runs the body of an instruction it does not refuse. -/
theorem exec_runs {i : Instr} {s : State} (hr : s.Ready) (ha : Accepted i s) :
    exec i s = .next (endCommand (bodyOf i s (beginCommand i s))) := by
  rw [exec_eq, runCommand_ready hr (ownershipOf_of_accepted ha) (operandsOf_of_accepted ha)]

/-! ### Register accesses as the chip takes them (R61) -/

theorem writeRegister_eq (addr7 : Addr7) (reg value : Byte) (s : State) : writeRegister addr7 reg value s =
    stop (wbyte value (wbyte reg (wbyte (addrByte addr7 false) (start s)))) := by
  dsimp only [writeRegister, writeBytes, wbytes]

theorem writeThenRead_bytes (addr7 : Addr7) (bytes : List Byte) (rcount : Nat) (s : State) :
    (writeThenRead addr7 bytes rcount s).1 = (rbytes rcount (wbyte (addrByte addr7 true)
      (start (wbytes bytes (wbyte (addrByte addr7 false) (start s)))))).1 := rfl

theorem rbytes_one (s : State) : rbytes 1 s = ([(rbyte false s).1], (rbyte false s).2) := by
  simp only [rbytes, bne_self_eq_false]

/-- `read_register` up to its one byte read: both address bytes and the register pointer sent (R172). -/
def readLead (addr7 : Addr7) (reg : Byte) (s : State) : State :=
  wbyte (addrByte addr7 true) (start (wbyte reg (wbyte (addrByte addr7 false) (start s))))

theorem readRegister_eq_readLead (addr7 : Addr7) (reg : Byte) (s : State) :
    readRegister addr7 reg s =
      ((rbyte false (readLead addr7 reg s)).1, stop (rbyte false (readLead addr7 reg s)).2) := by
  refine Prod.ext ?_ ?_
  · rw [readRegister_byte, writeThenRead_bytes, wbytes_cons, wbytes_nil, rbytes_one, List.headD_cons, readLead]
  · rw [readRegister_state, writeThenRead_state, wbytes_cons, wbytes_nil, rbytes_one, readLead]

/-- The chip with its register pointer set by a pointer byte: the low two bits (log entry 16). -/
def Chip.pointedAt (c : Chip) (reg : Byte) : Chip := { c with ptr := reg.extractLsb' 0 2 }

theorem Chip.selected_eq (c : Chip) : c.selected =
    if c.ptr = 0 then ((c.out &&& ~~~c.cfg) ||| (c.ext &&& c.cfg)) ^^^ c.inv
    else if c.ptr = 1 then c.out else if c.ptr = 2 then c.inv else c.cfg := by
  have hptr : c.ptr = 0 ∨ c.ptr = 1 ∨ c.ptr = 2 ∨ c.ptr = 3 := by
    generalize c.ptr = p
    revert p
    decide
  rcases hptr with h | h | h | h <;> simp [Chip.selected, Chip.pins, h]

/-- The chip inside a write to it, `reg` having been sent as the register pointer: it awaits a data byte. -/
def Chip.writing (reg : Byte) (c : Chip) : Chip :=
  { c.pointedAt reg with
    phase := .data, clocks := 0, shift := 0, pull := false, seenScl := false, seenSda := true }

theorem Chip.writing_awaiting {c : Chip} (reg : Byte) (h : c.powered = true) : (c.writing reg).Awaiting .data :=
  ⟨h, rfl, rfl, rfl, rfl, rfl⟩

/-- The chip inside a read of it: it begins to send the register its pointer selects. -/
def Chip.answering (c : Chip) : Chip :=
  { c with phase := .sending, clocks := 0, shift := c.selected, pull := !c.selected.getLsbD 7, seenScl := false,
           seenSda := c.selected.getLsbD 7 }

namespace OneChip

variable {s : State} {c : Chip} {k m : Nat}

/-- A byte the chip acknowledges, given what its nine cells make of the chip. -/
theorem wbyte_acknowledged {c' : Chip} {phase : ChipPhase} {d : Bool} {v : Byte}
    (h : OneChip s c (false, d) (k + 37) (m + 64)) (ha : c.Awaiting phase)
    (hbyte : (c.cells (bitsMsbFirst v)).pull = true ∧ (c.cells (bitsMsbFirst v)).cell true = c') :
    OneChip (Machine.wbyte v s) c' (false, true) k m ∧ (Machine.wbyte v s).ackf = true := by
  obtain ⟨hpull, rfl⟩ := hbyte
  obtain ⟨hchip, hack⟩ := h.wbyte_cells v ha.powered ha.seenScl
  exact ⟨hchip, hack.trans hpull⟩

/-- The lead of every register access: start condition, the chip's address for a write, the register pointer. -/
theorem pointer_sent (h : OneChip s c (true, true) (k + 78) (m + 136)) (hr : c.AtRest) (reg : Byte) :
    OneChip (Machine.wbyte reg (Machine.wbyte (addrByte c.addr false) (Machine.start s))) (c.writing reg)
      (false, true) k m := by
  obtain ⟨hstart, ha⟩ := start_idle (k := k + 74) (m := m + 128) h hr
  obtain ⟨haddr, -⟩ := wbyte_acknowledged (k := k + 37) (m := m + 64) hstart ha (Chip.byte_address_write ha)
  have hptr : Chip.Awaiting { c.started with phase := .pointer, seenSda := true } .pointer :=
    ⟨ha.powered, rfl, ha.pull, ha.clocks, ha.shift, ha.seenScl⟩
  exact (haddr.wbyte_acknowledged hptr (Chip.byte_pointer hptr reg)).1

/-- `write_register` of the chip (42_i2c_transactions.md R175): the value is stored where the pointer says. -/
theorem writeRegister (h : OneChip s c (true, true) (k + 118) (m + 206)) (hr : c.AtRest) (reg value : Byte) :
    (Machine.writeRegister c.addr reg value s).ackf = true ∧
      ∃ c', OneChip (Machine.writeRegister c.addr reg value s) c' (true, true) k m ∧ c'.AtRest ∧
        SameRegisters ((c.pointedAt reg).store value) c' ∧ c'.addr = c.addr ∧ c'.ext = c.ext ∧
        c'.ptr = reg.extractLsb' 0 2 := by
  have hw := c.writing_awaiting reg hr.1
  obtain ⟨hdata, hack⟩ := wbyte_acknowledged (k := k + 3) (m := m + 6)
    (pointer_sent (k := k + 40) (m := m + 70) h hr reg) hw (Chip.byte_data hw value)
  rw [Chip.store_eq] at hdata
  obtain ⟨c', hstop, hrest, hsame, haddr, hext, hptr⟩ :=
    hdata.stop_end hw.powered hw.seenScl hw.pull (.inr hw.phase) (.inl (Nat.succ_pos 7))
  rw [writeRegister_eq]
  refine ⟨(keptLines_stop _).ackf.trans hack, c', hstop, hrest, ?_, haddr, hext, hptr⟩
  rw [Chip.store_eq]
  exact hsame

/-- The lead of a register read: the chip acknowledges its address for a read and begins to send. -/
theorem readLead (h : OneChip s c (true, true) (k + 119) (m + 208)) (hr : c.AtRest) (reg : Byte) :
    OneChip (Machine.readLead c.addr reg s) (c.pointedAt reg).answering (false, true) k m ∧
      (Machine.readLead c.addr reg s).ackf = true := by
  have hpointer := pointer_sent (k := k + 41) (m := m + 72) h hr reg
  obtain ⟨hstart, ha⟩ := start_repeated (k := k + 37) (m := m + 64) hpointer (c.writing_awaiting reg hr.1)
  exact hstart.wbyte_acknowledged ha (Chip.byte_address_read ha)

/-- `read_register` of the chip (R172): the byte is the register the pointer selects. -/
theorem readRegister (h : OneChip s c (true, true) (k + 166) (m + 285)) (hr : c.AtRest) (reg : Byte) :
    (Machine.readRegister c.addr reg s).1 = (c.pointedAt reg).selected ∧
      (Machine.readRegister c.addr reg s).2.ackf = true ∧
      ∃ c', OneChip (Machine.readRegister c.addr reg s).2 c' (true, true) k m ∧ c'.AtRest ∧ SameRegisters c c' ∧
        c'.addr = c.addr ∧ c'.ext = c.ext ∧ c'.ptr = reg.extractLsb' 0 2 := by
  rw [readRegister_eq_readLead]
  obtain ⟨hlead, hack⟩ := readLead (k := k + 47) (m := m + 77) h hr reg
  obtain ⟨hbyte, y, hread⟩ := rbyte_sending (k := k + 3) (m := m + 6) hlead hr.1 rfl rfl rfl rfl
  obtain ⟨c', hstop, hrest, hsame, haddr, hext, hptr⟩ := hread.stop_end hr.1 rfl rfl (.inl rfl) (.inr rfl)
  dsimp only
  refine ⟨hbyte, ?_, c', hstop, hrest, hsame, haddr, hext, hptr⟩
  rw [(keptLines_stop _).ackf, (keptLines_rbyte _ _).ackf, hack]

end OneChip

/-- A command begun on a bus whose one device is the chip. -/
theorem OnlyChip.begun {s : State} {c : Chip} {n m : Nat} (h : OnlyChip s c n m) (hr : s.Ready) (ho : s.owned = true)
    (hidle : s.BusIdle) (i : Instr) : OneChip (beginCommand i s) c (true, true) n m := by
  obtain ⟨hchips, hscl, hsda, hlevels, hacts⟩ := h
  obtain ⟨hsclMode, hsdaMode⟩ : s.sclMode = .odOut ∧ s.sdaMode = .odOut := by
    simpa [State.owned] using ho
  exact ⟨live_beginCommand hr, hsclMode, hsdaMode, hidle.1, hidle.2, hchips, hscl, hsda, hlevels, hacts⟩

/-- Settles O57: the chip takes the three bytes of `write_register` in turn. -/
theorem writeregReachesReferenceExpander : Obligations.WriteregReachesReferenceExpander := by
  intro s c reg value hr ho hidle honly hrest
  obtain ⟨hack, c', hc, hrest', ⟨hout, hinv, hcfg⟩, haddr, hext, hptr⟩ :=
    OneChip.writeRegister (k := 0) (m := 0) (honly.begun hr ho hidle (.writereg c.addr reg value)) hrest reg value
  have hkept := (kept_begin (.writereg c.addr reg value) s).trans (stableKept.writeRegister c.addr reg value _)
  obtain ⟨hdone, -, -, -, -, hackf, -⟩ := endCommand_facts hkept hc.live
  have hchips : (endCommand (writeRegister c.addr reg value (beginCommand (.writereg c.addr reg value) s))).chips =
      [c'] := by
    rw [endCommand_of_live hc.live, becomeIdle_chips, hc.chips]
  rw [Chip.store_eq] at hout hinv hcfg
  exact ⟨_, c', exec_runs hr ⟨fun _ => ho, nofun, nofun, nofun⟩, hdone, hackf.trans hack, hchips, hrest', haddr, hext,
    hptr, hout, hinv, hcfg⟩

theorem bodyOf_readreg (addr7 : Addr7) (reg : Byte) (s u : State) : bodyOf (.readreg addr7 reg) s u =
    setRes ((readRegister addr7 reg u).1.setWidth 16) (readRegister addr7 reg u).2 := by
  dsimp only [bodyOf, readToRes]

/-- Settles O58: the chip sends the register its pointer selects, and `read_register` returns it. -/
theorem readregReadsReferenceExpander : Obligations.ReadregReadsReferenceExpander := by
  intro s c reg hr ho hidle honly hrest
  obtain ⟨hbyte, hack, c', hc, hrest', hsame, haddr, hext, hptr⟩ :=
    OneChip.readRegister (k := 0) (m := 0) (honly.begun hr ho hidle (.readreg c.addr reg)) hrest reg
  have hkept := (kept_begin (.readreg c.addr reg) s).trans (stableKept.readRegister c.addr reg _)
  rw [Chip.selected_eq] at hbyte
  refine ⟨_, c', exec_runs hr ⟨fun _ => ho, nofun, nofun, nofun⟩, ?_⟩
  rw [bodyOf_readreg, endCommand_setRes hc.live]
  generalize readRegister c.addr reg (beginCommand (.readreg c.addr reg) s) = r at hbyte hack hc hkept ⊢
  exact ⟨⟨rfl, hc.live.hung, hc.live.budget, rfl, hkept.err⟩, hack, hc.chips, hrest', haddr, hext, hsame, hptr,
    congrArg (BitVec.setWidth 16) hbyte⟩

/-! ### A bus without a device (20_memory.md R62) -/

/-- No chip is attached, and at the next `n` observations no device holds a line. -/
structure Undriven (s : State) (n : Nat) : Prop where
  noChips : NoChips s
  free : ∀ k < n, s.levelAt k = ⟨true, true⟩

namespace Undriven

variable {s : State} {n : Nat} (h : Undriven s n)
include h

theorem clock : ClockFree s n := fun k hk => congrArg Levels.scl (h.free k hk)

theorem data (k : Nat) (hk : k < n) : DataFree s k := congrArg Levels.sda (h.free k hk)

/-- A procedure runs to its end. -/
theorem runs {op : State → State} {F : List Nat} {o : Bool × Bool → Bool × Bool} {w : Bool × Bool → List (Bool × Bool)}
    (hl : Live s) (hop : Op op n F o w fun _ => true) (hF : ∀ k ∈ F, k < n) : Live (op s) :=
  (hop.ran s hl (hop.smooth s hl h.noChips rfl h.clock fun k hk => h.data k (hF k hk))).1.live

/-- A byte sent from observation `o` on is not acknowledged. -/
theorem ack (o : Nat) (ho : o + 35 < n) : ackAt s o = false := by
  rw [ackAt, h.free _ ho]
  rfl

/-- A byte read from observation `o` on is 0xFF. -/
theorem byte (o : Nat) (ho : o + 38 < n) : byteAt s o = 0xFF := by
  have hbits : ((List.range 8).map fun j => (s.levelAt (o + 5 * j + 3)).sda) = (List.range 8).map fun _ => true :=
    List.map_congr_left fun j hj => by
      have hj8 : j < 8 := List.mem_range.mp hj
      rw [h.free _ (by omega)]
  rw [byteAt, hbits]
  decide

end Undriven

/-! ### Procedures on a bus without a device -/

section Absent

variable {u : State} (hl : Live u)
include hl

theorem rbit_absent (hu : Undriven u 5) : Live (rbit u).2 ∧ (rbit u).1 = true := by
  have hlive := hu.runs hl op_rbit nofun
  exact ⟨hlive, (rbit_value hl hu.noChips hlive.hung).trans (hu.data 3 (by omega))⟩

theorem rbyte_absent (ack : Bool) (hu : Undriven u 44) : Live (rbyte ack u).2 ∧ (rbyte ack u).1 = 0xFF := by
  have hlive := hu.runs hl (op_rbyte ack) nofun
  exact ⟨hlive, (rbyte_value ack hl hu.noChips hlive.hung).trans (hu.byte 0 (by omega))⟩

theorem wbyte_absent (v : Byte) (hu : Undriven u 37) : Live (wbyte v u) ∧ (wbyte v u).ackf = false := by
  have hlive := hu.runs hl (op_wbyte v) nofun
  exact ⟨hlive, (wbyte_ackf v hl hu.noChips hlive.hung).trans (hu.ack 0 (by omega))⟩

theorem writeBytes_absent (addr7 : Addr7) (bytes : List Byte) (hu : Undriven u (writeDraws bytes.length)) :
    Live (writeBytes addr7 bytes u) ∧ (writeBytes addr7 bytes u).ackf = false := by
  have hlive := hu.runs hl (op_writeBytes addr7 bytes) (by simp [writeDraws]; omega)
  exact ⟨hlive, (writeBytes_ackf addr7 bytes hl hu.noChips hlive.hung).trans (hu.ack _ (by unfold writeDraws; omega))⟩

theorem readBytes_absent (addr7 : Addr7) (count : Nat) (hu : Undriven u (readDraws count)) :
    Live (readBytes addr7 count u).2 ∧ (readBytes addr7 count u).2.ackf = false ∧
      (readBytes addr7 count u).1 = List.replicate count 0xFF := by
  have hlive := hu.runs hl (op_readBytes addr7 count) (by simp [readDraws]; omega)
  obtain ⟨hbytes, hack⟩ := readBytes_value addr7 count hl hu.noChips hlive.hung
  refine ⟨hlive, hack.trans (hu.ack _ (by unfold readDraws; omega)), ?_⟩
  rw [hbytes, List.map_eq_replicate_iff.mpr fun k hk => ?_, List.length_range]
  have hkc : k < count := List.mem_range.mp hk
  exact hu.byte _ (by unfold readDraws; omega)

theorem writeThenRead_absent (addr7 : Addr7) (bytes : List Byte) (rcount : Nat)
    (hu : Undriven u (writeThenReadDraws bytes.length rcount)) :
    Live (writeThenRead addr7 bytes rcount u).2 ∧ (writeThenRead addr7 bytes rcount u).2.ackf = false ∧
      (writeThenRead addr7 bytes rcount u).1 = List.replicate rcount 0xFF := by
  have hlive := hu.runs hl (op_writeThenRead addr7 bytes rcount) (by simp [writeThenReadDraws]; omega)
  obtain ⟨hbytes, hack⟩ := writeThenRead_value addr7 bytes rcount hl hu.noChips hlive.hung
  refine ⟨hlive, hack.trans (hu.ack _ (by unfold writeThenReadDraws; omega)), ?_⟩
  rw [hbytes, List.map_eq_replicate_iff.mpr fun k hk => ?_, List.length_range]
  have hkc : k < rcount := List.mem_range.mp hk
  exact hu.byte _ (by unfold writeThenReadDraws; omega)

theorem writeRegister_absent (addr7 : Addr7) (reg value : Byte) (hu : Undriven u 118) :
    Live (writeRegister addr7 reg value u) ∧ (writeRegister addr7 reg value u).ackf = false := by
  have hlive := hu.runs hl (op_writeRegister addr7 reg value) (by decide)
  exact ⟨hlive, (writeRegister_ackf addr7 reg value hl hu.noChips hlive.hung).trans (hu.ack 78 (by omega))⟩

theorem readRegister_absent (addr7 : Addr7) (reg : Byte) (hu : Undriven u 166) :
    Live (readRegister addr7 reg u).2 ∧ (readRegister addr7 reg u).2.ackf = false ∧
      (readRegister addr7 reg u).1 = 0xFF := by
  have hlive := hu.runs hl (op_readRegister addr7 reg) (by decide)
  obtain ⟨hbyte, hack⟩ := readRegister_value addr7 reg hl hu.noChips hlive.hung
  exact ⟨hlive, hack.trans (hu.ack 82 (by omega)), hbyte.trans (hu.byte 119 (by omega))⟩

theorem panelInit_absent (P : Params) (hu : Undriven u 944) : Live (panelInit P u) ∧ (panelInit P u).ackf = false := by
  have hlive := hu.runs hl (op_panelInit P) (by decide)
  obtain ⟨-, -, hack⟩ := panelInit_tail P hl hu.noChips hlive.hung
  exact ⟨hlive, hack.trans (hu.ack 904 (by omega))⟩

theorem panelLeds_absent (P : Params) (m : Mask5) (hu : Undriven u 236) :
    Live (panelLeds P m u) ∧ (panelLeds P m u).ackf = false := by
  have hlive := hu.runs hl (op_panelLeds P m) (by decide)
  obtain ⟨-, -, hack⟩ := panelLeds_tail P m hl hu.noChips hlive.hung
  exact ⟨hlive, hack.trans (hu.ack 196 (by omega))⟩

theorem readTwo_absent (P : Params) (chip chip' : Nat) (hu : Undriven u 332) :
    Live (readTwo P chip chip' u) ∧ (readTwo P chip chip' u).ackf = false ∧
      (readChip P chip REG_INPUT (construct u)).1 = 0xFF ∧
      (readChip P chip' REG_INPUT (readChip P chip REG_INPUT (construct u)).2).1 = 0xFF := by
  have hlive := hu.runs hl (op_readTwo P chip chip') (by decide)
  obtain ⟨hbyte, hbyte', hack, -, -⟩ := readTwo_facts P chip chip' hl hu.noChips hlive.hung
  exact ⟨hlive, hack.trans (hu.ack 248 (by omega)), hbyte.trans (hu.byte 119 (by omega)),
    hbyte'.trans (hu.byte 285 (by omega))⟩

/-- The probe reads 0xFF twice, and the byte it wrote differs from that in the test bit (44_panel.md R212). -/
theorem panelProbe_absent (hu : Undriven u 450) :
    Live (panelProbe Config.params u).2 ∧ (panelProbe Config.params u).2.ackf = false ∧
      (panelProbe Config.params u).1 = false := by
  obtain ⟨hran, -, -, -, hack, -, -, halive⟩ := panelProbe_facts Config.params hl hu.noChips hu.clock
    ⟨hu.data 1 (by omega), hu.data 79 (by omega), hu.data 165 (by omega)⟩
    ⟨hu.data 167 (by omega), hu.data 283 (by omega)⟩
    ⟨hu.data 285 (by omega), hu.data 363 (by omega), hu.data 449 (by omega)⟩
  refine ⟨hran.live, hack.trans (hu.ack 366 (by omega)), ?_⟩
  rw [halive, hu.byte 403 (by omega), hu.byte 119 (by omega)]
  rcases Config.aliveTestMask_cases with hmask | hmask <;> rw [hmask] <;> decide

end Absent

/-! ### Values written after the last micro-operation -/

theorem setRes_live {v : BitVec 16} {s : State} (h : Live s) : Live (setRes v s) := by
  rw [setRes_of_live h]
  exact ⟨h.hung, h.budget⟩

theorem setRes_res {v : BitVec 16} {s : State} (h : Live s) : (setRes v s).res = v := by
  rw [setRes_of_live h]

theorem advancePwm_live {P : Params} {s : State} (h : Live s) : Live (advancePwm P s) := by
  rw [advancePwm_of_live h]
  exact ⟨h.hung, h.budget⟩

theorem advancePwm_ackf (P : Params) (s : State) : (advancePwm P s).ackf = s.ackf := by
  unfold advancePwm note
  split <;> rfl

/-- A run of writes is read back at the indices inside the buffer, wherever it ends. -/
theorem readCell_writeCells_of_lt (m : Memory) {a k : Nat} (vs : List Byte) (hk : k < vs.length)
    (h : a + k < bufferSize) : readCell (writeCells m a vs) (a + k) = vs[k]? := by
  induction vs generalizing m a k with
  | nil => cases hk
  | cons v vs ih =>
    rw [writeCells]
    cases k with
    | zero =>
      rw [readCell_writeCells_outside _ _ (.inl (by omega))]
      exact readCell_writeCell_same m v h
    | succ k =>
      rw [show a + (k + 1) = a + 1 + k by omega]
      exact ih _ (Nat.lt_of_succ_lt_succ hk) (by omega)

/-- What an instruction leaves of `ACKF` and of the values it reads when there is no device, and the sequencer runs. -/
structure AbsentOutcome (i : Instr) (t : State) : Prop where
  live : Live t
  ackf : i.sendsNoByte = false → t.ackf = false
  byte : i.returnsByte = true → t.res = 0x00FF
  rx : ∀ k < i.rxCount, k < 256 → readCell t.rxbuf k = some 0xFF
  bit : i = .rbit → t.res = 1
  buttons : i = .pbuttons → t.res = 0x001F
  knob : i = .pknob → t.res = 0x0FFF
  probe : i = .pcheck → t.res = 0 ∧ t.wasAlive = false

namespace AbsentOutcome

variable {i : Instr} {t : State}

/-- An instruction that returns nothing. -/
theorem ofNoResult (hres : i.writesRes = false) (hbyte : i.returnsByte = false) (hrx : i.rxCount = 0) (hl : Live t)
    (hack : i.sendsNoByte = false → t.ackf = false) : AbsentOutcome i t where
  live := hl
  ackf := hack
  byte h := absurd (hbyte.symm.trans h) Bool.false_ne_true
  rx k hk := by rw [hrx] at hk; cases hk
  bit h := by subst h; cases hres
  buttons h := by subst h; cases hres
  knob h := by subst h; cases hres
  probe h := by subst h; cases hres

/-- An instruction that returns one byte in `RES`. -/
theorem ofByte {v : Byte} (hrx : i.rxCount = 0) (hbit : i ≠ .rbit) (hpanel : i.isPanel = false) (hl : Live t)
    (hack : i.sendsNoByte = false → t.ackf = false) (hv : v = 0xFF) : AbsentOutcome i (setRes (v.setWidth 16) t) where
  live := setRes_live hl
  ackf h := (setRes_ackf _ _).trans (hack h)
  byte _ := by rw [setRes_res hl, hv]; rfl
  rx k hk := by rw [hrx] at hk; cases hk
  bit h := absurd h hbit
  buttons h := by subst h; cases hpanel
  knob h := by subst h; cases hpanel
  probe h := by subst h; cases hpanel

/-- An instruction that reads bytes into `RXBUF`. -/
theorem ofRxbuf {bytes : List Byte} (hres : i.writesRes = false) (hbyte : i.returnsByte = false) (hl : Live t)
    (hack : t.ackf = false) (hbytes : bytes = List.replicate i.rxCount 0xFF) :
    AbsentOutcome i (storeRxbuf bytes t) := by
  rw [storeRxbuf_of_live hl, hbytes]
  refine
    { live := ⟨hl.hung, hl.budget⟩
      ackf := fun _ => hack
      byte := fun h => absurd (hbyte.symm.trans h) Bool.false_ne_true
      rx := fun k hk hk256 => ?_
      bit := fun h => by subst h; cases hres
      buttons := fun h => by subst h; cases hres
      knob := fun h => by subst h; cases hres
      probe := fun h => by subst h; cases hres }
  have hread := readCell_writeCells_of_lt t.rxbuf (a := 0) (k := k) (List.replicate i.rxCount 0xFF)
    (by rw [List.length_replicate]; exact hk) (by rw [Nat.zero_add]; exact hk256)
  rwa [Nat.zero_add, List.getElem?_replicate_of_lt hk] at hread

/-- A probe that finds no panel. -/
theorem ofProbe (hl : Live t) (hack : t.ackf = false) :
    AbsentOutcome .pcheck (setRes ((BitVec.ofBool false).setWidth 16) (setWasAlive false t)) := by
  have hlive : Live { t with wasAlive := false } := ⟨hl.hung, hl.budget⟩
  rw [setWasAlive_of_live hl, setRes_of_live hlive]
  exact ⟨⟨hl.hung, hl.budget⟩, fun _ => hack, nofun, nofun, nofun, nofun, nofun, fun _ => ⟨rfl, rfl⟩⟩

end AbsentOutcome

/-- The body of every instruction but PCHECK, whose observations are counted to the end of its probe. -/
theorem bodyOf_absent {i : Instr} {s u : State} (hi : i ≠ .pcheck) (hl : Live u) (hu : Undriven u (observationsOf i)) :
    AbsentOutcome i (bodyOf i s u) := by
  cases i with
  | qdelay => exact .ofNoResult rfl rfl rfl (hu.runs hl Op.quarter nofun) nofun
  | construct => exact .ofNoResult rfl rfl rfl (hu.runs hl op_construct nofun) nofun
  | destroy => exact .ofNoResult rfl rfl rfl (hu.runs hl op_destroy nofun) nofun
  | start => exact .ofNoResult rfl rfl rfl (hu.runs hl op_start (by decide)) nofun
  | stop => exact .ofNoResult rfl rfl rfl (hu.runs hl op_stop (by decide)) nofun
  | wbit b => exact .ofNoResult rfl rfl rfl (hu.runs hl (op_wbit b) nofun) nofun
  | rbit =>
    obtain ⟨hlive, hbit⟩ := rbit_absent hl hu
    refine ⟨setRes_live hlive, nofun, nofun, nofun, fun _ => ?_, nofun, nofun, nofun⟩
    exact (setRes_res hlive).trans (by rw [hbit]; rfl)
  | rbyte ack =>
    obtain ⟨hlive, hbyte⟩ := rbyte_absent hl ack hu
    exact .ofByte rfl nofun rfl hlive nofun hbyte
  | wbyte | wireAddrWrite | wireAddrRead | regInput | regOutput | regPolinv | regConfig =>
    obtain ⟨hlive, hack⟩ := wbyte_absent hl _ hu
    exact .ofNoResult rfl rfl rfl hlive fun _ => hack
  | writebytes a n =>
    have hlen : (txPayload s n).length = n := by simp [txPayload]
    obtain ⟨hlive, hack⟩ := writeBytes_absent hl a (txPayload s n) (by rw [hlen]; exact hu)
    exact .ofNoResult rfl rfl rfl hlive fun _ => hack
  | readbytes a n =>
    obtain ⟨hlive, hack, hbytes⟩ := readBytes_absent hl a n hu
    exact .ofRxbuf rfl rfl hlive hack hbytes
  | writethenread a wn n =>
    have hlen : (txPayload s wn).length = wn := by simp [txPayload]
    obtain ⟨hlive, hack, hbytes⟩ := writeThenRead_absent hl a (txPayload s wn) n (by rw [hlen]; exact hu)
    exact .ofRxbuf rfl rfl hlive hack hbytes
  | writereg | xwrite | xconfig | xsetinv =>
    obtain ⟨hlive, hack⟩ := writeRegister_absent hl _ _ _ hu
    exact .ofNoResult rfl rfl rfl hlive fun _ => hack
  | readreg | xread | xgetinv =>
    dsimp only [bodyOf, readToRes]
    obtain ⟨hlive, hack, hbyte⟩ := readRegister_absent hl _ _ hu
    exact .ofByte rfl nofun rfl hlive (fun _ => hack) hbyte
  | pinit =>
    obtain ⟨hlive, hack⟩ := panelInit_absent hl Config.params hu
    exact .ofNoResult rfl rfl rfl hlive fun _ => hack
  | pcheck => exact absurd rfl hi
  | pbuttons =>
    obtain ⟨hlive, hack, hbyte, hbyte'⟩ := readTwo_absent hl Config.params 0 2 hu
    rw [bodyOf, panelButtons_eq, hbyte, hbyte']
    exact ⟨setRes_live hlive, fun _ => (setRes_ackf _ _).trans hack, nofun, nofun, nofun,
      fun _ => (setRes_res hlive).trans (by decide), nofun, nofun⟩
  | pknob =>
    obtain ⟨hlive, hack, hbyte, hbyte'⟩ := readTwo_absent hl Config.params 0 1 hu
    rw [bodyOf, panelKnob_eq, hbyte, hbyte']
    exact ⟨setRes_live hlive, fun _ => (setRes_ackf _ _).trans hack, nofun, nofun, nofun, nofun,
      fun _ => (setRes_res hlive).trans (by decide), nofun⟩
  | pleds m =>
    obtain ⟨hlive, hack⟩ := panelLeds_absent hl Config.params m hu
    exact .ofNoResult rfl rfl rfl hlive fun _ => hack
  | pledtick m =>
    obtain ⟨hlive, hack⟩ := panelLeds_absent hl Config.params (tickMask Config.params u.pwmCnt m) hu
    rw [bodyOf, panelLedTick]
    exact .ofNoResult rfl rfl rfl (advancePwm_live hlive) fun _ => (advancePwm_ackf _ _).trans hack

/-- The body of PCHECK: no panel is found, and no initialisation follows (44_panel.md R212). -/
theorem bodyOf_pcheck_absent {s u : State} (hl : Live u) (hu : Undriven u 450) :
    AbsentOutcome .pcheck (bodyOf .pcheck s u) := by
  obtain ⟨hlive, hack, halive⟩ := panelProbe_absent hl hu
  rw [bodyOf, panelCheck_eq, halive, Bool.false_and, if_neg Bool.false_ne_true]
  exact .ofProbe hlive hack

/-- Settles O54: the instruction's body on a bus without a device, and the end of the command. -/
theorem absentDeviceReadsOnes : Obligations.AbsentDeviceReadsOnes := by
  intro i s hr hn ha hfree
  have hl := live_beginCommand (i := i) hr
  have hout : AbsentOutcome i (bodyOf i s (beginCommand i s)) := by
    split at hfree
    · subst i
      exact bodyOf_pcheck_absent hl ⟨hn, hfree⟩
    · exact bodyOf_absent ‹_› hl ⟨hn, hfree⟩
  have herr := (effects_body i s _ (kept_begin i s)).err
  refine ⟨_, exec_runs hr ha, ?_⟩
  rw [endCommand_of_live hout.live]
  exact ⟨⟨rfl, hout.live.hung, hout.live.budget, rfl, herr⟩, hout.ackf, hout.byte, hout.rx, hout.bit, hout.buttons,
    hout.knob, hout.probe⟩

end Sys2Proof.Machine

/-! PROOFS. The family of 30_encoding.md: the decoder and the encoder undo each other, each row of R83 is what the
decoder reads, and the wire rows send their byte. -/

namespace Sys2Proof

/-! ### The fields of a command word (R80) -/

theorem packWord_fields (w : CmdWord) : packWord (opField w) (aField w) (bField w) (cField w) = w := by
  unfold packWord opField aField bField cField
  rw [BitVec.extractLsb'_append_extractLsb'_eq_extractLsb' (by decide),
    BitVec.extractLsb'_append_extractLsb'_eq_extractLsb' (by decide),
    BitVec.extractLsb'_append_extractLsb'_eq_extractLsb' (by decide)]
  exact BitVec.extractLsb'_eq_self

theorem opField_packWord (op a b c : Byte) : opField (packWord op a b c) = op := by
  unfold opField packWord
  rw [BitVec.extractLsb'_append_eq_of_le (by decide), BitVec.extractLsb'_append_eq_of_le (by decide)]
  exact BitVec.extractLsb'_append_eq_left

theorem aField_packWord (op a b c : Byte) : aField (packWord op a b c) = a := by
  unfold aField packWord
  rw [BitVec.extractLsb'_append_eq_of_le (by decide), BitVec.extractLsb'_append_eq_of_le (by decide)]
  exact BitVec.extractLsb'_append_eq_right

theorem bField_packWord (op a b c : Byte) : bField (packWord op a b c) = b := by
  unfold bField packWord
  rw [BitVec.extractLsb'_append_eq_of_le (by decide)]
  exact BitVec.extractLsb'_append_eq_right

theorem cField_packWord (op a b c : Byte) : cField (packWord op a b c) = c :=
  BitVec.extractLsb'_append_eq_right

theorem packWord_inj {op a b c op' a' b' c' : Byte} :
    packWord op a b c = packWord op' a' b' c' ↔ op = op' ∧ a = a' ∧ b = b' ∧ c = c' := by
  refine ⟨fun h => ⟨?_, ?_, ?_, ?_⟩, fun ⟨ho, ha, hb, hc⟩ => by rw [ho, ha, hb, hc]⟩
  · simpa only [opField_packWord] using congrArg opField h
  · simpa only [aField_packWord] using congrArg aField h
  · simpa only [bField_packWord] using congrArg bField h
  · simpa only [cField_packWord] using congrArg cField h

theorem decode_packWord (op a b c : Byte) : decode (.command (packWord op a b c)) = decodeFields op a b c := by
  rw [decode, decodeCommand, opField_packWord, aField_packWord, bField_packWord, cField_packWord]

/-! ### Operands and reserved bits of a field (R81) -/

theorem addr_extract (x : Addr7) :
    (x.setWidth 8 : Byte).getLsbD 7 = false ∧ (x.setWidth 8 : Byte).extractLsb' 0 7 = x := by
  revert x; decide

theorem mask5_extract (m : Mask5) :
    (m.setWidth 8 : Byte).extractLsb' 5 3 = 0#3 ∧ (m.setWidth 8 : Byte).extractLsb' 0 5 = m := by
  revert m; decide

theorem bit_extract (v : Bool) : (bitByte v).extractLsb' 1 7 = 0#7 ∧ (bitByte v).getLsbD 0 = v := by
  revert v; decide

theorem addr_spelt {a : Byte} (h : a.getLsbD 7 = false) : (a.extractLsb' 0 7).setWidth 8 = a := by
  revert a; decide

theorem mask5_spelt {c : Byte} (h : c.extractLsb' 5 3 = 0#3) : (c.extractLsb' 0 5).setWidth 8 = c := by
  revert c; decide

theorem bit_spelt {c : Byte} (h : c.extractLsb' 1 7 = 0#7) : bitByte (c.getLsbD 0) = c := by
  revert c; decide

theorem addr_masked (a : Byte) : a &&& 0x80 = 0 ↔ a.getLsbD 7 = false := by revert a; decide

theorem mask5_masked (c : Byte) : c &&& 0xE0 = 0 ↔ c.extractLsb' 5 3 = 0#3 := by revert c; decide

theorem bit_masked (c : Byte) : c &&& 0xFE = 0 ↔ c.extractLsb' 1 7 = 0#7 := by revert c; decide

theorem byte_masked (v : Byte) : v &&& 0xFF = 0 ↔ v = 0 := by revert v; decide

theorem free_masked (v : Byte) : v &&& 0x00 = 0 ↔ True := iff_true_intro BitVec.and_zero

/-! ### Decoding an encoding -/

theorem fitsByte_toNat {n : Nat} (h : fitsByte n = true) : (BitVec.ofNat 8 n).toNat = n :=
  Nat.mod_eq_of_lt (of_decide_eq_true h)

section Formats

variable (op : Byte)

theorem decodeF1_bit (v : Bool) (i : Bool → Instr) : decodeF1 op 0 0 (bitByte v) i = .ok (i v) := by
  cases v <;> rfl

theorem decodeF3_addr (x : Addr7) (b : Byte) (i : Addr7 → Byte → Instr) :
    decodeF3 op (x.setWidth 8) b 0 i = .ok (i x b) := by
  simp [decodeF3, ifReservedZero, addr_extract]

theorem decodeF4_addr (x : Addr7) (b c : Byte) (i : Addr7 → Byte → Byte → Instr) :
    decodeF4 op (x.setWidth 8) b c i = .ok (i x b c) := by
  simp [decodeF4, ifReservedZero, addr_extract]

theorem decodeF5_chip {chip : Nat} (h : fitsByte chip = true) (i : Nat → Instr) :
    decodeF5 op (BitVec.ofNat 8 chip) 0 0 i = .ok (i chip) :=
  congrArg (fun n => Except.ok (i n)) (fitsByte_toNat h)

theorem decodeF6_chip {chip : Nat} (h : fitsByte chip = true) (c : Byte) (i : Nat → Byte → Instr) :
    decodeF6 op (BitVec.ofNat 8 chip) 0 c i = .ok (i chip c) :=
  congrArg (fun n => Except.ok (i n c)) (fitsByte_toNat h)

theorem decodeF7_mask (m : Mask5) (i : Mask5 → Instr) : decodeF7 op 0 0 (m.setWidth 8) i = .ok (i m) := by
  simp [decodeF7, ifReservedZero, mask5_extract]

end Formats

/-- Settles O1: the operation code picks the instruction's row, and the row's format reads back each operand. -/
theorem decodeOfEncode : Obligations.DecodeOfEncode := by
  intro i hwf
  cases i with
  | qdelay | construct | destroy | start | stop | rbit | pinit | pcheck | pbuttons | pknob => rfl
  | wbyte v => exact decode_packWord _ _ _ v
  | wbit v | rbyte v => exact (decode_packWord _ _ _ _).trans (decodeF1_bit _ v _)
  | pleds m | pledtick m => exact (decode_packWord _ _ _ _).trans (decodeF7_mask _ m _)
  | readreg x reg => exact (decode_packWord _ _ _ _).trans (decodeF3_addr _ x reg _)
  | writereg x reg v => exact (decode_packWord _ _ _ _).trans (decodeF4_addr _ x reg v _)
  | xread chip | xgetinv chip => exact (decode_packWord _ _ _ _).trans (decodeF5_chip _ hwf _)
  | xwrite chip v | xconfig chip v | xsetinv chip v => exact (decode_packWord _ _ _ _).trans (decodeF6_chip _ hwf v _)
  | writebytes x n | readbytes x n =>
    rw [encode, decode_packWord]
    simp only [decodeFields, BitVec.reduceToNat, decodeF3_addr, fitsByte_toNat hwf]
  | writethenread x wn rcount =>
    obtain ⟨hwn, hrcount⟩ := Bool.and_eq_true_iff.mp hwf
    rw [encode, decode_packWord]
    simp only [decodeFields, BitVec.reduceToNat, decodeF4_addr, fitsByte_toNat hwn, fitsByte_toNat hrcount]
  | wireAddrWrite a => exact (Laws.Spelling.wire_write a).2
  | wireAddrRead a => exact (Laws.Spelling.wire_read a).2
  | regInput | regOutput | regPolinv | regConfig => rfl

/-! ### The rows of R83 -/

/-- The word is the spelling of a well-formed instruction of the row named. -/
structure Spells (w : CmdWord) (name : String) (i : Instr) : Prop where
  word : encode i = .command w
  wf : i.wf = true
  mnemonic : i.mnemonic = name

/-- What a row of R83 says of the decoder: the row's words are those with its operation code that decode, and what they
decode to is spelt by them alone. -/
structure RowDecodes (r : CommandRow) : Prop where
  accepts : ∀ w, w &&& r.mask = r.pattern ↔ opField w = opField r.pattern ∧ ∃ i, decodeCommand w = .ok i
  spells : ∀ w i, opField w = opField r.pattern → decodeCommand w = .ok i → Spells w r.name i

theorem ifReservedZero_ok_iff {op : Byte} {zero : Bool} {i j : Instr} :
    ifReservedZero op zero i = .ok j ↔ zero = true ∧ i = j := by
  cases zero <;> simp [ifReservedZero]

theorem ofNat_byte (v : Byte) : BitVec.ofNat 8 v.toNat = v := by
  rw [BitVec.ofNat_toNat, BitVec.setWidth_eq]

theorem fitsByte_byte (v : Byte) : fitsByte v.toNat = true := decide_eq_true v.isLt

namespace RowDecodes

/-- A row whose mask covers the operation code and the bits `zero` asks to be 0. Below it stands for each format of R81:
what a row of that format needs is that its operands are spelt as the encoder spells them. -/
theorem of_format {r : CommandRow} {op ma mb mc : Byte} {zero : Byte → Byte → Byte → Bool}
    {i : Byte → Byte → Byte → Instr} (hmask : r.mask = packWord 0xFF ma mb mc) (hpat : r.pattern = packWord op 0 0 0)
    (hdec : ∀ a b c, decodeFields op a b c = ifReservedZero op (zero a b c) (i a b c))
    (hzero : ∀ a b c, zero a b c = true ↔ a &&& ma = 0 ∧ b &&& mb = 0 ∧ c &&& mc = 0)
    (hspell : ∀ a b c, zero a b c = true → Spells (packWord op a b c) r.name (i a b c)) : RowDecodes r := by
  have hop : opField r.pattern = op := by rw [hpat, opField_packWord]
  refine ⟨fun w => ?_, fun w j hw hj => ?_⟩
  · have hmatch : w &&& r.mask = r.pattern ↔ opField w = op ∧ zero (aField w) (bField w) (cField w) = true := by
      rw [← packWord_fields w, hmask, hpat, packWord_and, packWord_inj, packWord_fields, hzero]
      exact and_congr_left fun _ => by rw [show (0xFF : Byte) = BitVec.allOnes 8 from rfl, BitVec.and_allOnes]
    rw [hmatch, hop]
    refine and_congr_right fun h => ?_
    simp only [decodeCommand, h, hdec, ifReservedZero_ok_iff, exists_and_left, exists_eq', and_true]
  · rw [hop] at hw
    rw [decodeCommand, hw, hdec, ifReservedZero_ok_iff] at hj
    obtain ⟨hz, rfl⟩ := hj
    rw [← packWord_fields w, hw]
    simpa only [opField_packWord, aField_packWord, bField_packWord, cField_packWord] using hspell _ _ _ hz

variable {r : CommandRow} (op : Byte)

theorem f0 (i : Instr) (hspell : Spells (packWord op 0 0 0) r.name i := by exact ⟨rfl, rfl, rfl⟩)
    (hmask : r.mask = packWord 0xFF 0xFF 0xFF 0xFF := by rfl) (hpat : r.pattern = packWord op 0 0 0 := by rfl)
    (hdec : ∀ a b c, decodeFields op a b c = decodeF0 op a b c i := by exact fun _ _ _ => rfl) :
    RowDecodes r := by
  refine of_format hmask hpat hdec (fun a b c => ?_) fun a b c hz => ?_
  · simp only [byte_masked, Bool.and_eq_true, beq_iff_eq, and_assoc]
  · simp only [Bool.and_eq_true, beq_iff_eq] at hz
    obtain ⟨⟨rfl, rfl⟩, rfl⟩ := hz
    exact hspell

theorem f1 (i : Bool → Instr) (hspell : ∀ v, Spells (packWord op 0 0 (bitByte v)) r.name (i v))
    (hmask : r.mask = packWord 0xFF 0xFF 0xFF 0xFE := by rfl) (hpat : r.pattern = packWord op 0 0 0 := by rfl)
    (hdec : ∀ a b c, decodeFields op a b c = decodeF1 op a b c i := by exact fun _ _ _ => rfl) :
    RowDecodes r := by
  refine of_format hmask hpat hdec (fun a b c => ?_) fun a b c hz => ?_
  · simp only [byte_masked, bit_masked, Bool.and_eq_true, beq_iff_eq, and_assoc]
  · simp only [Bool.and_eq_true, beq_iff_eq] at hz
    obtain ⟨⟨rfl, rfl⟩, hc⟩ := hz
    simpa only [bit_spelt hc] using hspell (c.getLsbD 0)

theorem f2 (i : Byte → Instr) (hspell : ∀ c, Spells (packWord op 0 0 c) r.name (i c))
    (hmask : r.mask = packWord 0xFF 0xFF 0xFF 0x00 := by rfl) (hpat : r.pattern = packWord op 0 0 0 := by rfl)
    (hdec : ∀ a b c, decodeFields op a b c = decodeF2 op a b c i := by exact fun _ _ _ => rfl) :
    RowDecodes r := by
  refine of_format hmask hpat hdec (fun a b c => ?_) fun a b c hz => ?_
  · simp only [byte_masked, free_masked, Bool.and_eq_true, beq_iff_eq, and_true]
  · simp only [Bool.and_eq_true, beq_iff_eq] at hz
    obtain ⟨rfl, rfl⟩ := hz
    exact hspell c

theorem f3 (i : Addr7 → Byte → Instr) (hspell : ∀ x b, Spells (packWord op (x.setWidth 8) b 0) r.name (i x b))
    (hmask : r.mask = packWord 0xFF 0x80 0x00 0xFF := by rfl) (hpat : r.pattern = packWord op 0 0 0 := by rfl)
    (hdec : ∀ a b c, decodeFields op a b c = decodeF3 op a b c i := by exact fun _ _ _ => rfl) :
    RowDecodes r := by
  refine of_format hmask hpat hdec (fun a b c => ?_) fun a b c hz => ?_
  · simp only [byte_masked, addr_masked, free_masked, Bool.and_eq_true, Bool.not_eq_true', beq_iff_eq, true_and]
  · simp only [Bool.and_eq_true, Bool.not_eq_true', beq_iff_eq] at hz
    obtain ⟨ha, rfl⟩ := hz
    simpa only [addr_spelt ha] using hspell (a.extractLsb' 0 7) b

theorem f4 (i : Addr7 → Byte → Byte → Instr)
    (hspell : ∀ x b c, Spells (packWord op (x.setWidth 8) b c) r.name (i x b c))
    (hmask : r.mask = packWord 0xFF 0x80 0x00 0x00 := by rfl) (hpat : r.pattern = packWord op 0 0 0 := by rfl)
    (hdec : ∀ a b c, decodeFields op a b c = decodeF4 op a b c i := by exact fun _ _ _ => rfl) :
    RowDecodes r := by
  refine of_format hmask hpat hdec (fun a b c => ?_) fun a b c hz => ?_
  · simp only [addr_masked, free_masked, Bool.not_eq_true', and_true]
  · simpa only [addr_spelt (Bool.not_eq_true' _ ▸ hz)] using hspell (a.extractLsb' 0 7) b c

theorem f5 (i : Nat → Instr) (hspell : ∀ a : Byte, Spells (packWord op a 0 0) r.name (i a.toNat))
    (hmask : r.mask = packWord 0xFF 0x00 0xFF 0xFF := by rfl) (hpat : r.pattern = packWord op 0 0 0 := by rfl)
    (hdec : ∀ a b c, decodeFields op a b c = decodeF5 op a b c i := by exact fun _ _ _ => rfl) :
    RowDecodes r := by
  refine of_format hmask hpat hdec (fun a b c => ?_) fun a b c hz => ?_
  · simp only [byte_masked, free_masked, Bool.and_eq_true, beq_iff_eq, true_and]
  · simp only [Bool.and_eq_true, beq_iff_eq] at hz
    obtain ⟨rfl, rfl⟩ := hz
    exact hspell a

theorem f6 (i : Nat → Byte → Instr) (hspell : ∀ a c : Byte, Spells (packWord op a 0 c) r.name (i a.toNat c))
    (hmask : r.mask = packWord 0xFF 0x00 0xFF 0x00 := by rfl) (hpat : r.pattern = packWord op 0 0 0 := by rfl)
    (hdec : ∀ a b c, decodeFields op a b c = decodeF6 op a b c i := by exact fun _ _ _ => rfl) :
    RowDecodes r := by
  refine of_format hmask hpat hdec (fun a b c => ?_) fun a b c hz => ?_
  · simp only [byte_masked, free_masked, beq_iff_eq, true_and, and_true]
  · obtain rfl := beq_iff_eq.mp hz
    exact hspell a c

theorem f7 (i : Mask5 → Instr) (hspell : ∀ m, Spells (packWord op 0 0 (m.setWidth 8)) r.name (i m))
    (hmask : r.mask = packWord 0xFF 0xFF 0xFF 0xE0 := by rfl) (hpat : r.pattern = packWord op 0 0 0 := by rfl)
    (hdec : ∀ a b c, decodeFields op a b c = decodeF7 op a b c i := by exact fun _ _ _ => rfl) :
    RowDecodes r := by
  refine of_format hmask hpat hdec (fun a b c => ?_) fun a b c hz => ?_
  · simp only [byte_masked, mask5_masked, Bool.and_eq_true, beq_iff_eq, and_assoc]
  · simp only [Bool.and_eq_true, beq_iff_eq] at hz
    obtain ⟨⟨rfl, rfl⟩, hc⟩ := hz
    simpa only [mask5_spelt hc] using hspell (c.extractLsb' 0 5)

end RowDecodes

theorem rowsPrimitives_decode : ∀ r ∈ rowsPrimitives, RowDecodes r := by
  simp only [rowsPrimitives, List.forall_mem_cons]
  exact ⟨.f0 0x01 .qdelay, .f0 0x02 .construct, .f0 0x03 .destroy, .f0 0x04 .start, .f0 0x05 .stop,
    .f1 0x06 .wbit fun _ => ⟨rfl, rfl, rfl⟩,
    .f0 0x07 .rbit,
    .f2 0x08 .wbyte fun _ => ⟨rfl, rfl, rfl⟩,
    .f1 0x09 .rbyte fun _ => ⟨rfl, rfl, rfl⟩, nofun⟩

theorem rowsTransactions_decode : ∀ r ∈ rowsTransactions, RowDecodes r := by
  simp only [rowsTransactions, List.forall_mem_cons]
  exact ⟨.f3 0x10 (fun x n => .writebytes x n.toNat)
      fun _ n => ⟨by rw [encode, ofNat_byte], fitsByte_byte n, rfl⟩,
    .f3 0x11 (fun x count => .readbytes x count.toNat)
      fun _ count => ⟨by rw [encode, ofNat_byte], fitsByte_byte count, rfl⟩,
    .f4 0x12 (fun x wn rcount => .writethenread x wn.toNat rcount.toNat)
      fun _ wn rcount => ⟨by rw [encode, ofNat_byte, ofNat_byte],
        Bool.and_eq_true_iff.mpr ⟨fitsByte_byte wn, fitsByte_byte rcount⟩, rfl⟩,
    .f3 0x13 .readreg fun _ _ => ⟨rfl, rfl, rfl⟩,
    .f4 0x14 .writereg fun _ _ _ => ⟨rfl, rfl, rfl⟩, nofun⟩

theorem rowsExpander_decode : ∀ r ∈ rowsExpander, RowDecodes r := by
  simp only [rowsExpander, List.forall_mem_cons]
  exact ⟨.f5 0x20 .xread fun a => ⟨by rw [encode, ofNat_byte], fitsByte_byte a, rfl⟩,
    .f6 0x21 .xwrite fun a _ => ⟨by rw [encode, ofNat_byte], fitsByte_byte a, rfl⟩,
    .f6 0x22 .xconfig fun a _ => ⟨by rw [encode, ofNat_byte], fitsByte_byte a, rfl⟩,
    .f6 0x23 .xsetinv fun a _ => ⟨by rw [encode, ofNat_byte], fitsByte_byte a, rfl⟩,
    .f5 0x24 .xgetinv fun a => ⟨by rw [encode, ofNat_byte], fitsByte_byte a, rfl⟩, nofun⟩

theorem rowsPanel_decode : ∀ r ∈ rowsPanel, RowDecodes r := by
  simp only [rowsPanel, List.forall_mem_cons]
  exact ⟨.f0 0x30 .pinit, .f0 0x31 .pcheck, .f0 0x32 .pbuttons, .f0 0x33 .pknob,
    .f7 0x34 .pleds fun _ => ⟨rfl, rfl, rfl⟩,
    .f7 0x35 .pledtick fun _ => ⟨rfl, rfl, rfl⟩, nofun⟩

theorem commandTable_decode : ∀ r ∈ commandTable, RowDecodes r := by
  simp only [commandTable, List.forall_mem_append]
  exact ⟨⟨⟨rowsPrimitives_decode, rowsTransactions_decode⟩, rowsExpander_decode⟩, rowsPanel_decode⟩

/-- No two rows have one name. -/
theorem row_eq_of_name : ∀ r ∈ commandTable, ∀ r' ∈ commandTable, r.name = r'.name → r = r' := by decide

/-- The match on the operation code as a number, read back as a code of the table. -/
theorem row_of_code {op : Byte} {n : Nat} (hop : op.toNat = n)
    (hn : ∃ r ∈ commandTable, BitVec.ofNat 8 n = opField r.pattern) : ∃ r ∈ commandTable, op = opField r.pattern := by
  rwa [← hop, ofNat_byte] at hn

/-- A word that decodes has the operation code of a row (R88). -/
theorem row_of_decodes {w : CmdWord} {i : Instr} (h : decodeCommand w = .ok i) :
    ∃ r ∈ commandTable, opField w = opField r.pattern := by
  unfold decodeCommand decodeFields at h
  split at h
  case h_26 => cases h
  all_goals exact row_of_code ‹_› (by decide)

/-- Settles O2: the row says which words with its operation code decode, and no other row has its name. -/
theorem wordSpellsCommandIffRowMatches : Obligations.WordSpellsCommandIffRowMatches := by
  intro w r hr
  have hrow := commandTable_decode r hr
  constructor
  · intro hmatch
    obtain ⟨hop, i, hi⟩ := (hrow.accepts w).mp hmatch
    exact ⟨i, hi, (hrow.spells w i hop hi).mnemonic⟩
  · rintro ⟨i, hi, hname⟩
    obtain ⟨r', hr', hop⟩ := row_of_decodes hi
    have hname' := ((commandTable_decode r' hr').spells w i hop hi).mnemonic
    obtain rfl := row_eq_of_name r hr r' hr' (hname.symm.trans hname')
    exact (hrow.accepts w).mpr ⟨hop, i, hi⟩

/-! ### Wire bytes (R84, R85) -/

theorem addrByte_extract (b : Byte) : addrByte (b.extractLsb' 1 7) (b.getLsbD 0) = b := by revert b; decide

/-- A wire byte that decodes is the one the encoder writes at its position. -/
theorem encode_of_decodeWireByte {p : BytePosition} {b : Byte} {i : Instr} (h : decodeWireByte p b = .ok i) :
    encode i = .wireByte p b ∧ i.wf = true := by
  cases p with
  | address =>
    have hb := congrArg (Encoded.wireByte .address) (addrByte_extract b)
    rw [decodeWireByte] at h
    cases hd : b.getLsbD 0 with
    | false | true =>
      rw [hd] at h hb
      cases h
      exact ⟨hb, rfl⟩
  | pointer =>
    rw [decodeWireByte] at h
    split at h
    case h_5 => cases h
    all_goals
      cases h
      exact ⟨congrArg (Encoded.wireByte .pointer) (BitVec.eq_of_toNat_eq (Eq.symm ‹b.toNat = _›)), rfl⟩

/-- Settles O3: the rows say it of a word, the two positions of a byte. -/
theorem encodeOfDecode : Obligations.EncodeOfDecode := by
  intro e i h
  cases e with
  | command w =>
    obtain ⟨r, hr, hop⟩ := row_of_decodes h
    have hs := (commandTable_decode r hr).spells w i hop h
    exact ⟨hs.word, hs.wf⟩
  | wireByte p b => exact encode_of_decodeWireByte h

/-! ### The table's bits (R83 to R85) -/

/-- An instruction read from a row's bits is what the decoder makes of the word or byte they spell. -/
theorem decode_of_decodeTableWord {nbits w : Nat} {i : Instr} (h : decodeTableWord nbits w = some i) :
    ∃ e, tableEncoded nbits w = some e ∧ decode e = .ok i := by
  unfold decodeTableWord at h
  split at h
  · rename_i e he
    cases hd : decode e with
    | error => rw [hd] at h; cases h
    | ok j => rw [hd] at h; cases h; exact ⟨e, he, hd⟩
  · cases h

/-! ### Written out (R81, R84, R85, R88) -/

/-- Settles O4: the decoder run on each word. -/
theorem sampleWordsDecode : Obligations.SampleWordsDecode := by
  unfold Obligations.SampleWordsDecode
  decide

/-- Settles O5: every address and direction evaluated. -/
theorem addressByteIsShiftedAddress : Obligations.AddressByteIsShiftedAddress := by
  unfold Obligations.AddressByteIsShiftedAddress
  decide

end Sys2Proof

namespace Sys2Proof.Machine

/-! ### A word placed for the next step (R21) -/

theorem withFetchWord_eq {nbits w : Nat} {e : Encoded} (h : tableEncoded nbits w = some e) (s : State) :
    s.withFetchWord nbits w = { s with inputs := presenting e :: s.inputs } := by
  simp [State.withFetchWord, placeWord, h]

/-- Settles O7: the move placed is at the head of the list, and an idle block runs what it decodes to. -/
theorem fetchWordIsRunNext : Obligations.FetchWordIsRunNext := by
  intro s nbits w i hh hu hw
  obtain ⟨e, he, hd⟩ := decode_of_decodeTableWord hw
  rw [withFetchWord_eq he]
  obtain ⟨hcommand, hbyte⟩ := stepRunsDecodedInstruction { s with inputs := presenting e :: s.inputs } s.inputs i hh hu
  cases e with
  | command cmd => exact ⟨some cmd, hcommand cmd rfl hd⟩
  | wireByte p b => exact ⟨s.cmd, hbyte p b rfl hd⟩

/-! ### The wire rows run (R84, R85) -/

/-- A wire row is WBYTE of the byte it stands for, under its own name. -/
theorem exec_wireRow {i : Instr} {v : Byte} (h : i.wireByteValue = some v) (s : State) :
    exec i s = runCommand i (needsOwned s) none (wbyte v) s := by
  cases i with
  | wireAddrWrite a =>
    obtain rfl := Option.some.inj h
    rw [(Laws.Spelling.wire_write a).1]
    exact exec_eq _ s
  | wireAddrRead a =>
    obtain rfl := Option.some.inj h
    rw [(Laws.Spelling.wire_read a).1]
    exact exec_eq _ s
  | regInput | regOutput | regPolinv | regConfig => cases h; exact exec_eq _ s
  | _ => cases h

/-- The latches of a byte written with the clock low, as the monitor reads them (R86). -/
theorem framesFrom_byteWave_alone (d : Bool) (v : Byte) : framesFrom (false, d) [] (byteWave false v) = [sent v] := by
  simpa only [List.append_nil, framesFrom] using framesFrom_byteWave (d := d) v []

theorem byteWave_length (c : Bool) (v : Byte) : (byteWave c v).length = 36 := rfl

theorem ackAt_zero (s : State) : ackAt s 0 = !(s.levelAt 35).sda := by rw [ackAt, Nat.zero_add, ackFlag]

/-- A command whose body writes one byte, accepted on a bus whose clock nobody holds: its frame, its acknowledgement and
what it leaves (R138). -/
theorem wbyteCommand_completes (i : Instr) {s : State} (v : Byte) (hr : s.Ready) (howned : s.owned = true)
    (hn : NoChips s) (hc : ClockFree s 37) :
    ∃ t, runCommand i (needsOwned s) none (wbyte v) s = .next t ∧ Completed s t ∧
      (s.sclOut = false → framesFrom (false, s.sdaOut) [] (latchWave (traceSince s t)) = [sent v]) ∧
      durationBetween s t = 36 ∧ t.ackf = (!(s.levelAt 35).sda) ∧ t.sclOut = false ∧ t.sdaOut = true ∧
      SameModes s t ∧ SameResults s t ∧ SameHostSide s t := by
  obtain ⟨t, hexec, hdone, hres, hhost, hwave, hlatches, hdur, hmodes, hack, hrun⟩ :=
    command_completes (op_wbyte v) (i := i) hr (needsOwned_of howned) rfl hn rfl hc nofun
  obtain ⟨hscl, hsda⟩ := Prod.mk.inj hlatches
  have hmodes' := (sameModes_wbyte v (beginCommand i s)).trans hmodes
  refine ⟨t, hexec, hdone, fun hlow => ?_, ?_, ?_, hscl, hsda, hmodes', hres, hhost⟩
  · rw [hwave, State.latches, hlow, framesFrom_byteWave_alone]
  · rw [hdur, byteWave_length]
  · rw [hack, wbyte_ackf v (live_beginCommand hr) hn hrun, ackAt_beginCommand, ackAt_zero]

/-- Settles O32: a wire row is WBYTE of its byte, which completes on lines owned and is refused on others. -/
theorem wireRowSendsItsByte : Obligations.WireRowSendsItsByte := by
  intro i s v hv hr
  rw [exec_wireRow hv]
  refine ⟨wbyteCommand_completes i v hr, fun howned => ?_⟩
  have hcode : needsOwned s = some .notOwned := by simp [needsOwned, howned]
  rw [runCommand_refused hr (.inl hcode), refused, ErrCode.code]
  obtain ⟨hidle, -, -, -⟩ := hr
  rw [← hidle]

end Sys2Proof.Machine

/-! PROOFS. The family of 40_line_control.md: QDELAY, CONSTRUCT and DESTROY run to their end, and what each command leaves
of the ownership of the lines. -/

namespace Sys2Proof.Machine

/-! ### QDELAY (R115) -/

/-- A plain `Q()` goes on unless the lines are owned, the clock is let go and another device holds it low (R243, cause (a)). -/
theorem quarter_plain_runs_of_causeless {s : State} (h : Live s)
    (hc : s.owned = true → s.sclOut = true → (s.levelAt 0).scl = true) : (quarter .plain s).hung = false := by
  have hcheck : (quarter .plain s).hung =
      (s.owned && (s.sclOut && !(lineContribution s.sclMode s.sclOut && (s.levelAt 0).scl))) :=
    (quarter_hung .plain h).trans (busHangs_plain (environmentTurn s))
  cases howned : s.owned with
  | false => rw [hcheck, howned, Bool.false_and]
  | true =>
    cases hlatch : s.sclOut with
    | false => rw [hcheck, hlatch, Bool.false_and, Bool.and_false]
    | true => exact quarter_plain_running h (hc howned hlatch)

/-- Settles O24: the one `Q()` of the body meets no cause of a hang, and it keeps latches, modes and `ACKF`. -/
theorem qdelayCompletes : Obligations.QdelayCompletes := by
  intro s hr hc
  have hrun := quarter_plain_runs_of_causeless (live_beginCommand (i := .qdelay) hr) hc
  have hran := ran_quarter .plain (live_beginCommand hr) hrun
  have hlines := keptLines_quarter .plain (beginCommand .qdelay s)
  obtain ⟨hdone, hres, hhost, hmodes, hlatches, hackf, htrace⟩ :=
    endCommand_facts ((kept_begin .qdelay s).trans (kept_quarter .plain _)) hran.live
  obtain ⟨hscl, hsda⟩ := Prod.mk.inj hlatches
  obtain ⟨hscl', hsda'⟩ := quarter_latches .plain (beginCommand .qdelay s)
  exact ⟨_, exec_runs hr ⟨nofun, nofun, nofun, nofun⟩, hdone, (durationBetween_congr htrace).trans hran.duration,
    ⟨hscl.trans hscl', hsda.trans hsda'⟩, hlines.modes.trans hmodes, hackf.trans hlines.ackf, hres, hhost⟩

/-! ### CONSTRUCT and DESTROY (R116, R117) -/

theorem setScl_trace {s : State} (v : Bool) (h : Live s) : (setScl v s).trace = .setScl v :: s.trace := by
  rw [setScl, act_of_live h]; rfl

theorem setSda_trace {s : State} (v : Bool) (h : Live s) : (setSda v s).trace = .setSda v :: s.trace := by
  rw [setSda, act_of_live h]; rfl

theorem setSclMode_trace {s : State} (m : LineMode) (h : Live s) :
    (setSclMode m s).trace = .setSclMode m :: s.trace := by
  rw [setSclMode, act_of_live h]; rfl

theorem setSdaMode_trace {s : State} (m : LineMode) (h : Live s) :
    (setSdaMode m s).trace = .setSdaMode m :: s.trace := by
  rw [setSdaMode, act_of_live h]; rfl

/-- The micro-operations of `construct()`, newest first: latches before modes, clock before data (R119). -/
theorem construct_trace {s : State} (h : Live s) : (construct s).trace =
    [.setSdaMode .odOut, .setSclMode .odOut, .setSda true, .setScl true] ++ s.trace := by
  have hscl := setScl_live (v := true) h
  have hsda := setSda_live (v := true) hscl
  rw [construct, setSdaMode_trace _ (setSclMode_live hsda), setSclMode_trace _ hsda, setSda_trace _ hscl,
    setScl_trace _ h]
  rfl

/-- The micro-operations of `destroy()`, newest first (R119). -/
theorem destroy_trace {s : State} (h : Live s) :
    (destroy s).trace = [.setSdaMode .input, .setSclMode .input] ++ s.trace := by
  rw [destroy, setSdaMode_trace _ (setSclMode_live h), setSclMode_trace _ h]
  rfl

theorem owned_of_odOut {s : State} (hscl : s.sclMode = .odOut) (hsda : s.sdaMode = .odOut) : s.owned = true := by
  rw [State.owned, hscl, hsda]; rfl

theorem owned_of_input {s : State} (hscl : s.sclMode = .input) : s.owned = false := by
  rw [State.owned, hscl]; rfl

/-- Settles O25: none of the four micro-operations of the body can hang. -/
theorem constructCompletes : Obligations.ConstructCompletes := by
  intro s hr hfree
  have hl := live_beginCommand (i := .construct) hr
  obtain ⟨hran, hidle, hscl, hsda, hackf'⟩ := construct_ran hl
  obtain ⟨hdone, hres, hhost, ⟨hsclMode, hsdaMode⟩, hlatches, hackf, htrace⟩ :=
    endCommand_facts ((kept_begin .construct s).trans (kept_construct _)) hran.live
  exact ⟨_, exec_runs hr ⟨nofun, fun _ => hfree, nofun, nofun⟩, hdone,
    traceSince_of_append (htrace.trans (construct_trace hl)), Prod.mk.inj (hlatches.trans hidle),
    owned_of_odOut (hsclMode.trans hscl) (hsdaMode.trans hsda), hackf.trans hackf', hres, hhost⟩

/-- Settles O26: neither of the two micro-operations of the body can hang or touches a latch. -/
theorem destroyCompletes : Obligations.DestroyCompletes := by
  intro s hr howned
  have hl := live_beginCommand (i := .destroy) hr
  obtain ⟨hran, hkept, hscl, hsda, hackf'⟩ := destroy_ran hl
  obtain ⟨hdone, hres, hhost, ⟨hsclMode, hsdaMode⟩, hlatches, hackf, htrace⟩ :=
    endCommand_facts ((kept_begin .destroy s).trans (kept_destroy _)) hran.live
  exact ⟨_, exec_runs hr ⟨fun _ => howned, nofun, nofun, nofun⟩, hdone,
    traceSince_of_append (htrace.trans (destroy_trace hl)), Prod.mk.inj (hlatches.trans hkept),
    hsclMode.trans hscl, hsdaMode.trans hsda, owned_of_input (hsclMode.trans hscl), hackf.trans hackf', hres, hhost⟩

/-! ### Ownership after a command (R118) -/

theorem SameModes.owned {s t : State} (h : SameModes s t) : t.owned = s.owned := by
  rw [State.owned, h.1, h.2, State.owned]

theorem sameModes_note {assign : State → State} (s : State) (h : SameModes s (assign s)) :
    SameModes s (note assign s) := by
  unfold note
  split
  · exact ⟨rfl, rfl⟩
  · exact h

theorem sameModes_setRes (v : BitVec 16) (s : State) : SameModes s (setRes v s) := sameModes_note s ⟨rfl, rfl⟩

theorem sameModes_storeRxbuf (bytes : List Byte) (s : State) : SameModes s (storeRxbuf bytes s) :=
  sameModes_note s ⟨rfl, rfl⟩

theorem sameModes_setWasAlive (alive : Bool) (s : State) : SameModes s (setWasAlive alive s) :=
  sameModes_note s ⟨rfl, rfl⟩

theorem sameModes_advancePwm (P : Params) (s : State) : SameModes s (advancePwm P s) := sameModes_note s ⟨rfl, rfl⟩

theorem sameModes_endCommand (s : State) : SameModes s (endCommand s) := by
  unfold endCommand
  split <;> exact ⟨rfl, rfl⟩

theorem hung_setWasAlive {alive : Bool} {s : State} (h : (setWasAlive alive s).hung = false) : s.hung = false :=
  running_before (op := setWasAlive alive) (fun _ => note_of_hung) h

theorem sameModes_readToRes (addr7 : Addr7) (reg : Byte) (s : State) : SameModes s (readToRes addr7 reg s) := by
  rw [readToRes]
  exact (sameModes_readRegister addr7 reg s).trans (sameModes_setRes _ _)

/-- The bodies of layers L1 and L2, of QDELAY and of the wire rows write no mode. -/
theorem bodyOf_modes {i : Instr} (hmakes : i.makesMaster = false) (hdestroy : i ≠ .destroy) (s u : State) :
    SameModes u (bodyOf i s u) := by
  cases i with
  | qdelay => exact (keptLines_quarter _ u).modes
  | start => exact (keptLines_start u).modes
  | stop => exact (keptLines_stop u).modes
  | wbit b => exact (keptLines_wbit b u).modes
  | rbit => exact (keptLines_rbit u).modes.trans (sameModes_setRes _ _)
  | rbyte ack => exact (keptLines_rbyte ack u).modes.trans (sameModes_setRes _ _)
  | wbyte | wireAddrWrite | wireAddrRead | regInput | regOutput | regPolinv | regConfig => exact sameModes_wbyte _ u
  | writebytes a n => exact sameModes_writeBytes a _ u
  | readbytes a n => exact (sameModes_readBytes a n u).trans (sameModes_storeRxbuf _ _)
  | writethenread a wn n => exact (sameModes_writeThenRead a _ n u).trans (sameModes_storeRxbuf _ _)
  | readreg | xread | xgetinv => exact sameModes_readToRes _ _ u
  | writereg | xwrite | xconfig | xsetinv => exact sameModes_writeRegister _ _ _ u
  | destroy => exact absurd rfl hdestroy
  | construct | pinit | pcheck | pbuttons | pknob | pleds | pledtick => cases hmakes

/-- A procedure that ends in `destroy()`, running to its end, gives the lines up. -/
theorem Op.destroyed {op : State → State} {n : Nat} {F : List Nat} {o : Bool × Bool → Bool × Bool}
    {w : Bool × Bool → List (Bool × Bool)} {p : Bool × Bool → Bool} (h : Op op n F o w p) {s : State} (hl : Live s)
    (hr : (destroy (op s)).hung = false) : (destroy (op s)).owned = false :=
  have hrun : (op s).hung = false := running_before (op := destroy) (fun _ => destroy_of_hung) hr
  owned_of_input (destroy_modes (h.ran s hl hrun).1.live).1

theorem panelInit_unowned (P : Params) {s : State} (hl : Live s) (hr : (panelInit P s).hung = false) :
    (panelInit P s).owned = false := by
  rw [panelInit_eq] at hr ⊢
  exact (op_construct.comp (op_writeChips P initWrites)).destroyed hl hr

theorem panelLeds_unowned (P : Params) (m : Mask5) {s : State} (hl : Live s) (hr : (panelLeds P m s).hung = false) :
    (panelLeds P m s).owned = false := by
  rw [panelLeds_eq] at hr ⊢
  exact (op_construct.comp (op_writeChips P _)).destroyed hl hr

theorem readTwo_unowned (P : Params) (chip chip' : Nat) {s : State} (hl : Live s)
    (hr : (readTwo P chip chip' s).hung = false) : (readTwo P chip chip' s).owned = false :=
  ((op_construct.comp (op_readChip P chip REG_INPUT)).comp (op_readChip P chip' REG_INPUT)).destroyed hl hr

/-- The probe is one procedure once the byte it writes back is fixed, and ends in `destroy()` (R210). -/
theorem panelProbe_live_unowned (P : Params) {s : State} (hl : Live s) (hr : (panelProbe P s).2.hung = false) :
    Live (panelProbe P s).2 ∧ (panelProbe P s).2.owned = false := by
  rw [panelProbe_state] at hr ⊢
  generalize probeWord P s = v at hr ⊢
  have hop := ((op_construct.comp (op_readChip P 2 REG_POLINV)).comp
    (op_writeRegister (deviceAddr P 2) REG_POLINV v)).comp (op_readChip P 2 REG_POLINV)
  exact ⟨((hop.comp op_destroy).ran s hl hr).1.live, hop.destroyed hl hr⟩

/-- PCHECK's master is destroyed after the probe, and that of `panel_init()`, where it runs, after that (R210). -/
theorem panelCheck_unowned (P : Params) {s : State} (hl : Live s) (hr : (panelCheck P s).hung = false) :
    (panelCheck P s).owned = false := by
  rw [panelCheck_eq] at hr ⊢
  rw [(sameModes_setRes _ _).owned, (sameModes_setWasAlive _ _).owned]
  have hrun := hung_setWasAlive (hung_setRes hr)
  by_cases hinit : ((panelProbe P s).1 && !(panelProbe P s).2.wasAlive) = true
  · rw [if_pos hinit] at hrun ⊢
    have hprobe := running_before (op := panelInit P) (op_panelInit P).ofHung hrun
    exact panelInit_unowned P (panelProbe_live_unowned P hl hprobe).1 hrun
  · rw [if_neg hinit] at hrun ⊢
    exact (panelProbe_live_unowned P hl hrun).2

/-- DESTROY and every panel command, running to their end, give the lines up. -/
theorem bodyOf_unowned {i : Instr} (hi : i = .destroy ∨ i.isPanel = true) {s u : State} (hl : Live u)
    (hr : (bodyOf i s u).hung = false) : (bodyOf i s u).owned = false := by
  obtain rfl | hi := hi
  · exact owned_of_input (destroy_modes hl).1
  · cases i with
    | pinit => exact panelInit_unowned _ hl hr
    | pcheck => exact panelCheck_unowned _ hl hr
    | pbuttons =>
      rw [bodyOf, panelButtons_eq] at hr ⊢
      exact (sameModes_setRes _ _).owned.trans (readTwo_unowned _ 0 2 hl (hung_setRes hr))
    | pknob =>
      rw [bodyOf, panelKnob_eq] at hr ⊢
      exact (sameModes_setRes _ _).owned.trans (readTwo_unowned _ 0 1 hl (hung_setRes hr))
    | pleds m => exact panelLeds_unowned _ m hl hr
    | pledtick m =>
      rw [bodyOf, panelLedTick] at hr ⊢
      exact (sameModes_advancePwm _ _).owned.trans (panelLeds_unowned _ _ hl (hung_pwm hr))
    | _ => cases hi

theorem ErrCode.code_ne_zero (c : ErrCode) : c.code ≠ 0 := by cases c <;> decide

/-- An instruction that leaves the error latch clear was not refused: it has run. -/
theorem exec_ran_of_err {i : Instr} {s t : State} (h : exec i s = .next t) (hs : s.err = 0) (ht : t.err = 0) :
    t = endCommand (bodyOf i s (beginCommand i s)) := by
  obtain ⟨-, -, ⟨hlatched, -⟩ | ⟨-, c, -, rfl⟩ | ⟨-, -, -, hrun⟩⟩ := exec_next h
  · exact absurd hs hlatched
  · exact absurd ht c.code_ne_zero
  · exact hrun

/-- Settles O50: the command has run to its end, so CONSTRUCT has set both modes, DESTROY and the panel commands have
destroyed the master, and the others have written no mode. -/
theorem ownershipAfterCommand : Obligations.OwnershipAfterCommand := by
  intro i s t hr he hh herr
  have hl := live_beginCommand (i := i) hr
  obtain ⟨-, -, -, hclear⟩ := hr
  obtain rfl := exec_ran_of_err he hclear herr
  rw [end_hung] at hh
  rw [(sameModes_endCommand _).owned]
  have hkept (hmakes : i.makesMaster = false) (hdestroy : i ≠ .destroy) :
      (bodyOf i s (beginCommand i s)).owned = s.owned := (bodyOf_modes hmakes hdestroy s _).owned
  cases i with
  | construct =>
    obtain ⟨-, -, hscl, hsda, -⟩ := construct_ran hl
    exact owned_of_odOut hscl hsda
  | destroy => exact bodyOf_unowned (.inl rfl) hl hh
  | pinit | pcheck | pbuttons | pknob | pleds | pledtick => exact bodyOf_unowned (.inr rfl) hl hh
  | _ => exact hkept rfl nofun

end Sys2Proof.Machine

/-! PROOFS. The family of 41_i2c_primitives.md: START, STOP, WBIT, RBIT, WBYTE and RBYTE on a bus whose clock nobody
holds. -/

namespace Sys2Proof.Machine

/-! ### Start and stop conditions, a bit written (R131, R132, R134) -/

/-- A command whose body is one procedure that writes neither modes nor `ACKF`, accepted on a bus that lets it run: the
waveform is the procedure's, and everything but the latches is left as it was. -/
theorem lineCommand_completes {op : State → State} {n : Nat} {F : List Nat} {o : Bool × Bool → Bool × Bool}
    {w : Bool × Bool → List (Bool × Bool)} (h : Op op n F o w fun _ => true) (hkept : ∀ u, KeptLines u (op u))
    (i : Instr) {s : State} (hr : s.Ready) (howned : s.owned = true) (hn : NoChips s) (hc : ClockFree s n)
    (hd : ∀ k ∈ F, DataFree s k) :
    ∃ t, runCommand i (needsOwned s) none op s = .next t ∧ Completed s t ∧ latchWave (traceSince s t) = w s.latches ∧
      t.trace = (op (beginCommand i s)).trace ∧ t.latches = o s.latches ∧ SameModes s t ∧ t.ackf = s.ackf ∧
      SameResults s t ∧ SameHostSide s t := by
  obtain ⟨hran, hlatches', hregs⟩ := op_command h i hr hn rfl hc hd
  obtain ⟨hdone, hres, hhost, hmodes, hlatches, hackf, htrace⟩ := endCommand_facts hregs hran.live
  have hlines := hkept (beginCommand i s)
  exact ⟨_, runCommand_ready hr (needsOwned_of howned) rfl, hdone,
    (congrArg latchWave (traceSince_congr htrace)).trans hran.wave, htrace, hlatches.trans hlatches',
    hlines.modes.trans hmodes, hackf.trans hlines.ackf, hres, hhost⟩

/-- Settles O27: `start()` meets no cause of a hang, the data line being free at its second observation. -/
theorem startCompletes : Obligations.StartCompletes := by
  intro s hr howned hn hc hd
  obtain ⟨t, hexec, hdone, hwave, -, hlatches, hleft⟩ := lineCommand_completes op_start keptLines_start .start hr howned
    hn hc (List.forall_mem_singleton.mpr hd)
  obtain ⟨hscl, hsda⟩ := Prod.mk.inj hlatches
  exact ⟨t, (exec_eq .start s).trans hexec, hdone, hwave, hscl, hsda, hleft⟩

/-- Settles O28: `stop()` meets no cause of a hang, the data line being free at its third observation. -/
theorem stopCompletes : Obligations.StopCompletes := by
  intro s hr howned hn hc hd
  obtain ⟨t, hexec, hdone, hwave, -, hlatches, hleft⟩ := lineCommand_completes op_stop keptLines_stop .stop hr howned
    hn hc (List.forall_mem_singleton.mpr hd)
  exact ⟨t, (exec_eq .stop s).trans hexec, hdone, hwave, Prod.mk.inj hlatches, hleft⟩

/-- Settles O29: none of the micro-operations of `wbit(b)` is a sample. -/
theorem wbitCompletes : Obligations.WbitCompletes := by
  intro s b hr howned hn hc
  obtain ⟨t, hexec, hdone, hwave, htrace, hlatches, hleft⟩ := lineCommand_completes (op_wbit b) (keptLines_wbit b)
    (.wbit b) hr howned hn hc nofun
  obtain ⟨hscl, hsda⟩ := Prod.mk.inj hlatches
  have hunsampled : ∀ v, .sample v ∉ traceSince s t := fun v =>
    traceSince_congr htrace ▸ (unsampled_wbit b (beginCommand (.wbit b) s)).traceSince v
  exact ⟨t, (exec_eq (.wbit b) s).trans hexec, hdone, hwave, hunsampled, hscl, hsda, hleft⟩

/-! ### A bit read (R136) -/

theorem setWidth_ofBool (b : Bool) : (BitVec.ofBool b).setWidth 16 = if b then 1 else 0 := by cases b <;> rfl

/-- Settles O30: `RES` is the bit `rbit()` returns, the level at its fourth observation. -/
theorem rbitCompletes : Obligations.RbitCompletes := by
  intro s hr howned hn hc
  obtain ⟨t, hexec, hdone, hsame, hhost, hwave, hlatches, -, hmodes, hackf, hrun, hres⟩ :=
    command_completes_res (v := fun u => (BitVec.ofBool (rbit u).1).setWidth 16) op_rbit (i := .rbit) hr
      (needsOwned_of howned) rfl hn rfl hc nofun
  have hlines := keptLines_rbit (beginCommand .rbit s)
  obtain ⟨hscl, hsda⟩ := Prod.mk.inj hlatches
  have hbit : (rbit (beginCommand .rbit s)).1 = (s.levelAt 3).sda := rbit_value (live_beginCommand hr) hn hrun
  refine ⟨t, (exec_eq .rbit s).trans hexec, hdone, hwave, ?_, hscl, hsda, hlines.modes.trans hmodes,
    hackf.trans hlines.ackf, hsame, hhost⟩
  rw [hres, hbit, setWidth_ofBool]

/-! ### Bytes (R138, R140) -/

/-- Settles O31: WBYTE is the command whose body writes one byte. -/
theorem wbyteCompletes : Obligations.WbyteCompletes := by
  intro s v hr howned hn hc
  rw [exec_eq]
  exact wbyteCommand_completes (.wbyte v) v hr howned hn hc

/-- Bit n of a byte read from observation `o` on is the sample of its (7 - n)-th bit read (20_memory.md R52). -/
theorem byteAt_getLsbD (s : State) (o : Nat) {n : Nat} (hn : n < 8) :
    (byteAt s o).getLsbD n = (s.levelAt (o + 5 * (7 - n) + 3)).sda :=
  byteOfMsbFirst_getLsbD (fun j => (s.levelAt (o + 5 * j + 3)).sda) hn

/-- The latches of a byte read with the clock low, as the monitor reads them (30_encoding.md R86). -/
theorem framesFrom_byteReadWave_alone (d ack : Bool) :
    framesFrom (false, d) [] (byteReadWave false ack) = [.byte 0xFF (!ack)] := by
  simpa only [List.append_nil, framesFrom, received] using framesFrom_byteReadWave (d := d) ack []

/-- Settles O33: `RES` is the byte `rbyte(ack)` returns, zero-extended; the ninth bit written is the answer. -/
theorem rbyteCompletes : Obligations.RbyteCompletes := by
  intro s ack hr howned hn hc
  obtain ⟨t, hexec, hdone, hsame, hhost, hwave, hlatches, hdur, hmodes, hackf, hrun, hres⟩ :=
    command_completes_res (v := fun u => (rbyte ack u).1.setWidth 16) (op_rbyte ack) (i := .rbyte ack) hr
      (needsOwned_of howned) rfl hn rfl hc nofun
  have hlines := keptLines_rbyte ack (beginCommand (.rbyte ack) s)
  obtain ⟨hscl, hsda⟩ := Prod.mk.inj hlatches
  have hbyte : t.res = (byteAt s 0).setWidth 16 := by
    rw [hres, rbyte_value ack (live_beginCommand hr) hn hrun, byteAt_beginCommand]
  refine ⟨t, (exec_eq (.rbyte ack) s).trans hexec, hdone, fun n hn8 => ?_, ?_, fun hlow => ?_, ?_, hscl, hsda,
    hlines.modes.trans hmodes, hackf.trans hlines.ackf, hsame, hhost⟩
  · rw [hbyte, BitVec.getLsbD_setWidth, byteAt_getLsbD s 0 hn8, decide_eq_true (by omega), Bool.true_and, Nat.zero_add]
  · rw [hbyte, BitVec.toNat_setWidth_of_le (by decide)]
    exact (byteAt s 0).isLt
  · rw [hwave, State.latches, hlow, framesFrom_byteReadWave_alone]
  · rw [hdur, length_byteReadWave]

end Sys2Proof.Machine

/-! PROOFS. The family of 42_i2c_transactions.md: WRITEBYTES, READBYTES, WRITETHENREAD, READREG and WRITEREG on a bus
that lets them run, and the waveform of every command, which no device can change (R143, R161). -/

namespace Sys2Proof.Machine

/-! ### Transactions that begin on an idle bus (30_encoding.md R87) -/

theorem txPayload_length (s : State) (n : Nat) : (txPayload s n).length = n := by
  rw [txPayload, List.length_map, List.length_range]

/-- A waveform that depends on the clock latch alone is the frame it is from an idle bus. -/
theorem masterFrames_of_wave {s t : State} {frame : List FrameSymbol} (wave : Bool → List (Bool × Bool))
    (hwave : latchWave (traceSince s t) = wave s.latches.1) (hframe : frames (wave true) = frame) (hidle : s.BusIdle) :
    masterFrames s t = frame := by
  obtain ⟨hscl, -⟩ := hidle
  rw [masterFrames, hwave, State.latches, hscl, hframe]

/-! ### Writes (R162, R175) -/

/-- A command whose body is one write transaction, accepted on a bus that lets it run: its frame, the acknowledgement of
its last byte and what it leaves. -/
theorem writeCommand_completes (i : Instr) {opr : Option ErrCode} {s : State} (addr7 : Addr7) (bytes : List Byte)
    (hr : s.Ready) (howned : s.owned = true) (hopr : opr = none) (hn : NoChips s)
    (hc : ClockFree s (writeDraws bytes.length)) (hd : WriteFree s 0 bytes.length) :
    ∃ t, runCommand i (needsOwned s) opr (writeBytes addr7 bytes) s = .next t ∧ Completed s t ∧
      (s.BusIdle → masterFrames s t = writeFrame addr7 bytes) ∧ durationBetween s t = writeQuarters bytes.length ∧
      t.ackf = ackAt s (4 + 37 * bytes.length) ∧ t.BusIdle ∧ SameModes s t ∧ SameResults s t ∧ SameHostSide s t := by
  have hfree : ∀ k ∈ [1, 43 + 37 * bytes.length], DataFree s k := by simpa [WriteFree] using hd
  obtain ⟨t, hexec, hdone, hres, hhost, hwave, hlatches, hdur, hmodes, hack, hrun⟩ :=
    command_completes (op_writeBytes addr7 bytes) (i := i) hr (needsOwned_of howned) hopr hn rfl hc hfree
  exact ⟨t, hexec, hdone, masterFrames_of_wave (writeWave · addr7 bytes) hwave (frames_writeWave addr7 bytes),
    hdur.trans (length_writeWave _ addr7 bytes),
    hack.trans (writeBytes_ackf addr7 bytes (live_beginCommand hr) hn hrun),
    Prod.mk.inj hlatches, (sameModes_writeBytes addr7 bytes (beginCommand i s)).trans hmodes, hres, hhost⟩

/-- Settles O34: WRITEBYTES is one write transaction with the payload of `TXBUF`. -/
theorem writebytesCompletes : Obligations.WritebytesCompletes := by
  intro s addr7 n hr howned hn hc hd
  rw [← txPayload_length s n] at hc hd
  have hrun := writeCommand_completes (.writebytes addr7 n) addr7 (txPayload s n) hr howned rfl hn hc hd
  rw [txPayload_length] at hrun
  exact hrun

/-- Settles O38: WRITEREG is one write transaction with the register pointer and the value. -/
theorem writeregCompletes : Obligations.WriteregCompletes := by
  intro s addr7 reg value hr howned hn hc hd
  exact writeCommand_completes (.writereg addr7 reg value) addr7 [reg, value] hr howned rfl hn hc hd

/-! ### Reads (R163 to R166, R172) -/

/-- Settles O35: the bytes `read_bytes` returns are the environment's, and they go to `RXBUF` from index 0 on. -/
theorem readbytesCompletes : Obligations.ReadbytesCompletes := by
  intro s addr7 count hr howned hpos hcount hn hc hd
  have hfree : ∀ k ∈ [1, 43 + 44 * count], DataFree s k := by simpa [ReadFree] using hd
  obtain ⟨t, hexec, hdone, hsame, hhost, hwave, hlatches, hdur, hmodes, hack, hrun, hrx⟩ :=
    command_completes_rxbuf (v := fun u => (readBytes addr7 count u).1) (op_readBytes addr7 count)
      (i := .readbytes addr7 count) hr (needsOwned_of howned) (checkCount_of hpos) hn rfl hc hfree
  obtain ⟨hbytes, hack'⟩ := readBytes_value addr7 count (live_beginCommand hr) hn hrun
  rw [hbytes] at hrx
  obtain ⟨hread, hkept⟩ := readCell_writeCells_range hcount hrx
  exact ⟨t, hexec, hdone, masterFrames_of_wave (readBytesWave · addr7 count) hwave (frames_readBytesWave addr7 count),
    hdur.trans (length_readBytesWave _ addr7 count), hread, hkept, hack.trans hack', Prod.mk.inj hlatches,
    (sameModes_readBytes addr7 count (beginCommand _ s)).trans hmodes, hsame, hhost⟩

/-- Settles O36: WRITETHENREAD is one `write_then_read` with the payload of `TXBUF`, and the bytes it returns go to `RXBUF`
from index 0 on. -/
theorem writethenreadCompletes : Obligations.WritethenreadCompletes := by
  intro s addr7 wn rcount hr howned hpos hcount hn hc hd
  have hlen := txPayload_length s wn
  have hfree : ∀ k ∈ [1, 42 + 37 * (txPayload s wn).length, 84 + 37 * (txPayload s wn).length + 44 * rcount],
      DataFree s k := by simpa [WriteThenReadFree, hlen] using hd
  obtain ⟨t, hexec, hdone, hsame, hhost, hwave, hlatches, hdur, hmodes, hack, hrun, hrx⟩ :=
    command_completes_rxbuf (v := fun u => (writeThenRead addr7 (txPayload s wn) rcount u).1)
      (op_writeThenRead addr7 (txPayload s wn) rcount) (i := .writethenread addr7 wn rcount) hr (needsOwned_of howned)
      (checkCount_of hpos) hn rfl (hlen.symm ▸ hc) hfree
  obtain ⟨hbytes, hack'⟩ := writeThenRead_value addr7 (txPayload s wn) rcount (live_beginCommand hr) hn hrun
  rw [hbytes, hlen] at hrx
  rw [hlen] at hack'
  obtain ⟨hread, hkept⟩ := readCell_writeCells_range hcount hrx
  refine ⟨t, hexec, hdone,
    masterFrames_of_wave (writeThenReadWave · addr7 _ rcount) hwave (frames_writeThenReadWave addr7 _ rcount), ?_, hread,
    hkept, hack.trans hack', Prod.mk.inj hlatches,
    (sameModes_writeThenRead addr7 _ rcount (beginCommand _ s)).trans hmodes, hsame, hhost⟩
  rw [hdur, length_writeThenReadWave, hlen, writeThenReadQuarters]

/-- A command whose body reads one register into `RES`, accepted on a bus that lets it run: its frame, the byte and what
it leaves. -/
theorem registerReadCommand_completes (i : Instr) {opr : Option ErrCode} {s : State} (addr7 : Addr7) (reg : Byte)
    (hr : s.Ready) (howned : s.owned = true) (hopr : opr = none) (hn : NoChips s) (hc : ClockFree s 166)
    (hd : WriteThenReadFree s 0 1 1) :
    ∃ t, runCommand i (needsOwned s) opr (readToRes addr7 reg) s = .next t ∧ Completed s t ∧
      (s.BusIdle → masterFrames s t = writeThenReadFrame addr7 [reg] 1) ∧ durationBetween s t = 155 ∧
      t.res = (byteAt s 119).setWidth 16 ∧ t.ackf = ackAt s 82 ∧ t.BusIdle ∧ SameModes s t ∧ SameButRes s t ∧
      SameHostSide s t := by
  have hfree : ∀ k ∈ [1, 79, 165], DataFree s k := by simpa [WriteThenReadFree] using hd
  obtain ⟨t, hexec, hdone, hsame, hhost, hwave, hlatches, hdur, hmodes, hack, hrun, hres⟩ :=
    command_completes_res (v := fun u => (readRegister addr7 reg u).1.setWidth 16) (op_readRegister addr7 reg) (i := i) hr
      (needsOwned_of howned) hopr hn rfl hc hfree
  obtain ⟨hbyte, hack'⟩ := readRegister_value addr7 reg (live_beginCommand hr) hn hrun
  exact ⟨t, hexec, hdone,
    masterFrames_of_wave (writeThenReadWave · addr7 [reg] 1) hwave (frames_writeThenReadWave addr7 [reg] 1),
    hdur.trans (length_writeThenReadWave _ addr7 [reg] 1), hres.trans (congrArg (BitVec.setWidth 16) hbyte),
    hack.trans hack', Prod.mk.inj hlatches, (sameModes_readRegister addr7 reg (beginCommand i s)).trans hmodes, hsame,
    hhost⟩

/-- Settles O37: READREG is one register read into `RES`. -/
theorem readregCompletes : Obligations.ReadregCompletes := by
  intro s addr7 reg hr howned hn hc hd
  rw [exec_eq]
  exact registerReadCommand_completes (.readreg addr7 reg) addr7 reg hr howned rfl hn hc hd

/-! ### What the master drives (41_i2c_primitives.md R143, R161) -/

theorem txPayload_congr {s s' : State} (h : ∀ k, s'.txByte k = s.txByte k) (n : Nat) :
    txPayload s' n = txPayload s n := by
  rw [txPayload, funext h, txPayload]

/-- The waveform of an instruction is a function of its operands, the payload and the PWM count. -/
theorem waveOf_congr {s s' : State} (i : Instr) (l : Bool × Bool) (htx : ∀ k, s'.txByte k = s.txByte k)
    (hpwm : s'.pwmCnt = s.pwmCnt) : waveOf i s' l = waveOf i s l := by
  cases i with
  | writebytes a n => exact congrArg (writeWave l.1 a) (txPayload_congr htx n)
  | writethenread a wn n => exact congrArg (writeThenReadWave l.1 a · n) (txPayload_congr htx wn)
  | pledtick m => rw [waveOf, hpwm, waveOf]
  | _ => rfl

/-- Ownership is judged by the modes alone. -/
theorem ownershipOf_congr {s s' : State} (i : Instr) (h : SameModes s s') : ownershipOf i s' = ownershipOf i s := by
  rw [ownershipOf, needsOwned, needsFree, h.owned]
  rfl

/-- Nothing happened on the lines between two states with one record. -/
theorem latchWave_of_same_trace {s t : State} (h : t.trace = s.trace) : latchWave (traceSince s t) = [] := by
  rw [traceSince_of_append (new := []) h]
  rfl

/-- Settles O52: whether a command is refused depends on the modes and the operands, and the waveform of one that runs is
`waveOf`, which no device has a part in. -/
theorem waveformDoesNotDependOnEnvironment : Obligations.WaveformDoesNotDependOnEnvironment := by
  intro i s s' t t' hi hr hr' hlatches hmodes htx hpwm hexec hexec' hh hh'
  have hown := ownershipOf_congr i hmodes
  have hl : s'.latches = s.latches := Prod.ext hlatches.1 hlatches.2
  obtain ⟨-, htrace, c, hc⟩ | ⟨-, ho, hp, hwave⟩ := exec_wave hi hr hexec hh
  · obtain ⟨-, htrace', -⟩ | ⟨-, ho', hp', -⟩ := exec_wave hi hr' hexec' hh'
    · rw [latchWave_of_same_trace htrace, latchWave_of_same_trace htrace']
    · rw [← hown, ho', hp'] at hc
      simp at hc
  · obtain ⟨-, -, c, hc⟩ | ⟨-, -, -, hwave'⟩ := exec_wave hi hr' hexec' hh'
    · rw [hown, ho, hp] at hc
      simp at hc
    · rw [hwave, hwave', hl, waveOf_congr i _ htx hpwm]

end Sys2Proof.Machine

/-! PROOFS. The family of 43_expander.md: the five expander commands as register accesses of the chip at
`EXP_BASE + chip` (R181 to R186), and the round trip against the reference expander (R189). -/

namespace Sys2Proof.Machine

/-! ### One register access per command (R182 to R186) -/

/-- `i` reads the register `reg` of the chip (R182, R186). -/
abbrev ReadsExpander (i : Instr) (chip : Nat) (reg : Byte) : Prop :=
  i = .xread chip ∧ reg = 0x00 ∨ i = .xgetinv chip ∧ reg = 0x02

/-- `i` writes `v` to the register `reg` of the chip (R183 to R185). -/
abbrev WritesExpander (i : Instr) (chip : Nat) (reg v : Byte) : Prop :=
  i = .xwrite chip v ∧ reg = 0x01 ∨ i = .xconfig chip v ∧ reg = 0x03 ∨ i = .xsetinv chip v ∧ reg = 0x02

theorem exec_of_readsExpander {i : Instr} {chip : Nat} {reg : Byte} (hi : ReadsExpander i chip reg) (s : State) :
    exec i s = runCommand i (needsOwned s) (checkAddr Config.params chip)
      (readToRes (deviceAddr Config.params chip) reg) s := by
  obtain ⟨rfl, rfl⟩ | ⟨rfl, rfl⟩ := hi
  · exact exec_eq (.xread chip) s
  · exact exec_eq (.xgetinv chip) s

theorem exec_of_writesExpander {i : Instr} {chip : Nat} {reg v : Byte} (hi : WritesExpander i chip reg v) (s : State) :
    exec i s = runCommand i (needsOwned s) (checkAddr Config.params chip)
      (writeRegister (deviceAddr Config.params chip) reg v) s := by
  obtain ⟨rfl, rfl⟩ | ⟨rfl, rfl⟩ | ⟨rfl, rfl⟩ := hi
  · exact exec_eq (.xwrite chip v) s
  · exact exec_eq (.xconfig chip v) s
  · exact exec_eq (.xsetinv chip v) s

/-- Settles O39: the body of both commands is one register read into `RES`. -/
theorem expanderReadsComplete : Obligations.ExpanderReadsComplete := by
  intro s chip i reg hi hchip hr howned hn hc hd
  rw [exec_of_readsExpander hi]
  exact registerReadCommand_completes i (deviceAddr Config.params chip) reg hr howned (checkAddr_of hchip) hn hc hd

/-- Settles O40: the body of the three commands is one write transaction with the register pointer and the value. -/
theorem expanderWritesComplete : Obligations.ExpanderWritesComplete := by
  intro s chip v i reg hi hchip hr howned hn hc hd
  rw [exec_of_writesExpander hi]
  exact writeCommand_completes i (deviceAddr Config.params chip) [reg, v] hr howned (checkAddr_of hchip) hn hc hd

/-! ### Commands one after the other to a reference expander (R61) -/

/-- Between two commands: the block owns the idle bus and takes the next command, and the one device on the lines is
the chip, at rest, for the next `n` observations and `m` turns of the environment. -/
structure Attended (s : State) (c : Chip) (n m : Nat) : Prop where
  ready : s.Ready
  owned : s.owned = true
  idle : s.BusIdle
  only : OnlyChip s c n m
  rest : c.AtRest

theorem Attended.begun {s : State} {c : Chip} {n m : Nat} (h : Attended s c n m) (i : Instr) :
    OneChip (beginCommand i s) c (true, true) n m := h.only.begun h.ready h.owned h.idle i

/-- A command that leaves the lines idle and the chip at rest leaves the chip attended. -/
theorem OneChip.attended_endCommand {u : State} {c : Chip} {n m : Nat} (h : OneChip u c (true, true) n m)
    (hrest : c.AtRest) (herr : u.err = 0) : Attended (endCommand u) c n m := by
  rw [endCommand_of_live h.live]
  exact ⟨⟨rfl, h.live.hung, h.live.budget, herr⟩, h.owned, ⟨h.sclOut, h.sdaOut⟩,
    ⟨h.chips, h.envScl, h.envSda, h.free, h.still⟩, hrest⟩

namespace Attended

variable {s : State} {c : Chip} {n m chip : Nat} {i : Instr} {reg : Byte}

/-- An expander write of the chip stores the value where its pointer says, and leaves the chip attended. -/
theorem expanderWrite {v : Byte} (h : Attended s c (n + 118) (m + 206)) (hi : WritesExpander i chip reg v)
    (hchip : Config.params.expBase + chip ≤ 0x7F) (haddr : c.addr = deviceAddr Config.params chip) :
    ∃ t c', exec i s = .next t ∧ Attended t c' n m ∧ SameRegisters ((c.pointedAt reg).store v) c' ∧
      c'.addr = c.addr ∧ c'.ext = c.ext := by
  obtain ⟨-, c', hc, hrest, hsame, haddr', hext, -⟩ := (h.begun i).writeRegister h.rest reg v
  have hkept := (kept_begin i s).trans (stableKept.writeRegister c.addr reg v _)
  obtain ⟨-, -, -, herr⟩ := h.ready
  rw [exec_of_writesExpander hi, runCommand_ready h.ready (needsOwned_of h.owned) (checkAddr_of hchip), ← haddr]
  exact ⟨_, c', rfl, hc.attended_endCommand hrest (hkept.err.trans herr), hsame, haddr', hext⟩

/-- An expander read of the chip returns the register its pointer selects. -/
theorem expanderRead (h : Attended s c (n + 166) (m + 285)) (hi : ReadsExpander i chip reg)
    (hchip : Config.params.expBase + chip ≤ 0x7F) (haddr : c.addr = deviceAddr Config.params chip) :
    ∃ t, exec i s = .next t ∧ Completed s t ∧ t.res = (c.pointedAt reg).selected.setWidth 16 := by
  obtain ⟨hbyte, -, c', hc, -⟩ := (h.begun i).readRegister h.rest reg
  have hkept := (kept_begin i s).trans (stableKept.readRegister c.addr reg _)
  rw [exec_of_readsExpander hi, runCommand_ready h.ready (needsOwned_of h.owned) (checkAddr_of hchip), ← haddr,
    readToRes, endCommand_setRes hc.live]
  generalize Machine.readRegister c.addr reg (beginCommand i s) = r at hbyte hc hkept ⊢
  exact ⟨_, rfl, ⟨rfl, hc.live.hung, hc.live.budget, rfl, hkept.err⟩, congrArg (BitVec.setWidth 16) hbyte⟩

end Attended

/-- The Input register as its read sends it: the pins, inverted where the Polarity-Invert register says (R61). -/
theorem Chip.selected_input (c : Chip) : (c.pointedAt 0x00).selected = c.pins ^^^ c.inv := rfl

/-- Settles O59: each of the three writes sets its own register and leaves the others, and the read selects the Input
register, which R61 makes of all three and of the external levels. -/
theorem expanderRoundTrip : Obligations.ExpanderRoundTrip := by
  intro s c k cfg inv v hchip haddr hr howned hidle honly hrest
  have h : Attended s c 520 903 := ⟨hr, howned, hidle, honly, hrest⟩
  obtain ⟨s1, c1, hexec1, h1, hregs1, haddr1, hext1⟩ :=
    h.expanderWrite (n := 402) (m := 697) (v := cfg) (.inr (.inl ⟨rfl, rfl⟩)) hchip haddr
  have haddr1 := haddr1.trans haddr
  obtain ⟨s2, c2, hexec2, h2, hregs2, haddr2, hext2⟩ :=
    h1.expanderWrite (n := 284) (m := 491) (v := inv) (.inr (.inr ⟨rfl, rfl⟩)) hchip haddr1
  have haddr2 := haddr2.trans haddr1
  obtain ⟨s3, c3, hexec3, h3, hregs3, haddr3, hext3⟩ :=
    h2.expanderWrite (n := 166) (m := 285) (v := v) (.inl ⟨rfl, rfl⟩) hchip haddr2
  obtain ⟨t, hexec, ⟨hupc, hhung, hbudget, hcmd, herr⟩, hres⟩ :=
    h3.expanderRead (n := 0) (m := 0) (.inl ⟨rfl, rfl⟩) hchip (haddr3.trans haddr2)
  have hsame : s3.err = s.err := by
    obtain ⟨-, -, -, herr0⟩ := hr
    obtain ⟨-, -, -, herr3⟩ := h3.ready
    rw [herr3, herr0]
  obtain ⟨-, -, hcfg1⟩ : c1.out = c.out ∧ c1.inv = c.inv ∧ c1.cfg = cfg := hregs1
  obtain ⟨-, hinv2, hcfg2⟩ : c2.out = c1.out ∧ c2.inv = inv ∧ c2.cfg = c1.cfg := hregs2
  obtain ⟨hout3, hinv3, hcfg3⟩ : c3.out = v ∧ c3.inv = c2.inv ∧ c3.cfg = c2.cfg := hregs3
  refine ⟨s1, s2, s3, t, hexec1, hexec2, hexec3, hexec, ⟨hupc, hhung, hbudget, hcmd, herr.trans hsame⟩, ?_⟩
  rw [hres, Chip.selected_input, Chip.pins, hout3, hcfg3, hcfg2, hcfg1, hext3, hext2, hext1, hinv3, hinv2]

end Sys2Proof.Machine

/-! PROOFS. The family of 44_panel.md: PINIT, PCHECK, PBUTTONS, PKNOB, PLEDS and PLEDTICK run to their end in a master of
their own and give the lines up (R202). -/

namespace Sys2Proof.Machine

/-! ### A panel procedure that has run, and the end of its command -/

/-- `u` is reached from `s` by a panel procedure that made `n` observations and drove `wave`: the lines are let go, and `ACKF`
is the acknowledgement of the byte sent from observation `o` on. -/
structure PanelRan (s u : State) (n : Nat) (wave : List (Bool × Bool)) (o : Nat) : Prop where
  ran : Ran s u n wave
  kept : Kept s u
  released : u.Released
  ackf : u.ackf = ackAt s o

/-- One panel procedure after another. -/
theorem PanelRan.trans {s u v : State} {n m o o' : Nat} {w w' : List (Bool × Bool)} (h : PanelRan s u n w o)
    (k : PanelRan u v m w' o') : PanelRan s v (n + m) (w ++ w') (n + o') :=
  ⟨h.ran.trans k.ran, h.kept.trans k.kept, k.released, k.ackf.trans (ackAt_ran h.ran o')⟩

/-- A procedure that leaves both latches 1, both modes INPUT and `ACKF` known runs so on a bus that nobody holds. -/
theorem Op.panelRan {op : State → State} {n o : Nat} {F : List Nat} {wave : List (Bool × Bool)}
    (h : Op op n F (fun _ => (true, true)) (fun _ => wave) fun _ => true) {u : State}
    (htail : (op u).hung = false → (op u).sclMode = .input ∧ (op u).sdaMode = .input ∧ (op u).ackf = ackAt u o)
    (hl : Live u) (hn : NoChips u) (hc : ClockFree u n) (hd : ∀ k ∈ F, DataFree u k) : PanelRan u (op u) n wave o := by
  have hrun := h.smooth u hl hn rfl hc hd
  obtain ⟨hran, hlatches⟩ := h.ran u hl hrun
  obtain ⟨hscl, hsda, hack⟩ := htail hrun
  exact ⟨hran, h.kept u, ⟨hscl, hsda, Prod.mk.inj hlatches⟩, hack⟩

/-- The end of a panel command whose procedures left `u`: its results are written and the sequencer is idle. -/
def panelEnd (u : State) (res : BitVec 16) (alive : Bool) (pwm : Nat) : State :=
  { becomeIdle u with res := res, wasAlive := alive, pwmCnt := pwm }

/-- Whatever results it writes, a panel command leaves the lines let go and everything but the results as it was. -/
theorem PanelRan.ended {i : Instr} {s u : State} {n o : Nat} {wave : List (Bool × Bool)}
    (h : PanelRan (beginCommand i s) u n wave o) (res : BitVec 16) (alive : Bool) (pwm : Nat) :
    Completed s (panelEnd u res alive pwm) ∧ masterFrames s (panelEnd u res alive pwm) = frames wave ∧
      durationBetween s (panelEnd u res alive pwm) = wave.length ∧ (panelEnd u res alive pwm).ackf = ackAt s o ∧
      (panelEnd u res alive pwm).Released ∧ (panelEnd u res alive pwm).rxbuf = s.rxbuf ∧
      SameHostSide s (panelEnd u res alive pwm) := by
  obtain ⟨hran, hkept, hreleased, hack⟩ := h
  exact ⟨⟨rfl, hran.live.hung, hran.live.budget, rfl, hkept.err⟩, congrArg frames hran.wave, hran.duration, hack,
    hreleased, hkept.rxbuf, hkept.txbuf, hkept.inputs, hkept.hostData⟩

/-- Lines that nobody owns are all a panel command asks for (R204). -/
theorem accepted_of_panel {i : Instr} (hi : i.isPanel = true) {s : State} (hfree : s.owned = false) : Accepted i s := by
  cases i with
  | pinit | pcheck | pbuttons | pknob | pleds | pledtick => exact ⟨nofun, fun _ => hfree, nofun, nofun⟩
  | _ => cases hi

/-! ### Register writes: PINIT, PLEDS and PLEDTICK (R203, R222, R226) -/

theorem panelInit_ran {u : State} (hl : Live u) (hn : NoChips u) (hc : ClockFree u 944)
    (hd : ∀ k < 8, WriteFree u (118 * k) 2) :
    PanelRan u (panelInit Config.params u) 944 (writesWave Config.params initWrites) 904 := by
  have hdata := writesFree_eight (o := 0) (by simpa only [Nat.zero_add] using hd)
  exact (op_panelInit _).panelRan (panelInit_tail _ hl hn) hl hn hc (by simpa only [Nat.zero_add] using hdata)

/-- The register writes of `panel_leds(m)` (R222). -/
abbrev ledWrites (m : Mask5) : List (Nat × Byte × Byte) :=
  [(0, REG_OUTPUT, ledOutput 0 m), (2, REG_OUTPUT, ledOutput 2 m)]

theorem panelLeds_ran (m : Mask5) {u : State} (hl : Live u) (hn : NoChips u) (hc : ClockFree u 236)
    (hd : WriteFree u 0 2) (hd' : WriteFree u 118 2) :
    PanelRan u (panelLeds Config.params m u) 236 (writesWave Config.params (ledWrites m)) 196 := by
  obtain ⟨hstart, hstop⟩ := hd
  obtain ⟨hstart', hstop'⟩ := hd'
  have hdata : ∀ k ∈ [1, 117, 119, 235], DataFree u k := by
    simpa only [List.forall_mem_cons] using ⟨hstart, hstop, hstart', hstop', nofun⟩
  exact (op_panelLeds _ m).panelRan (panelLeds_tail _ m hl hn) hl hn hc hdata

/-- A panel command that returns nothing and writes the registers `ws` one after the other. -/
theorem PanelRan.writes_complete {i : Instr} {s : State} {n o : Nat} {ws : List (Nat × Byte × Byte)} (hr : s.Ready)
    (hfree : s.owned = false) (hi : i.isPanel = true)
    (h : PanelRan (beginCommand i s) (bodyOf i s (beginCommand i s)) n (writesWave Config.params ws) o) :
    ∃ t, exec i s = .next t ∧ Completed s t ∧
      masterFrames s t = (ws.flatMap fun w => writeFrame (deviceAddr Config.params w.1) [w.2.1, w.2.2]) ∧
      durationBetween s t = 115 * ws.length ∧ t.ackf = ackAt s o ∧ t.Released ∧ SameResults s t ∧ SameHostSide s t := by
  have hexec := exec_runs hr (accepted_of_panel hi hfree)
  generalize bodyOf i s (beginCommand i s) = u at h hexec
  obtain ⟨hdone, hframes, hdur, hack, hreleased, hrx, hhost⟩ := h.ended u.res u.wasAlive u.pwmCnt
  exact ⟨_, hexec.trans (congrArg Host.Outcome.next (endCommand_of_live h.ran.live)), hdone,
    hframes.trans (frames_writesWave _ ws), hdur.trans (length_writesWave _ ws), hack, hreleased,
    ⟨h.kept.res, hrx, h.kept.wasAlive, h.kept.pwmCnt⟩, hhost⟩

/-- Settles O41: the eight writes are one procedure, and none of them can hang on a free bus. -/
theorem pinitCompletes : Obligations.PinitCompletes := by
  intro s hr hfree hn hc hd
  have hran : PanelRan (beginCommand .pinit s) _ _ _ _ := panelInit_ran (live_beginCommand hr) hn hc hd
  rw [← initFrames_eq]
  exact hran.writes_complete hr hfree rfl

/-- Settles O45: the two writes carry the Output values of the pin map, which are those R222 prints. -/
theorem pledsCompletes : Obligations.PledsCompletes := by
  intro s m hr hfree hn hc hd hd'
  have hran : PanelRan (beginCommand (.pleds m) s) _ _ _ _ := panelLeds_ran m (live_beginCommand hr) hn hc hd hd'
  rw [← ledFrames_eq]
  exact hran.writes_complete hr hfree rfl

theorem tickMask_eq (P : Params) (cnt : Nat) (m : Mask5) : tickMask P cnt m =
    (if decide (cnt < P.pwmBaseThresh) then 0b11111 else 0b00000) |||
      (if decide (cnt < P.pwmPressedThresh) then m else 0b00000) := by
  simp only [tickMask, decide_eq_true_eq]

/-- Settles O46: the LED mask is compared against the count before `panel_leds` writes it and before the count advances. -/
theorem pledtickCompletes : Obligations.PledtickCompletes := by
  intro s m hr hfree hn hc hd hd' onBase onPressed
  have hran : PanelRan (beginCommand (.pledtick m) s) _ _ _ _ :=
    panelLeds_ran (tickMask Config.params s.pwmCnt m) (live_beginCommand hr) hn hc hd hd'
  have hexec := exec_runs hr (accepted_of_panel (i := .pledtick m) rfl hfree)
  rw [bodyOf, panelLedTick, beginCommand_pwmCnt, endCommand_advancePwm hran.ran.live] at hexec
  generalize panelLeds Config.params _ (beginCommand (.pledtick m) s) = u at hran hexec
  obtain ⟨hdone, hframes, hdur, hack, hreleased, hrx, hhost⟩ :=
    hran.ended u.res u.wasAlive ((u.pwmCnt + 1) % Config.params.pwmPeriod)
  have hkept := hran.kept
  refine ⟨_, hexec, hdone, ?_, hdur.trans (length_writesWave _ _), ?_, hack, hreleased,
    ⟨hkept.res, hrx, hkept.wasAlive⟩, hhost⟩
  · rw [← tickMask_eq, ← ledFrames_eq]
    exact hframes.trans (frames_writesWave _ _)
  · exact congrArg (fun cnt => (cnt + 1) % Config.params.pwmPeriod) hkept.pwmCnt

/-! ### Register reads: PBUTTONS and PKNOB (R214, R218) -/

theorem readTwo_ran (chip chip' : Nat) {u : State} (hl : Live u) (hn : NoChips u) (hc : ClockFree u 332)
    (hd : WriteThenReadFree u 0 1 1) (hd' : WriteThenReadFree u 166 1 1) :
    PanelRan u (readTwo Config.params chip chip' u) 332
      (writeThenReadWave true (deviceAddr Config.params chip) [REG_INPUT] 1 ++
        writeThenReadWave true (deviceAddr Config.params chip') [REG_INPUT] 1) 248 := by
  obtain ⟨hstart, hrestart, hstop⟩ := hd
  obtain ⟨hstart', hrestart', hstop'⟩ := hd'
  have hdata : ∀ k ∈ [1, 79, 165, 167, 245, 331], DataFree u k := by
    simpa only [List.forall_mem_cons] using ⟨hstart, hrestart, hstop, hstart', hrestart', hstop', nofun⟩
  refine (op_readTwo _ chip chip').panelRan (fun hrun => ?_) hl hn hc hdata
  obtain ⟨-, -, hack, hscl, hsda⟩ := readTwo_facts _ chip chip' hl hn hrun
  exact ⟨hscl, hsda, hack⟩

/-- A panel command that reads two Input registers and returns a value packed from them. -/
theorem readTwoCommand_completes {i : Instr} {s : State} {chip chip' : Nat} (pack : Byte → Byte → BitVec 16)
    (hbody : ∀ u, bodyOf i s u = setRes (pack (readChip Config.params chip REG_INPUT (construct u)).1
      (readChip Config.params chip' REG_INPUT (readChip Config.params chip REG_INPUT (construct u)).2).1)
      (readTwo Config.params chip chip' u))
    (hi : i.isPanel = true) (hr : s.Ready) (hfree : s.owned = false) (hn : NoChips s) (hc : ClockFree s 332)
    (hd : WriteThenReadFree s 0 1 1) (hd' : WriteThenReadFree s 166 1 1) :
    ∃ t, exec i s = .next t ∧ Completed s t ∧ masterFrames s t = chipReadFrame chip 0x00 ++ chipReadFrame chip' 0x00 ∧
      durationBetween s t = 310 ∧ t.res = pack (byteAt s 119) (byteAt s 285) ∧ t.ackf = ackAt s 248 ∧ t.Released ∧
      SameButRes s t ∧ SameHostSide s t := by
  have hl := live_beginCommand (i := i) hr
  have hran : PanelRan (beginCommand i s) _ _ _ _ := readTwo_ran chip chip' hl hn hc hd hd'
  obtain ⟨hbyte, hbyte', -⟩ := readTwo_facts _ chip chip' hl hn hran.ran.live.hung
  have hexec := exec_runs hr (accepted_of_panel hi hfree)
  rw [hbody, hbyte, hbyte', endCommand_setRes hran.ran.live] at hexec
  generalize readTwo Config.params chip chip' (beginCommand i s) = u at hran hexec
  obtain ⟨hdone, hframes, hdur, hack, hreleased, hrx, hhost⟩ :=
    hran.ended (pack (byteAt s 119) (byteAt s 285)) u.wasAlive u.pwmCnt
  refine ⟨_, hexec, hdone, hframes.trans (frames_twoReads _ _ _ _), hdur.trans ?_, rfl, hack, hreleased,
    ⟨hrx, hran.kept.wasAlive, hran.kept.pwmCnt⟩, hhost⟩
  rw [List.length_append, length_writeThenReadWave, length_writeThenReadWave, List.length_singleton, writeThenReadQuarters]

/-- Each bit of the button value is the bit of R214, and there are five of them. -/
theorem packButtons_bits (i0 i2 : Byte) :
    ((packButtons i0 i2).setWidth 16).getLsbD 4 = i2.getLsbD 6 ∧
    ((packButtons i0 i2).setWidth 16).getLsbD 3 = i2.getLsbD 3 ∧
    ((packButtons i0 i2).setWidth 16).getLsbD 2 = i2.getLsbD 0 ∧
    ((packButtons i0 i2).setWidth 16).getLsbD 1 = i0.getLsbD 6 ∧
    ((packButtons i0 i2).setWidth 16).getLsbD 0 = i0.getLsbD 5 ∧ ((packButtons i0 i2).setWidth 16).toNat < 32 := by
  rw [packButtons]
  generalize i2.getLsbD 6 = b4, i2.getLsbD 3 = b3, i2.getLsbD 0 = b2, i0.getLsbD 6 = b1, i0.getLsbD 5 = b0
  revert b4 b3 b2 b1 b0
  decide

/-- Settles O43: the two Input registers are read in order, and `RES` packs their button bits. -/
theorem pbuttonsCompletes : Obligations.PbuttonsCompletes := by
  intro s hr hfree hn hc hd hd' i0 i2
  obtain ⟨t, hexec, hdone, hframes, hdur, hres, hleft⟩ :=
    readTwoCommand_completes (i := .pbuttons) (fun x y => (packButtons x y).setWidth 16) (panelButtons_eq _) rfl hr hfree hn
      hc hd hd'
  obtain ⟨hbit4, hbit3, hbit2, hbit1, hbit0, hlt⟩ := packButtons_bits i0 i2
  rw [← hres] at hbit4 hbit3 hbit2 hbit1 hbit0 hlt
  exact ⟨t, hexec, hdone, hframes, hdur, hbit4, hbit3, hbit2, hbit1, hbit0, hlt, hleft⟩

/-- The knob value as R218 also writes it. -/
theorem packKnob_eq (i0 i1 : Byte) :
    (packKnob i0 i1).setWidth 16 = i1.setWidth 16 <<< 4 ||| (i0 &&& 0x0F).setWidth 16 := by
  have hmask : i0 &&& 0x0F = (i0.extractLsb' 0 4).setWidth 8 := by revert i0; decide
  rw [packKnob, hmask]
  refine BitVec.eq_of_getLsbD_eq fun k hk => ?_
  rw [BitVec.getLsbD_setWidth, BitVec.getLsbD_append, BitVec.getLsbD_or, BitVec.getLsbD_shiftLeft]
  by_cases hlow : k < 4
  · simp [hlow]
  · have hhigh : k - 4 < 16 := by omega
    simp [hlow, hk, hhigh]

/-- Settles O44: the two Input registers are read in order, and `RES` packs their knob bits. -/
theorem pknobCompletes : Obligations.PknobCompletes := by
  intro s hr hfree hn hc hd hd'
  rw [← packKnob_eq]
  exact readTwoCommand_completes (i := .pknob) (fun x y => (packKnob x y).setWidth 16) (panelKnob_eq _) rfl hr hfree hn hc
    hd hd'

/-! ### The probe: PCHECK (R210, R211) -/

/-- The waveform of the probe that writes back the byte `w`. -/
def probeWave (w : Byte) : List (Bool × Bool) :=
  writeThenReadWave true (deviceAddr Config.params 2) [REG_POLINV] 1 ++
    writeWave true (deviceAddr Config.params 2) [REG_POLINV, w] ++
    writeThenReadWave true (deviceAddr Config.params 2) [REG_POLINV] 1

/-- The frames of the probe, whatever the master drives after it. -/
theorem frames_probeWave (w : Byte) (rest : List (Bool × Bool)) :
    frames (probeWave w ++ rest) =
      chipReadFrame 2 0x02 ++ chipWriteFrame 2 0x02 w ++ chipReadFrame 2 0x02 ++ frames rest := by
  simp only [frames, probeWave, List.append_assoc, framesFrom_writeThenReadWave, framesFrom_writeWave]
  rfl

theorem length_probeWave (w : Byte) : (probeWave w).length = 425 := by
  simp only [probeWave, List.length_append, length_writeThenReadWave, length_writeWave]
  rfl

theorem frames_initWave : frames (writesWave Config.params initWrites) = initFrames :=
  (frames_writesWave _ _).trans initFrames_eq

theorem length_initWave : (writesWave Config.params initWrites).length = 920 := length_writesWave _ _

/-- `panel_init()` after the probe, where the panel is to be initialised again. -/
theorem PanelRan.then_panelInit {u v : State} {wave : List (Bool × Bool)} (h : PanelRan u v 450 wave 366) (hn : NoChips v)
    (reinit : Bool) (hc : ClockFree u (if reinit then 1394 else 450))
    (hinit : reinit = true → ∀ k < 8, WriteFree u (450 + 118 * k) 2) :
    PanelRan u (if reinit then panelInit Config.params v else v) (if reinit then 1394 else 450)
      (wave ++ if reinit then writesWave Config.params initWrites else []) (if reinit then 1354 else 366) := by
  cases reinit with
  | false => simpa using h
  | true =>
    have hclock : ClockFree v 944 := fun k hk => by
      rw [h.ran.levels]
      exact hc _ (Nat.add_lt_add_left hk 450)
    have hfree : ∀ k < 8, WriteFree v (118 * k) 2 := fun k hk => by
      simpa only [WriteFree, DataFree, h.ran.levels, Nat.add_assoc] using hinit rfl k hk
    simpa using h.trans (panelInit_ran h.ran.live hn hclock hfree)

/-- Settles O42: the verdict is the probe's, and the panel is initialised exactly if it is alive now and was not before. -/
theorem pcheckCompletes : Obligations.PcheckCompletes := by
  intro s hr hfree hn written alive reinit hc h0 h1 h2 hinit
  have hl := live_beginCommand (i := .pcheck) hr
  have hcprobe : ClockFree s 450 := fun k hk => hc k (Nat.lt_of_lt_of_le hk (by split <;> decide))
  obtain ⟨hran, hlatches, hscl, hsda, hack, hn', hkept, hverdict⟩ :=
    panelProbe_facts Config.params hl hn hcprobe h0 h1 h2
  have hprobe : PanelRan (beginCommand .pcheck s) (panelProbe Config.params (beginCommand .pcheck s)).2 450
      (probeWave written) 366 := ⟨hran, hkept, ⟨hscl, hsda, Prod.mk.inj hlatches⟩, hack⟩
  have hcheck := hprobe.then_panelInit hn' reinit hc hinit
  have hexec := exec_runs hr (accepted_of_panel (i := .pcheck) rfl hfree)
  have hverdict : (panelProbe Config.params (beginCommand .pcheck s)).1 = alive := hverdict
  have hwas : (panelProbe Config.params (beginCommand .pcheck s)).2.wasAlive = s.wasAlive := hkept.wasAlive
  rw [bodyOf, panelCheck_eq, hverdict, hwas, endCommand_setAlive hcheck.ran.live, setWidth_ofBool] at hexec
  generalize (if reinit then _ else _ : State) = u at hcheck hexec
  obtain ⟨hdone, hframes, hdur, hack, hreleased, hrx, hhost⟩ := hcheck.ended (if alive then 1 else 0) alive u.pwmCnt
  rw [frames_probeWave, apply_ite frames, frames_initWave] at hframes
  rw [List.length_append, length_probeWave, apply_ite List.length, length_initWave] at hdur
  exact ⟨_, hexec, hdone, hframes, hdur.trans (by split <;> rfl), rfl, rfl, hack, hreleased,
    ⟨hrx, hcheck.kept.pwmCnt⟩, hhost⟩

end Sys2Proof.Machine

/-! PROOFS. The family of 60_exceptions.md: the refusals of R241 to R249, BUS_HANG (R243), and what leaves either
(R252). -/

namespace Sys2Proof.Machine

/-! ### An idle block answers every instruction (R249) -/

/-- On an idle block an instruction is refused or runs to its end or its hang; which of these, `exec_next` says. -/
theorem exec_total (i : Instr) {s : State} (hh : s.hung = false) (hu : s.upc = .idle) : ∃ t, exec i s = .next t := by
  have hidle : s.busy = false := by rw [State.busy, hu]; rfl
  simp only [exec_eq, runCommand, hh, hidle, Bool.false_eq_true, if_false]
  split
  · exact ⟨_, rfl⟩
  · split <;> exact ⟨_, rfl⟩

/-- What `becomeIdle` leaves of a block that is idle already. -/
theorem becomeIdle_of_idle {s : State} (hu : s.upc = .idle) : becomeIdle s = { s with cmd := none } := by
  rw [becomeIdle, ← hu]

theorem refuse_of_idle (code : ErrCode) {s : State} (hu : s.upc = .idle) :
    refuse code s = { s with err := if s.err = 0 then code.code else s.err, cmd := none } := becomeIdle_of_idle hu

theorem refused_of_idle (code : ErrCode) {s : State} (hu : s.upc = .idle) :
    refused code s = { s with err := code.code, cmd := none } := becomeIdle_of_idle (s := { s with err := code.code }) hu

/-- With the error latch set every instruction is refused, and nothing is written (R29, R249). -/
theorem exec_latched (i : Instr) {s : State} (hh : s.hung = false) (hu : s.upc = .idle) (he : s.err ≠ 0) :
    exec i s = .next { s with cmd := none } := by
  obtain ⟨t, hexec⟩ := exec_total i hh hu
  obtain ⟨-, -, ⟨-, rfl⟩ | ⟨hclear, -⟩ | ⟨hclear, -⟩⟩ := exec_next hexec
  · rw [hexec, becomeIdle_of_idle hu]
  · exact absurd hclear he
  · exact absurd hclear he

/-- The refusal of an instruction by the check that fails first: `ERR` takes its code, and nothing else is written (R241). -/
theorem exec_refused {i : Instr} {s : State} {code : ErrCode} (hh : s.hung = false) (hu : s.upc = .idle)
    (he : s.err = 0) (hc : ownershipOf i s = some code ∨ ownershipOf i s = none ∧ operandsOf i = some code) :
    exec i s = .next { s with err := code.code, cmd := none } := by
  obtain ⟨t, hexec⟩ := exec_total i hh hu
  obtain ⟨-, -, ⟨hset, -⟩ | ⟨-, code', hc', rfl⟩ | ⟨-, ho, hp, -⟩⟩ := exec_next hexec
  · exact absurd he hset
  · obtain rfl : code' = code := by
      obtain ho | ⟨ho, hp⟩ := hc
      · simpa [ho, eq_comm] using hc'
      · simpa [ho, hp, eq_comm] using hc'
    rw [hexec, refused_of_idle _ hu]
  · rw [ho, hp] at hc
    simp at hc

/-- What an instruction leaves in the error latch: what was there, or the code of a check that failed. -/
theorem exec_err {i : Instr} {s t : State} (h : exec i s = .next t) :
    t.err = s.err ∨ s.err = 0 ∧ ∃ c, (ownershipOf i s = some c ∨ operandsOf i = some c) ∧ t = refused c s := by
  obtain ⟨-, -, ⟨-, rfl⟩ | ⟨he, c, hc, rfl⟩ | ⟨-, -, -, rfl⟩⟩ := exec_next h
  · exact .inl rfl
  · exact .inr ⟨he, c, hc.imp_right And.right, rfl⟩
  · exact .inl (effects_endCommand (effects_body i s _ (kept_begin i s))).err

/-- An instruction that meets no refusal leaves the error latch clear, hanging or not. -/
theorem exec_accepted_err {i : Instr} {s : State} (hr : s.Ready) (ha : Accepted i s) :
    ∃ t, exec i s = .next t ∧ t.err = 0 := by
  have heff := effects_endCommand (effects_body i s _ (kept_begin i s))
  have ⟨_, _, _, hclear⟩ := hr
  exact ⟨_, exec_runs hr ha, heff.err.trans hclear⟩

/-! ### Which check fails when (R245 to R248) -/

theorem ownershipOf_of_needsMaster {i : Instr} {s : State} (hi : i.needsMaster = true) (ho : s.owned = false) :
    ownershipOf i s = some .notOwned := by
  simp [ownershipOf, needsOwned, hi, ho]

theorem ownershipOf_of_makesMaster {i : Instr} {s : State} (hi : i.makesMaster = true) (ho : s.owned = true) :
    ownershipOf i s = some .alreadyOwned := by
  have hneeds : i.needsMaster = false := by
    cases i with
    | construct | pinit | pcheck | pbuttons | pknob | pleds | pledtick => rfl
    | _ => cases hi
  simp [ownershipOf, needsFree, hi, hneeds, ho]

theorem ownershipOf_owned {i : Instr} {s : State} (hi : i.needsMaster = true) (ho : s.owned = true) :
    ownershipOf i s = none := by
  simp [ownershipOf, needsOwned, hi, ho]

/-- The ownership check fails with one of its two codes. -/
theorem ownershipOf_code {i : Instr} {s : State} {c : ErrCode} (h : ownershipOf i s = some c) :
    c = .notOwned ∨ c = .alreadyOwned := by
  unfold ownershipOf needsOwned needsFree at h
  split_ifs at h <;> cases h
  · exact .inl rfl
  · exact .inr rfl

theorem operandsOf_of_chip {i : Instr} {chip : Nat} (hi : i.chipOffset = some chip)
    (h : 0x7F < Config.params.expBase + chip) : operandsOf i = some .badAddr := by
  cases i with
  | xread | xwrite | xconfig | xsetinv | xgetinv =>
    cases hi
    exact if_pos h
  | _ => cases hi

theorem operandsOf_of_count {i : Instr} (hi : i.readCount = some 0) : operandsOf i = some .badCount := by
  cases i with
  | readbytes | writethenread =>
    cases hi
    rfl
  | _ => cases hi

/-- The operand check fails with BAD_ADDR for a sum above 0x7F, or with BAD_COUNT. -/
theorem operandsOf_code {i : Instr} {c : ErrCode} (h : operandsOf i = some c) :
    (c = .badAddr ∧ ∃ chip, i.chipOffset = some chip ∧ 0x7F < Config.params.expBase + chip) ∨ c = .badCount := by
  cases i with
  | xread chip | xwrite chip | xconfig chip | xsetinv chip | xgetinv chip =>
    obtain ⟨hsum, ⟨⟩⟩ := Option.ite_none_right_eq_some.mp h
    exact .inl ⟨rfl, chip, rfl, hsum⟩
  | readbytes | writethenread =>
    obtain ⟨-, ⟨⟩⟩ := Option.ite_none_right_eq_some.mp h
    exact .inr rfl
  | _ => cases h

/-- The commands of layer L2 and those with a read count use the lines (R245). -/
theorem needsMaster_of_chip {i : Instr} {chip : Nat} (hi : i.chipOffset = some chip) : i.needsMaster = true := by
  cases i with
  | xread | xwrite | xconfig | xsetinv | xgetinv => rfl
  | _ => cases hi

theorem needsMaster_of_count {i : Instr} {n : Nat} (hi : i.readCount = some n) : i.needsMaster = true := by
  cases i with
  | readbytes | writethenread => rfl
  | _ => cases hi

/-- NOT_OWNED, whatever the operands (R245). -/
theorem exec_notOwned {i : Instr} {s : State} (hh : s.hung = false) (hu : s.upc = .idle) (he : s.err = 0)
    (hi : i.needsMaster = true) (ho : s.owned = false) : exec i s = .next { s with err := 2, cmd := none } :=
  exec_refused hh hu he (.inl (ownershipOf_of_needsMaster hi ho))

/-- ALREADY_OWNED (R246). -/
theorem exec_alreadyOwned {i : Instr} {s : State} (hh : s.hung = false) (hu : s.upc = .idle) (he : s.err = 0)
    (hi : i.makesMaster = true) (ho : s.owned = true) : exec i s = .next { s with err := 3, cmd := none } :=
  exec_refused hh hu he (.inl (ownershipOf_of_makesMaster hi ho))

/-- BAD_ADDR on lines that are owned (R247). -/
theorem exec_badAddr {i : Instr} {s : State} {chip : Nat} (hh : s.hung = false) (hu : s.upc = .idle) (he : s.err = 0)
    (ho : s.owned = true) (hi : i.chipOffset = some chip) (hsum : 0x7F < Config.params.expBase + chip) :
    exec i s = .next { s with err := 4, cmd := none } :=
  exec_refused hh hu he (.inr ⟨ownershipOf_owned (needsMaster_of_chip hi) ho, operandsOf_of_chip hi hsum⟩)

/-- BAD_COUNT on lines that are owned (R248). -/
theorem exec_badCount {i : Instr} {s : State} (hh : s.hung = false) (hu : s.upc = .idle) (he : s.err = 0)
    (ho : s.owned = true) (hi : i.readCount = some 0) : exec i s = .next { s with err := 5, cmd := none } :=
  exec_refused hh hu he (.inr ⟨ownershipOf_owned (needsMaster_of_count hi) ho, operandsOf_of_count hi⟩)

/-! ### Words that match no row (R244) -/

/-- A word decodes exactly if it matches a row of R83. -/
theorem decodes_iff_row_matches (w : CmdWord) :
    (∃ i, decodeCommand w = .ok i) ↔ ∃ r ∈ commandTable, w &&& r.mask = r.pattern := by
  constructor
  · rintro ⟨i, hi⟩
    obtain ⟨r, hr, hop⟩ := row_of_decodes hi
    exact ⟨r, hr, ((commandTable_decode r hr).accepts w).mpr ⟨hop, i, hi⟩⟩
  · rintro ⟨r, hr, hmatch⟩
    exact (((commandTable_decode r hr).accepts w).mp hmatch).2

/-- A word that does not decode is refused with ILLEGAL_CMD, unless an earlier error stays (R244, R249). -/
theorem runWord_of_illegal {w : CmdWord} (h : ∀ i, decodeCommand w ≠ .ok i) (s : State) :
    runWord w s = .next (refuse .illegalCmd s) := by
  cases hd : decodeCommand w with
  | ok i => exact absurd hd (h i)
  | error e => simp [runWord, hd]

/-- The step that takes a word which does not decode. -/
theorem step_illegal {s : State} {w : CmdWord} {rest : List Input} (hh : s.hung = false) (hu : s.upc = .idle)
    (hin : s.inputs = .writeCmd w :: rest) (h : ∀ i, decodeCommand w ≠ .ok i) :
    step s = .next { s with err := if s.err = 0 then 1 else s.err, cmd := none, inputs := rest } :=
  calc step s = runWord w { s with inputs := rest } := step_of_idle hh hu hin fun _ => rfl
    _ = .next (refuse .illegalCmd { s with inputs := rest }) := runWord_of_illegal h _
    _ = _ := congrArg Host.Outcome.next (refuse_of_idle _ hu)

/-- The step that takes a word which decodes. -/
theorem step_of_decode {s : State} {w : CmdWord} {rest : List Input} {i : Instr} (hh : s.hung = false)
    (hu : s.upc = .idle) (hin : s.inputs = .writeCmd w :: rest) (h : decodeCommand w = .ok i) :
    step s = exec i { s with cmd := some w, inputs := rest } :=
  (stepRunsDecodedInstruction s rest i hh hu).1 w hin h

/-- Settles O14: a word decodes exactly if a row matches it, and no check after decoding raises code 1. -/
theorem illegalCommandRefused : Obligations.IllegalCommandRefused := by
  rintro s w rest ⟨hu, hh, -, he⟩ hin
  refine ⟨fun hrows => ?_, fun r hr hmatch t hstep => ?_⟩
  · have hillegal (i : Instr) : decodeCommand w ≠ .ok i := fun hi =>
      let ⟨r, hr, hmatch⟩ := (decodes_iff_row_matches w).mp ⟨i, hi⟩
      hrows r hr hmatch
    rw [step_illegal hh hu hin hillegal, if_pos he]
  · obtain ⟨i, hi⟩ := (decodes_iff_row_matches w).mpr ⟨r, hr, hmatch⟩
    rw [step_of_decode hh hu hin hi] at hstep
    intro ht
    obtain hkept | ⟨-, c, hc | hc, rfl⟩ := exec_err hstep
    · cases (hkept.trans he).symm.trans ht
    · obtain rfl | rfl := ownershipOf_code hc <;> cases ht
    · obtain ⟨rfl, -⟩ | rfl := operandsOf_code hc <;> cases ht

/-! ### The refusals (R245 to R249) -/

/-- Settles O15: the ownership check fails first, and QDELAY has no check to fail. -/
theorem notOwnedRefused : Obligations.NotOwnedRefused := by
  refine ⟨?_, ?_⟩
  · rintro i s ⟨hu, hh, -, he⟩ ho hi -
    exact exec_notOwned hh hu he hi ho
  · exact fun s hr _ => exec_accepted_err hr ⟨nofun, nofun, nofun, nofun⟩

/-- Settles O16: the ownership check fails first. -/
theorem alreadyOwnedRefused : Obligations.AlreadyOwnedRefused := by
  rintro i s ⟨hu, hh, -, he⟩ ho hi
  exact exec_alreadyOwned hh hu he hi ho

/-- Every row fixes the operation code, and the rows of the L1 transactions ask that `a[7]` is 0 (R83). -/
theorem row_fixes_code : ∀ r ∈ commandTable, r.mask.extractLsb' 28 4 = BitVec.allOnes 4 ∧
    (r.pattern.extractLsb' 28 4 = 1 → r.mask.getLsbD 23 = true ∧ r.pattern.getLsbD 23 = false) := by decide

/-- A word of an L1 transaction with `a[7]` set matches no row (R88, R247). -/
theorem transaction_illegal {w : CmdWord} (hop : (w.extractLsb' 28 4).toNat = 1) (ha : w.getLsbD 23 = true)
    (i : Instr) : decodeCommand w ≠ .ok i := by
  intro hi
  obtain ⟨r, hr, hmatch⟩ := (decodes_iff_row_matches w).mp ⟨i, hi⟩
  obtain ⟨hcode, hreserved⟩ := row_fixes_code r hr
  have hpattern : r.pattern.extractLsb' 28 4 = 1 := by
    rw [← hmatch, BitVec.extractLsb'_and, hcode, BitVec.and_allOnes]
    exact BitVec.eq_of_toNat_eq hop
  obtain ⟨hmask, hbit⟩ := hreserved hpattern
  rw [← hmatch, BitVec.getLsbD_and, ha, hmask] at hbit
  cases hbit

/-- Settles O17: the operand check of a chip offset fails exactly above 0x7F, below it the address is the sum, and `a[7]` is a
reserved bit. -/
theorem badAddressRefused : Obligations.BadAddressRefused := by
  refine ⟨?_, ?_, fun chip hsum => deviceAddr_toNat (checkAddr_of hsum), fun w i hop ha => transaction_illegal hop ha i⟩
  · rintro i s chip ⟨hu, hh, -, he⟩ ho hi hsum
    exact exec_badAddr hh hu he ho hi hsum
  · rintro i s t ⟨-, -, -, he⟩ hexec ht
    obtain hkept | ⟨-, c, hc | hc, rfl⟩ := exec_err hexec
    · cases (hkept.trans he).symm.trans ht
    · obtain rfl | rfl := ownershipOf_code hc <;> cases ht
    · obtain ⟨rfl, hchip⟩ | rfl := operandsOf_code hc
      · exact hchip
      · cases ht

/-- Settles O18: the operand check of a read count fails at 0, and a write count is not checked. -/
theorem badCountRefused : Obligations.BadCountRefused := by
  refine ⟨?_, fun s addr7 rcount hr ho => ⟨exec_accepted_err hr ?_, exec_accepted_err hr ?_⟩⟩
  · rintro i s ⟨hu, hh, -, he⟩ ho hi
    exact exec_badCount hh hu he ho hi
  · exact ⟨fun _ => ho, nofun, nofun, nofun⟩
  · exact ⟨fun _ => ho, nofun, nofun, nofun⟩

/-- Settles O19: the latch, then decoding, then ownership, then operands; a refusal is one of these, and anything else has
run. -/
theorem checksInOrder : Obligations.ChecksInOrder := by
  intro s w rest hh hu hin
  refine ⟨fun he => ?_, fun he hillegal => ?_, fun i he hi => ?_, fun t hstep => ?_⟩
  · cases hd : decodeCommand w with
    | ok i =>
      rw [step_of_decode hh hu hin hd]
      exact exec_latched i hh hu he
    | error e =>
      rw [step_illegal hh hu hin (fun i hi => by rw [hd] at hi; cases hi), if_neg he]
  · rw [step_illegal hh hu hin hillegal, if_pos he]
  · rw [step_of_decode hh hu hin hi]
    exact ⟨fun hm ho => exec_notOwned hh hu he hm ho, fun hm ho => exec_alreadyOwned hh hu he hm ho,
      fun _ ho => ⟨fun chip hchip hsum => exec_badAddr hh hu he ho hchip hsum,
        fun hcount => exec_badCount hh hu he ho hcount⟩⟩
  · rw [step_of_idle hh hu hin fun _ => rfl] at hstep
    obtain ⟨i, -, hexec⟩ | ⟨-, rfl⟩ := runWord_next hstep
    · obtain hkept | ⟨-, c, -, rfl⟩ := exec_err hexec
      · exact .inl hkept
      · exact .inr (refused_of_idle c hu)
    · exact .inr (refuse_of_idle _ hu)

/-! ### A `Q()` that hangs (R243) -/

theorem busHangs_iff (c : QuarterCheck) (s : State) : busHangs c s = true ↔
    s.owned = true ∧ (s.sclOut = true ∧ s.sclLine = false ∨ c ≠ .plain ∧ s.sdaLine = false) := by
  simp [busHangs]

/-- `upc` moves on by one with each micro-operation, but not with the one that hangs (R23, R243). -/
theorem act_upc {f : State → State} {s : State} (hl : Live s) :
    (act f s).upc = if (act f s).hung then s.upc else s.upc.advance := by
  rw [act_of_live hl]

theorem setScl_upc {v : Bool} {s : State} (hl : Live s) : (setScl v s).upc = s.upc.advance :=
  (act_upc hl).trans (by rw [← setScl, (setScl_live hl).hung, if_neg Bool.false_ne_true])

theorem setSda_upc {v : Bool} {s : State} (hl : Live s) : (setSda v s).upc = s.upc.advance :=
  (act_upc hl).trans (by rw [← setSda, (setSda_live hl).hung, if_neg Bool.false_ne_true])

theorem quarter_upc {c : QuarterCheck} {s : State} (hl : Live s) :
    (quarter c s).upc = if (quarter c s).hung then s.upc else s.upc.advance := act_upc hl

/-- Settles O20: a `Q()` hangs as its check says at its end, and then keeps its position. -/
theorem quarterHangsExactlyOnCauses : Obligations.QuarterHangsExactlyOnCauses := by
  intro check s hh hb wire
  have hl : Live s := ⟨hh, hb⟩
  refine ⟨?_, sclLine_environmentMoves _, fun hhung => ?_⟩
  · rw [quarter_hung check hl]
    exact busHangs_iff check (quarterEffect (environmentTurn s))
  · rw [quarter_upc hl, if_pos hhung]

/-! ### The causes in commands (R243) -/

theorem endCommand_of_hung {s : State} (h : s.hung = true) : endCommand s = s := by
  simp [endCommand, State.frozen, h]

/-- A `Q()` in a command that owns the lines and has let the clock go hangs where another device holds it: cause (a). -/
theorem quarter_hangs_on_clock (c : QuarterCheck) {s : State} (hl : Live s) (ho : s.owned = true)
    (hscl : s.sclOut = true) (hlow : (s.levelAt 0).scl = false) : (quarter c s).hung = true := by
  obtain ⟨hcauses, hwire, -⟩ := quarterHangsExactlyOnCauses c s hl.hung hl.budget
  rw [hlow, Bool.and_false] at hwire
  exact hcauses.mpr ⟨ho, .inl ⟨hscl, hwire⟩⟩

/-- A checked `Q()` in a command that owns the lines hangs where another device holds the data line: causes (b) and (c). -/
theorem quarter_hangs_on_data {c : QuarterCheck} (hc : c ≠ .plain) {s : State} (hl : Live s) (hn : NoChips s)
    (ho : s.owned = true) (hlow : (s.levelAt 0).sda = false) : (quarter c s).hung = true := by
  obtain ⟨hcauses, -, -⟩ := quarterHangsExactlyOnCauses c s hl.hung hl.budget
  have hwire : (environmentMoves (environmentTurn s)).sdaLine = false := by
    rw [sdaLine_noChips (noChips_environmentMoves (noChips_environmentTurn hn)), environmentMoves_envSda,
      ← levelAt_zero, levelAt_environmentTurn, hlow, Bool.and_false]
  exact hcauses.mpr ⟨ho, .inr ⟨hc, hwire⟩⟩

/-- The state a command `i` presented in `s` is left in by a `Q()` that hung after `position` micro-operations. -/
structure HungAt (i : Instr) (position : Nat) (s t : State) : Prop where
  hung : t.hung = true
  upc : t.upc = .at i position
  modes : SameModes s t
  err : t.err = s.err
  results : SameResults s t

/-- A `Q()` that hangs leaves the command where it was. -/
theorem HungAt.of_quarter {i : Instr} {position : Nat} {c : QuarterCheck} {s u : State} (hl : Live u)
    (hupc : u.upc = .at i position) (hmodes : SameModes s u) (hkept : Kept s u) (hhung : (quarter c u).hung = true) :
    HungAt i position s (quarter c u) where
  hung := hhung
  upc := by rw [quarter_upc hl, if_pos hhung, hupc]
  modes := hmodes.trans (keptLines_quarter c u).modes
  err := (kept_quarter c u).err.trans hkept.err
  results := by
    have h := hkept.trans (kept_quarter c u)
    exact ⟨h.res, h.rxbuf, h.wasAlive, h.pwmCnt⟩

/-- A command that runs the procedure `lead` to its end and finds the data line held at its checked `Q()` after that. -/
theorem HungAt.of_lead {lead : State → State} {n position : Nat} {o : Bool × Bool → Bool × Bool}
    {w : Bool × Bool → List (Bool × Bool)} {c : QuarterCheck} {i : Instr} {s : State}
    (hlead : Op lead n [] o w fun _ => true) (hlines : ∀ u, KeptLines u (lead u))
    (hupc : (lead (beginCommand i s)).hung = false → (lead (beginCommand i s)).upc = .at i position)
    (hcheck : c ≠ .plain) (hr : s.Ready) (ho : s.owned = true) (hn : NoChips s) (hc : ClockFree s n)
    (hlow : (s.levelAt n).sda = false) :
    HungAt i position s (quarter c (lead (beginCommand i s))) ∧
      (quarter c (lead (beginCommand i s))).latches = o s.latches := by
  obtain ⟨hran, hlatches, hkept⟩ := op_command hlead i hr hn rfl hc nofun
  have howned : (lead (beginCommand i s)).owned = true := (hlines _).owned.trans ho
  have hhung : (quarter c (lead (beginCommand i s))).hung = true :=
    quarter_hangs_on_data hcheck hran.live (hlead.noChips _ hn) howned (by rw [hran.levels]; exact hlow)
  refine ⟨.of_quarter hran.live (hupc hran.live.hung) (hlines _).modes hkept hhung, ?_⟩
  rw [← hlatches, State.latches, (quarter_latches c _).1, (quarter_latches c _).2, State.latches]

/-- `start()` up to its second `Q()`, which is checked for cause (b) (41_i2c_primitives.md R131). -/
def startLead (s : State) : State := s |> setSda true |> quarter .plain |> setScl true

/-- `start()` from its second `Q()` on. -/
def startRest (s : State) : State := s |> setSda false |> quarter .plain |> setScl false |> quarter .plain

theorem start_eq (s : State) : start s = startRest (quarter .startSecond (startLead s)) := rfl

theorem op_startLead : Op startLead 1 [] (fun _ => (true, true)) (fun l => [(l.1, true)]) fun _ => true :=
  ((Op.setSda true).comp .quarter).comp (.setScl true)

theorem startRest_of_hung {s : State} (h : s.hung = true) : startRest s = s :=
  ((((Op.setSda false).comp .quarter).comp (.setScl false)).comp .quarter).ofHung s h

theorem keptLines_startLead (s : State) : KeptLines s (startLead s) :=
  (keptLines_setSda _ _).trans <| (keptLines_quarter _ _).trans (keptLines_setScl _ _)

theorem startLead_upc {s : State} (hl : Live s) (hr : (startLead s).hung = false) :
    (startLead s).upc = s.upc.advance.advance.advance := by
  have hsda := setSda_live (v := true) hl
  have hq : (quarter .plain (setSda true s)).hung = false := running_before (fun _ => setScl_of_hung true) hr
  rw [startLead, setScl_upc (ran_quarter .plain hsda hq).live, quarter_upc hsda, hq, if_neg Bool.false_ne_true,
    setSda_upc hl]

/-- `stop()` up to its third `Q()`, which is checked for cause (c) (R132). -/
def stopLead (s : State) : State :=
  s |> setSda false |> quarter .plain |> setScl true |> quarter .plain |> setSda true

theorem stop_eq (s : State) : stop s = quarter .stopThird (stopLead s) := rfl

theorem op_stopLead : Op stopLead 2 [] (fun _ => (true, true)) (fun l => [(l.1, false), (true, false)])
    fun _ => true :=
  ((((Op.setSda false).comp .quarter).comp (.setScl true)).comp .quarter).comp (.setSda true)

theorem keptLines_stopLead (s : State) : KeptLines s (stopLead s) :=
  (keptLines_setSda _ _).trans <| (keptLines_quarter _ _).trans <| (keptLines_setScl _ _).trans <|
    (keptLines_quarter _ _).trans (keptLines_setSda _ _)

theorem stopLead_upc {s : State} (hl : Live s) (hr : (stopLead s).hung = false) :
    (stopLead s).upc = s.upc.advance.advance.advance.advance.advance := by
  have hsda := setSda_live (v := false) hl
  have hq' : (quarter .plain (setScl true (quarter .plain (setSda false s)))).hung = false :=
    running_before (fun _ => setSda_of_hung true) hr
  have hq : (quarter .plain (setSda false s)).hung = false :=
    running_before (Op.comp (.setScl true) .quarter).ofHung hq'
  have hlq := (ran_quarter .plain hsda hq).live
  have hscl := setScl_live (v := true) hlq
  rw [stopLead, setSda_upc (ran_quarter .plain hscl hq').live, quarter_upc hscl, hq', if_neg Bool.false_ne_true,
    setScl_upc hlq, quarter_upc hsda, hq, if_neg Bool.false_ne_true, setSda_upc hl]

/-- Settles O21: the one `Q()` of QDELAY meets cause (a); START and STOP run up to their checked `Q()`, which meets cause
(b) or (c). -/
theorem busHangCausesInCommands : Obligations.BusHangCausesInCommands := by
  refine ⟨fun s hr ho hscl hlow => ?_, fun s hr ho hn hc hlow => ?_, fun s hr ho hn hc hlow => ?_⟩
  · have hl := live_beginCommand (i := .qdelay) hr
    have hhung := quarter_hangs_on_clock .plain hl ho hscl hlow
    obtain ⟨hhung, hupc, hmodes, herr, hres⟩ :=
      HungAt.of_quarter (i := .qdelay) (position := 0) (s := s) hl rfl ⟨rfl, rfl⟩ (kept_begin _ s) hhung
    refine ⟨_, exec_runs hr ⟨nofun, nofun, nofun, nofun⟩, ?_⟩
    rw [bodyOf, endCommand_of_hung hhung]
    exact ⟨hhung, hupc, quarter_latches _ _, hmodes, herr, hres⟩
  · obtain ⟨⟨hhung, hupc, hmodes, herr, hres⟩, hlatches⟩ :=
      HungAt.of_lead (c := .startSecond) (i := .start) (position := 3) op_startLead keptLines_startLead
        (startLead_upc (live_beginCommand hr)) nofun hr ho hn (fun k hk => hc k (by omega)) hlow
    refine ⟨_, exec_runs hr ⟨fun _ => ho, nofun, nofun, nofun⟩, ?_⟩
    rw [bodyOf, start_eq, startRest_of_hung hhung, endCommand_of_hung hhung]
    exact ⟨hhung, hupc, Prod.mk.inj hlatches, hmodes, herr, hres⟩
  · obtain ⟨⟨hhung, hupc, hmodes, herr, hres⟩, hlatches⟩ :=
      HungAt.of_lead (c := .stopThird) (i := .stop) (position := 5) op_stopLead keptLines_stopLead
        (stopLead_upc (live_beginCommand hr)) nofun hr ho hn (fun k hk => hc k (by omega)) hlow
    refine ⟨_, exec_runs hr ⟨fun _ => ho, nofun, nofun, nofun⟩, ?_⟩
    rw [bodyOf, stop_eq, endCommand_of_hung hhung]
    exact ⟨hhung, hupc, Prod.mk.inj hlatches, hmodes, herr, hres⟩

/-! ### What a command that hangs leaves (R243) -/

/-- An assignment that is no micro-operation hangs nothing: where the sequencer has hung after it, it had before. -/
theorem hung_before_note {assign : State → State} {s : State} (h : (note assign s).hung = true)
    (hassign : ∀ s, (assign s).hung = s.hung) : s.hung = true := by
  unfold note at h
  split at h
  · exact h
  · exact (hassign s).symm.trans h

section

variable {R : State → State → Prop} {u v : State}

/-- Where the sequencer has hung the assignment has not been made. -/
theorem related_note {assign : State → State} (h : R u v) (hh : (note assign v).hung = true)
    (hassign : ∀ s, (assign s).hung = s.hung) : R u (note assign v) := by
  rwa [note_of_hung (hung_before_note hh hassign)]

/-- A relation that every micro-operation keeps is kept by the body of a command that hangs, since it has written no
result. -/
theorem Stable.bodyOf_hung (h : Stable R) (i : Instr) (s : State) (hh : (bodyOf i s u).hung = true) :
    R u (bodyOf i s u) := by
  cases i with
  | qdelay => exact h.quarter _ u
  | construct => exact h.construct u
  | destroy => exact h.destroy u
  | start => exact h.start u
  | stop => exact h.stop u
  | wbit b => exact h.wbit b u
  | rbit => exact related_note (h.rbit u) hh fun _ => rfl
  | wbyte | wireAddrWrite | wireAddrRead | regInput | regOutput | regPolinv | regConfig => exact h.wbyte _ u
  | rbyte ack =>
    rw [bodyOf] at hh ⊢
    exact related_note (h.rbyte ack u) hh fun _ => rfl
  | writebytes a n => exact h.writeBytes a _ u
  | readbytes a n => exact related_note (h.readBytes a n u) hh fun _ => rfl
  | writethenread a wn n => exact related_note (h.writeThenRead a _ n u) hh fun _ => rfl
  | readreg | xread | xgetinv =>
    rw [bodyOf, readToRes] at hh ⊢
    exact related_note (h.readRegister _ _ u) hh fun _ => rfl
  | writereg | xwrite | xconfig | xsetinv => exact h.writeRegister _ _ _ u
  | pinit => exact h.panelInit _ u
  | pcheck =>
    rw [bodyOf, panelCheck_eq] at hh ⊢
    refine related_note (related_note ?_ (hung_before_note hh fun _ => rfl) fun _ => rfl) hh fun _ => rfl
    split
    · exact h.trans (h.panelProbe _ u) (h.panelInit _ _)
    · exact h.panelProbe _ u
  | pbuttons =>
    rw [bodyOf, panelButtons_eq] at hh ⊢
    exact related_note (h.readTwo _ 0 2 u) hh fun _ => rfl
  | pknob =>
    rw [bodyOf, panelKnob_eq] at hh ⊢
    exact related_note (h.readTwo _ 0 1 u) hh fun _ => rfl
  | pleds m => exact h.panelLeds _ m u
  | pledtick m =>
    rw [bodyOf, panelLedTick] at hh ⊢
    exact related_note (h.panelLeds _ _ u) hh fun _ => rfl

end

/-- Between any two micro-operations of the command `i`: a hang happens while the lines are owned, and the sequencer is in
the command. -/
structure Held (i : Instr) (s : State) : Prop where
  owned : s.hung = true → s.owned = true
  position : ∃ position, s.upc = .at i position

/-- A micro-operation keeps it whose effect can hang only while the lines are owned. -/
theorem Held.act {i : Instr} {f : State → State} {s : State} (h : Held i s)
    (hf : ∀ t : State, t.hung = false → (f t).hung = true → (f t).owned = true) : Held i (act f s) := by
  unfold Machine.act
  split
  · exact h
  · rename_i hfrozen
    have hs : s.hung = false := by
      simp only [State.frozen, Bool.or_eq_true, not_or, Bool.not_eq_true] at hfrozen
      exact hfrozen.1
    obtain ⟨p, hp⟩ := h.position
    refine ⟨hf _ hs, ?_⟩
    show ∃ q, (if (f (environmentTurn s)).hung then s.upc else s.upc.advance) = .at i q
    split
    · exact ⟨p, hp⟩
    · exact ⟨p + 1, by rw [hp, Upc.advance]⟩

/-- A micro-operation whose effect does not touch `hung` keeps it. -/
theorem Held.act_simple {i : Instr} {f : State → State} {s : State} (h : Held i s)
    (hf : ∀ t : State, (f t).hung = t.hung) : Held i (Machine.act f s) :=
  h.act fun t hrun hhung => absurd (hrun.symm.trans ((hf t).symm.trans hhung)) Bool.false_ne_true

theorem Held.quarter {i : Instr} {s : State} (h : Held i s) (c : QuarterCheck) : Held i (quarter c s) := by
  rw [quarter_eq]
  refine h.act fun t hrun hhung => ?_
  split at hhung
  · rename_i hcause
    rw [if_pos hcause]
    exact ((busHangs_iff c _).mp hcause).1
  · exact absurd (hrun.symm.trans hhung) Bool.false_ne_true

theorem Held.setSclMode {i : Instr} {s : State} (h : Held i s) (m : LineMode) : Held i (setSclMode m s) :=
  h.act_simple fun _ => rfl

theorem Held.setSdaMode {i : Instr} {s : State} (h : Held i s) (m : LineMode) : Held i (setSdaMode m s) :=
  h.act_simple fun _ => rfl

theorem Held.setScl {i : Instr} {s : State} (h : Held i s) (v : Bool) : Held i (setScl v s) := h.act_simple fun _ => rfl

theorem Held.setSda {i : Instr} {s : State} (h : Held i s) (v : Bool) : Held i (setSda v s) := h.act_simple fun _ => rfl

theorem stableHeld (i : Instr) : Stable fun s t => Held i s → Held i t where
  refl _ h := h
  trans h k hs := k (h hs)
  setScl v _ h := h.setScl v
  setSda v _ h := h.setSda v
  quarter c _ h := h.quarter c
  sample _ h := Held.act_simple (f := sampleEffect) h fun _ => rfl
  setAckf _ s h := by
    unfold setAckf note
    split
    · exact h
    · exact ⟨h.owned, h.position⟩
  construct _ h := (((h.setScl _).setSda _).setSclMode _).setSdaMode _
  destroy _ h := (h.setSclMode _).setSdaMode _

/-- Settles O22: no micro-operation writes a result or gives the lines up on a hang, and what is assigned after one is not. -/
theorem hungCommandWritesNoResult : Obligations.HungCommandWritesNoResult := by
  rintro i s t ⟨-, hh, -, -⟩ hexec hhung
  obtain ⟨-, -, ⟨-, rfl⟩ | ⟨-, c, -, rfl⟩ | ⟨-, -, -, rfl⟩⟩ := exec_next hexec
  · exact absurd (hh.symm.trans hhung) Bool.false_ne_true
  · exact absurd (hh.symm.trans hhung) Bool.false_ne_true
  · rw [end_hung] at hhung
    have hkept := (kept_begin i s).trans (stableKept.bodyOf_hung i s hhung)
    have hbegun : Held i (beginCommand i s) := ⟨fun h => absurd (hh.symm.trans h) Bool.false_ne_true, 0, rfl⟩
    obtain ⟨howned, p, hp⟩ := (stableHeld i).bodyOf_hung i s hhung hbegun
    rw [endCommand_of_hung hhung]
    exact ⟨⟨hkept.res, hkept.rxbuf, hkept.wasAlive, hkept.pwmCnt⟩, hkept.err, by rw [State.busy, hp]; rfl,
      howned hhung, p, hp⟩

/-! ### Only reset leaves the error latch or a hang (R29, R252) -/

/-- An act of the environment leaves every register of the block as it is. -/
theorem kept_environmentAct (a : EnvAct) (s : State) : Kept s (environmentAct a s) := by
  rw [environmentAct_eq]
  exact ⟨rfl, rfl, rfl, rfl, rfl, rfl, rfl, rfl, rfl⟩

/-- With the latch set an instruction leaves it (R249). -/
theorem exec_keeps_err {i : Instr} {s t : State} (he : s.err ≠ 0) (h : exec i s = .next t) : t.err = s.err := by
  obtain hkept | ⟨hclear, -⟩ := exec_err h
  · exact hkept
  · exact absurd hclear he

/-- The first error wins (R241). -/
theorem refuse_err {code : ErrCode} {s : State} (he : s.err ≠ 0) : (refuse code s).err = s.err := if_neg he

/-- Of the moves of the world outside only those that reset clear the error latch. -/
theorem takeInput_keeps_err {m : Input} {s t : State} (hm : m.resets = false) (he : s.err ≠ 0)
    (h : takeInput m s = .next t) : t.err = s.err := by
  cases m with
  | writeCmd w =>
    obtain ⟨-, -, hrun⟩ := whenIdle_next h
    obtain ⟨i, -, hexec⟩ | ⟨-, rfl⟩ := runWord_next hrun
    · exact exec_keeps_err (s := { s with cmd := some w }) he hexec
    · exact refuse_err he
  | sendByte p b =>
    obtain ⟨-, -, hrun⟩ := whenIdle_next h
    obtain ⟨i, hexec⟩ | rfl := runWireByte_next hrun
    · exact exec_keeps_err he hexec
    · exact refuse_err he
  | writeTxbuf | writeStatus | readRes | readStatus | readRxbuf =>
    rw [takeInput] at h
    obtain ⟨-, -, ⟨⟩⟩ := whenIdle_next h
    rfl
  | environment a =>
    cases h
    exact (kept_environmentAct a s).err
  | reset | writeCmdThenReset => cases hm

/-- After a BUS_HANG only reset and the environment have a next state (R243). -/
theorem takeInput_hung {m : Input} {s t : State} (hm : m.resets = false) (hh : s.hung = true)
    (h : takeInput m s = .next t) : ∃ a, t = environmentAct a s := by
  have hgate (hidle : ∃ move, ∀ u, takeInput m u = whenIdle move u) : False := by
    obtain ⟨move, hmove⟩ := hidle
    rw [hmove] at h
    obtain ⟨hrun, -, -⟩ := whenIdle_next h
    exact Bool.false_ne_true (hrun.symm.trans hh)
  cases m with
  | environment a =>
    cases h
    exact ⟨a, rfl⟩
  | writeCmd | writeTxbuf | writeStatus | readRes | readStatus | readRxbuf =>
    exact (hgate (takeInput_of_isHostMove rfl)).elim
  | sendByte => exact (hgate ⟨_, fun _ => rfl⟩).elim
  | reset | writeCmdThenReset => cases hm

/-- Settles O23: the latch refuses every instruction, a hang stops every instruction, and of the moves that do not reset only
the environment's have a next state after a hang. -/
theorem nothingReturnsButReset : Obligations.NothingReturnsButReset := by
  refine ⟨fun i s hh hu he => exec_latched i hh hu he, fun i s t hh hexec => ?_, fun s t hm hstep => ?_⟩
  · obtain ⟨hrun, -⟩ := exec_next hexec
    exact Bool.false_ne_true (hrun.symm.trans hh)
  · cases hin : s.inputs with
    | nil =>
      rw [step_of_none hin] at hstep
      obtain rfl := waitForInput_next hstep
      exact ⟨fun _ => rfl, fun hh => ⟨hh, rfl, rfl, rfl, ⟨rfl, rfl⟩, ⟨rfl, rfl⟩, rfl, rfl, rfl, rfl⟩⟩
    | cons m rest =>
      rw [step_of_input hin] at hstep
      have hresets : m.resets = false := hm m (by rw [hin]; rfl)
      refine ⟨fun he => takeInput_keeps_err (s := { s with inputs := rest }) hresets he hstep, fun hh => ?_⟩
      obtain ⟨a, rfl⟩ := takeInput_hung (s := { s with inputs := rest }) hresets hh hstep
      rw [environmentAct_eq]
      exact ⟨hh, rfl, rfl, rfl, ⟨rfl, rfl⟩, ⟨rfl, rfl⟩, rfl, rfl, rfl, rfl⟩

/-! ### A bus nobody holds (R243, R143) -/

/-- Settles O53: a refusal ends the command at once, and the body of one that runs meets no cause of a hang. -/
theorem nothingHangsOnFreeBus : Obligations.NothingHangsOnFreeBus := by
  intro i s hh hu hb hn hfree
  obtain ⟨t, hexec⟩ := exec_total i hh hu
  refine ⟨t, hexec, ?_⟩
  obtain ⟨-, -, ⟨-, rfl⟩ | ⟨-, c, -, rfl⟩ | ⟨-, -, -, rfl⟩⟩ := exec_next hexec
  · exact ⟨hh, rfl⟩
  · exact ⟨hh, rfl⟩
  · have hl : Live (beginCommand i s) := ⟨hh, hb⟩
    have hlive : Live (bodyOf i s (beginCommand i s)) := by
      by_cases hi : i = .pcheck
      · subst hi
        exact (bodyOf_pcheck_absent hl ⟨hn, fun k hk => hfree k (Nat.lt_trans hk (by decide))⟩).live
      · exact (bodyOf_absent hi hl ⟨hn, hfree⟩).live
    rw [endCommand_of_live hlive]
    exact ⟨hlive.hung, rfl⟩

end Sys2Proof.Machine

/-! PROOFS. The family of 70_reset_and_hazards.md: reset at any moment (R270, R271, U19) and the durations of the commands
(R280). -/

namespace Sys2Proof.Machine

/-! ### Reset between commands (R270, R271) -/

/-- At the rise of the clock a chip takes a bit or an answer: no register changes. -/
theorem Chip.clockRise_registers (sda : Bool) (c : Chip) :
    SameRegisters c (c.clockRise sda) ∧ (c.clockRise sda).ptr = c.ptr ∧ (c.clockRise sda).addr = c.addr := by
  unfold Chip.clockRise
  split
  · exact ⟨⟨rfl, rfl, rfl⟩, rfl, rfl⟩
  all_goals split <;> exact ⟨⟨rfl, rfl, rfl⟩, rfl, rfl⟩

/-- A chip writes a register or its pointer at a fall of the clock only (R61). -/
theorem Chip.observe_registers {scl : Bool} (sda : Bool) {c : Chip} (h : c.seenScl = true → scl = true) :
    SameRegisters c (c.observe scl sda) ∧ (c.observe scl sda).ptr = c.ptr ∧ (c.observe scl sda).addr = c.addr := by
  unfold Chip.observe
  dsimp only
  split_ifs with hoff hhigh hstart hstop hrise hfall
  · exact ⟨⟨rfl, rfl, rfl⟩, rfl, rfl⟩
  · exact ⟨⟨rfl, rfl, rfl⟩, rfl, rfl⟩
  · exact ⟨⟨rfl, rfl, rfl⟩, rfl, rfl⟩
  · exact ⟨⟨rfl, rfl, rfl⟩, rfl, rfl⟩
  · exact c.clockRise_registers sda
  · obtain ⟨hseen, hlow⟩ := by simpa using hfall
    exact absurd ((h hseen).symm.trans hlow) Bool.noConfusion
  · exact ⟨⟨rfl, rfl, rfl⟩, rfl, rfl⟩

/-- Reset lets the clock line go: it is high then unless another device holds it. -/
theorem blockReset_sclLine (s : State) : (blockReset s).sclLine = s.envScl := Bool.true_and _

/-- Letting the lines go makes no fall of the clock. -/
theorem envScl_of_sclLine {s : State} (h : s.sclLine = true) : s.envScl = true := (Bool.and_eq_true_iff.mp h).2

/-- What reset leaves: the block's reset state, the environment, and the chips as they saw the lines let go. -/
theorem blockReset_eq (s : State) : blockReset s =
    { State.reset with envScl := s.envScl, envSda := s.envSda, envScript := s.envScript, envDraws := s.envDraws,
                       envActs := s.envActs, envTurns := s.envTurns, chips := (blockReset s).chips, inputs := s.inputs,
                       hostData := s.hostData, trace := s.trace } := rfl

/-- The chips after reset are the chips before it, each having seen the lines let go. -/
theorem blockReset_chips (s : State) :
    ∃ sda, (blockReset s).chips = s.chips.map (Chip.observe s.envScl sda) :=
  ⟨_, by rw [← blockReset_sclLine s]; rfl⟩

/-- Settles O12: the lines are let go in one change, which is no fall of the clock, so no chip writes a register. -/
theorem resetMoveResetsBlockOnly : Obligations.ResetMoveResetsBlockOnly := by
  intro s rest hin hseen
  obtain ⟨sda, hchips⟩ := blockReset_chips { s with inputs := rest }
  refine ⟨_, step_of_input hin, blockReset_eq _, ?_, fun n c d hc hd => ?_⟩
  · rw [hchips, List.length_map]
  · rw [hchips, List.getElem?_map, hc] at hd
    cases hd
    exact Chip.observe_registers sda fun h => envScl_of_sclLine ((hseen c (List.mem_of_getElem? hc)).symm.trans h)

/-! ### Reset inside a command (R271, U19) -/

/-- From `s` to `t` the environment was observed `draws` times and had its turn `turns` times, and its script and its acts
were taken in order. -/
def EnvironmentAdvanced (s t : State) : Prop :=
  ∃ draws turns, t.envScript = s.envScript.drop draws ∧ t.envDraws = s.envDraws + draws ∧
    t.envActs = s.envActs.drop turns ∧ t.envTurns = s.envTurns + turns

theorem EnvironmentAdvanced.refl (s : State) : EnvironmentAdvanced s s := ⟨0, 0, rfl, rfl, rfl, rfl⟩

theorem EnvironmentAdvanced.trans {s t u : State} (h : EnvironmentAdvanced s t) (k : EnvironmentAdvanced t u) :
    EnvironmentAdvanced s u := by
  obtain ⟨draws, turns, hscript, hdraws, hacts, hturns⟩ := h
  obtain ⟨draws', turns', kscript, kdraws, kacts, kturns⟩ := k
  refine ⟨draws + draws', turns + turns', ?_, ?_, ?_, ?_⟩
  · rw [kscript, hscript, List.drop_drop]
  · rw [kdraws, hdraws, Nat.add_assoc]
  · rw [kacts, hacts, List.drop_drop]
  · rw [kturns, hturns, Nat.add_assoc]

theorem environmentAdvanced_turn (s : State) : EnvironmentAdvanced s (environmentTurn s) :=
  ⟨0, 1, rfl, rfl, List.drop_one.symm, rfl⟩

theorem environmentAdvanced_moves (s : State) : EnvironmentAdvanced s (environmentMoves s) :=
  ⟨1, 0, List.drop_one.symm, rfl, rfl, rfl⟩

/-- A micro-operation takes a turn of the environment before its effect. -/
theorem environmentAdvanced_act {f : State → State} (s : State) (h : ∀ t, EnvironmentAdvanced t (f t)) :
    EnvironmentAdvanced s (act f s) :=
  act_induction (R := EnvironmentAdvanced) s (.refl s) ((environmentAdvanced_turn s).trans (h _)) fun _ _ _ h => h

theorem environmentAdvanced_quarter (c : QuarterCheck) (s : State) : EnvironmentAdvanced s (quarter c s) := by
  rw [quarter_eq]
  exact environmentAdvanced_act s fun t =>
    quarter_effects (P := EnvironmentAdvanced t) c t (environmentAdvanced_moves t) (environmentAdvanced_moves t)

theorem environmentAdvanced_sample (s : State) : EnvironmentAdvanced s (sampleSda s).2 :=
  environmentAdvanced_act (f := sampleEffect) s environmentAdvanced_moves

theorem environmentAdvanced_setScl (v : Bool) (s : State) : EnvironmentAdvanced s (setScl v s) :=
  environmentAdvanced_act s .refl

theorem environmentAdvanced_setSda (v : Bool) (s : State) : EnvironmentAdvanced s (setSda v s) :=
  environmentAdvanced_act s .refl

theorem environmentAdvanced_setSclMode (m : LineMode) (s : State) : EnvironmentAdvanced s (setSclMode m s) :=
  environmentAdvanced_act s .refl

theorem environmentAdvanced_setSdaMode (m : LineMode) (s : State) : EnvironmentAdvanced s (setSdaMode m s) :=
  environmentAdvanced_act s .refl

/-- An assignment that is no micro-operation gives the environment no turn. -/
theorem environmentAdvanced_note {assign : State → State} (s : State) (h : EnvironmentAdvanced s (assign s)) :
    EnvironmentAdvanced s (note assign s) := by
  unfold note
  split
  · exact .refl s
  · exact h

/-- A relation every piece of a body keeps, and the four assignments of results keep. -/
structure StableResults (R : State → State → Prop) : Prop extends Stable R where
  setRes : ∀ v s, R s (setRes v s)
  storeRxbuf : ∀ bytes s, R s (storeRxbuf bytes s)
  setWasAlive : ∀ alive s, R s (setWasAlive alive s)
  advancePwm : ∀ P s, R s (advancePwm P s)

/-- Such a relation is kept by the body of every instruction, whether it runs to its end, hangs or is cut off. -/
theorem StableResults.bodyOf {R : State → State → Prop} (h : StableResults R) (i : Instr) (s u : State) :
    R u (bodyOf i s u) := by
  cases i with
  | qdelay => exact h.quarter _ u
  | construct => exact h.construct u
  | destroy => exact h.destroy u
  | start => exact h.start u
  | stop => exact h.stop u
  | wbit b => exact h.wbit b u
  | rbit => exact h.trans (h.rbit u) (h.setRes _ _)
  | wbyte | wireAddrWrite | wireAddrRead | regInput | regOutput | regPolinv | regConfig => exact h.wbyte _ u
  | rbyte ack => exact h.trans (h.rbyte ack u) (h.setRes _ _)
  | writebytes a n => exact h.writeBytes a _ u
  | readbytes a n => exact h.trans (h.readBytes a n u) (h.storeRxbuf _ _)
  | writethenread a wn n => exact h.trans (h.writeThenRead a _ n u) (h.storeRxbuf _ _)
  | readreg | xread | xgetinv =>
    rw [Machine.bodyOf, readToRes]
    exact h.trans (h.readRegister _ _ u) (h.setRes _ _)
  | writereg | xwrite | xconfig | xsetinv => exact h.writeRegister _ _ _ u
  | pinit => exact h.panelInit _ u
  | pcheck =>
    rw [Machine.bodyOf, panelCheck_eq]
    refine h.trans (h.trans ?_ (h.setWasAlive _ _)) (h.setRes _ _)
    split
    · exact h.trans (h.panelProbe _ u) (h.panelInit _ _)
    · exact h.panelProbe _ u
  | pbuttons =>
    rw [Machine.bodyOf, panelButtons_eq]
    exact h.trans (h.readTwo _ 0 2 u) (h.setRes _ _)
  | pknob =>
    rw [Machine.bodyOf, panelKnob_eq]
    exact h.trans (h.readTwo _ 0 1 u) (h.setRes _ _)
  | pleds m => exact h.panelLeds _ m u
  | pledtick m =>
    rw [Machine.bodyOf, panelLedTick]
    exact h.trans (h.panelLeds _ _ u) (h.advancePwm _ _)

theorem stableEnvironmentAdvanced : StableResults EnvironmentAdvanced where
  refl := .refl
  trans := .trans
  setScl := environmentAdvanced_setScl
  setSda := environmentAdvanced_setSda
  quarter := environmentAdvanced_quarter
  sample := environmentAdvanced_sample
  setAckf _ s := environmentAdvanced_note s (.refl s)
  construct _ := (environmentAdvanced_setScl _ _).trans <| (environmentAdvanced_setSda _ _).trans <|
    (environmentAdvanced_setSclMode _ _).trans (environmentAdvanced_setSdaMode _ _)
  destroy _ := (environmentAdvanced_setSclMode _ _).trans (environmentAdvanced_setSdaMode _ _)
  setRes _ s := environmentAdvanced_note s (.refl s)
  storeRxbuf _ s := environmentAdvanced_note s (.refl s)
  setWasAlive _ s := environmentAdvanced_note s (.refl s)
  advancePwm _ s := environmentAdvanced_note s (.refl s)

theorem environmentAdvanced_endCommand (s : State) : EnvironmentAdvanced s (endCommand s) := by
  unfold endCommand
  split <;> exact .refl s

/-- Every instruction, refused or run as far as it comes, takes the environment's script and acts in order. -/
theorem exec_environmentAdvanced {i : Instr} {s t : State} (h : exec i s = .next t) : EnvironmentAdvanced s t := by
  obtain ⟨-, -, ⟨-, rfl⟩ | ⟨-, c, -, rfl⟩ | ⟨-, -, -, rfl⟩⟩ := exec_next h
  · exact .refl s
  · exact .refl s
  · have hbody := stableEnvironmentAdvanced.bodyOf i s (beginCommand i s)
    exact hbody.trans (environmentAdvanced_endCommand _)

/-- A word the host writes leaves the environment moved on and the host's side as it was, whatever becomes of the command. -/
theorem runWord_leaves {w : CmdWord} {s t : State} (h : runWord w s = .next t) :
    EnvironmentAdvanced s t ∧ SameHostSide s t := by
  obtain ⟨i, -, hexec⟩ | ⟨-, rfl⟩ := runWord_next h
  · exact ⟨exec_environmentAdvanced (s := { s with cmd := some w }) hexec, (exec_effects_but_err hexec).host⟩
  · exact ⟨.refl s, rfl, rfl, rfl⟩

/-- An idle block answers every word. -/
theorem runWord_total (w : CmdWord) {s : State} (hh : s.hung = false) (hu : s.upc = .idle) :
    ∃ t, runWord w s = .next t := by
  cases hd : decodeCommand w with
  | ok i =>
    rw [runWord_of_decode hd]
    exact exec_total i (s := { s with cmd := some w }) hh hu
  | error e => exact ⟨_, by rw [runWord, hd]⟩

theorem runWordThenReset_of_next {w : CmdWord} {k : Nat} {s u : State}
    (h : runWord w { s with budget := some k } = .next u) :
    runWordThenReset w k s = .next (blockReset (environmentTurn u)) := by
  rw [runWordThenReset, h]

/-- Settles O13: wherever the command was cut off it has moved the environment on and written nothing of the host's side, and
reset takes everything else to its reset value. -/
theorem resetInsideCommandResetsBlock : Obligations.ResetInsideCommandResetsBlock := by
  intro s w k rest hh hu hin
  obtain ⟨u, hrun⟩ := runWord_total w (s := { s with inputs := rest, budget := some k }) hh hu
  have hstep := (step_of_idle hh hu hin fun _ => rfl).trans (runWordThenReset_of_next hrun)
  obtain ⟨hcommand, -, (hinputs : u.inputs = rest), (hdata : u.hostData = s.hostData)⟩ := runWord_leaves hrun
  have henv : EnvironmentAdvanced s (environmentTurn u) := hcommand.trans (environmentAdvanced_turn u)
  obtain ⟨draws, turns, hscript, hdraws, hacts, hturns⟩ := henv
  refine ⟨_, hstep, draws, turns, ?_⟩
  rw [← hscript, ← hdraws, ← hacts, ← hturns, ← hinputs, ← hdata]
  exact blockReset_eq (environmentTurn u)

/-! ### Durations (R280) -/

/-- The waveform of each instruction is as long as the table of R280 says. -/
theorem length_waveOf {i : Instr} {n : Nat} (h : quartersOf i = some n) (s : State) (l : Bool × Bool) :
    (waveOf i s l).length = n := by
  cases i with
  | pcheck => cases h
  | qdelay | construct | destroy | start | stop | wbit | rbit =>
    cases h
    rfl
  | wbyte | wireAddrWrite | wireAddrRead | regInput | regOutput | regPolinv | regConfig =>
    cases h
    exact length_byteWave _ _
  | rbyte =>
    cases h
    exact length_byteReadWave _ _
  | writebytes a k =>
    cases h
    exact (length_writeWave _ _ _).trans (congrArg writeQuarters (by simp [txPayload]))
  | readbytes =>
    cases h
    exact length_readBytesWave _ _ _
  | writethenread a wn k =>
    cases h
    exact (length_writeThenReadWave _ _ _ _).trans (congrArg (writeThenReadQuarters · k) (by simp [txPayload]))
  | writereg | xwrite | xconfig | xsetinv =>
    cases h
    exact length_writeWave _ _ _
  | readreg | xread | xgetinv =>
    cases h
    exact length_writeThenReadWave _ _ _ _
  | pinit | pleds | pledtick =>
    cases h
    exact length_writesWave _ _
  | pbuttons | pknob =>
    cases h
    rw [waveOf, List.length_append, length_writeThenReadWave, length_writeThenReadWave]
    rfl

/-- Between two states with one record no `Q()` was executed. -/
theorem durationBetween_of_same_trace {s t : State} (h : t.trace = s.trace) : durationBetween s t = 0 :=
  congrArg List.length (latchWave_of_same_trace h)

/-- The probe is one procedure once the byte it writes back is fixed (44_panel.md R210). -/
theorem panelProbe_ran {u : State} (hl : Live u) (hr : (panelProbe Config.params u).2.hung = false) :
    ∃ n w, Ran u (panelProbe Config.params u).2 n (probeWave w) := by
  rw [panelProbe_state] at hr ⊢
  generalize probeWord Config.params u = w at hr ⊢
  have hop := (((op_construct.comp (op_readChip Config.params 2 REG_POLINV)).comp
    (op_writeRegister (deviceAddr Config.params 2) REG_POLINV w)).comp (op_readChip Config.params 2 REG_POLINV)).comp
    op_destroy
  obtain ⟨hran, -⟩ := hop.ran u hl hr
  rw [List.append_nil, List.nil_append] at hran
  exact ⟨_, w, hran⟩

/-- The probe lasts 425 quarter-bits, and 1345 where `panel_init()` follows it (R280). -/
theorem probeThenInit_ran (reinit : Bool) {u : State} (hl : Live u)
    (hr : (if reinit then panelInit Config.params (panelProbe Config.params u).2
      else (panelProbe Config.params u).2).hung = false) :
    ∃ n wave, Ran u (if reinit then panelInit Config.params (panelProbe Config.params u).2
      else (panelProbe Config.params u).2) n wave ∧ wave.length = if reinit then 1345 else 425 := by
  cases reinit with
  | false =>
    rw [if_neg Bool.false_ne_true] at hr ⊢
    obtain ⟨n, w, hran⟩ := panelProbe_ran hl hr
    exact ⟨n, _, hran, (length_probeWave w).trans (if_neg Bool.false_ne_true).symm⟩
  | true =>
    rw [if_pos rfl] at hr ⊢
    have hprobe := running_before (op := panelInit Config.params) (op_panelInit _).ofHung hr
    obtain ⟨n, w, hran⟩ := panelProbe_ran hl hprobe
    obtain ⟨hinit, -⟩ := (op_panelInit Config.params).ran _ hran.live hr
    refine ⟨_, _, hran.trans hinit, ?_⟩
    rw [List.length_append, length_probeWave, length_initWave, if_pos rfl]

/-- PCHECK initialises the panel exactly if it was not alive and is found alive (R211), and lasts accordingly. -/
theorem pcheck_duration {s : State} (hr : s.Ready)
    (hh : (bodyOf .pcheck s (beginCommand .pcheck s)).hung = false) :
    durationBetween s (endCommand (bodyOf .pcheck s (beginCommand .pcheck s))) =
      if s.wasAlive = false ∧ (endCommand (bodyOf .pcheck s (beginCommand .pcheck s))).wasAlive = true then 1345
      else 425 := by
  have hwas : (panelProbe Config.params (beginCommand .pcheck s)).2.wasAlive = s.wasAlive :=
    (stableKept.panelProbe _ _).wasAlive
  rw [bodyOf, panelCheck_eq, hwas] at hh ⊢
  obtain ⟨n, wave, hran, hlength⟩ :=
    probeThenInit_ran _ (live_beginCommand hr) (hung_setWasAlive (hung_setRes hh))
  rw [endCommand_setAlive hran.live]
  exact hran.duration.trans (hlength.trans (by simp [and_comm]))

/-- Settles O51: a refusal records nothing, and a command that runs to its end has driven the waveform of its instruction,
one pair of latches to a `Q()`. -/
theorem durationsAreTheTable : Obligations.DurationsAreTheTable := by
  intro i s t hr hexec hh
  have ⟨_, _, _, hclear⟩ := hr
  refine ⟨fun herr => ?_, fun herr n hn => ?_, ?_⟩
  · obtain hkept | ⟨-, c, -, rfl⟩ := exec_err hexec
    · exact absurd (hkept.trans hclear) herr
    · exact durationBetween_of_same_trace rfl
  · have hi : i ≠ .pcheck := by
      rintro rfl
      cases hn
    obtain ⟨hrefused, -⟩ | ⟨-, -, -, hwave⟩ := exec_wave hi hr hexec hh
    · exact absurd herr hrefused
    · rw [durationBetween, quarterCount, hwave]
      exact length_waveOf hn s _
  · rintro herr rfl
    obtain rfl := exec_ran_of_err hexec hclear herr
    rw [end_hung] at hh
    exact pcheck_duration hr hh

end Sys2Proof.Machine
